-- ==== Sys2Proof/Word.lean ====
section
/-! DEFINITION. The words of LQ-FXCORE-1: what the spec treats as bits (00_scope.md R5, R8). -/

namespace Sys2Proof

/-- A host word: every register and every host access is 32 bits (20_memory.md R52). -/
abbrev Word32 := BitVec 32

/-- A data word of W = 16 bits in Q4.12: samples, coefficients, gains and DMEM words (40_fixedpoint.md R101). -/
abbrev Sample := BitVec 16

/-- The accumulator ACC, A = 40 bits (10_state.md R30). -/
abbrev AccWord := BitVec 40

end Sys2Proof
end

