-- ==== Sys2Proof/Config.lean ====
section
/-! DEFINITION. What an implementation fixes: the parameters of 00_scope.md R5 at the values of
LQ-FXCORE-1, and the two parameters the spec leaves OPEN, KAISER_FN (42_designer.md R163) and BASE
(20_memory.md R51), as constants without a body. Host-visible words have fixed types in Word.lean. -/

namespace Sys2Proof.Config

/-- Width in bits of a data word (R5). -/
abbrev W : Nat := 16
/-- Fraction bits of a data word (R5). -/
abbrev F : Nat := 12
/-- Width in bits of the accumulator (R5). -/
abbrev A : Nat := 40
/-- Largest interpolation factor, M_MAX (R5). -/
abbrev mMax : Nat := 16
/-- Largest sub-filter and dot-product length, L_MAX (R5). -/
abbrev lMax : Nat := 256
/-- Largest total tap count of one context, TAPS_MAX (R5). -/
abbrev tapsMax : Nat := 1024
/-- Words of DMEM, DMEM_WORDS (R5). -/
abbrev dmemWords : Nat := 4096
/-- Interpolator contexts, N_CTX (R5). -/
abbrev nCtx : Nat := 2
/-- Dot-product slots, N_DP (R5). -/
abbrev nDp : Nat := 2

/-- The identification word of the ID register (10_state.md R23; 00_scope.md R2). -/
abbrev idWord : Word32 := 0x4C510001

/-- Tap `i` of the OPEN parameter KAISER_FN(M, m, As), for the taps up to the centre (42_designer.md R163);
the other half mirrors it (`Machine.kaiserFn`). As is given by its binary32 pattern. A free value: it has no
body, so a statement about it holds for every coefficient function. DESIGN CHOICE (log entry 4), safe. -/
opaque kaiserTap : (M m : Nat) → (as : Word32) → (i : Nat) → Sample

/-- Whether KAISER_FN clamps a tap of the design (M, m, As): "If a `KAISER_FN` clamps, it sets SAT"
(42_designer.md R166). A free value without a body. DESIGN CHOICE (log entry 4), safe. -/
opaque kaiserClamps : (M m : Nat) → (as : Word32) → Bool

/-- Which 128 KiB window of the host bus the platform gives the block: the OPEN parameter BASE
(20_memory.md R51). A free value without a body; nothing in the block depends on it (log entry 5). -/
opaque baseIndex : Nat

/-- BASE, aligned to 128 KiB (20_memory.md R51). Host accesses of the model are relative to it (R52). -/
def base : Nat := baseIndex * 0x20000

end Sys2Proof.Config
end

