-- ==== Sys2Proof/Syntax.lean ====
section
/-! DEFINITION. The commands of LQ-FXCORE-1, one constructor per row of spec/opcode_table.json
(30_encoding.md R73). An index is kept as its two-bit field IDX; WellFormed.lean checks it. -/

namespace Sys2Proof

/-- A command. `s` is a slot index, `c` a context index (R75); `u` is the path bit U of DP_EXEC (R76). -/
inductive Instr where
  | nop
  | fxFromf
  | fxTof
  | fxMul
  | macClr
  | macAcc
  | macRd
  | dpLoad (s : BitVec 2)
  | dpExec (u : Bool) (s : BitVec 2)
  | dpFree (s : BitVec 2)
  | intCreate (c : BitVec 2)
  | intKaiser (c : BitVec 2)
  | intReset (c : BitVec 2)
  | intExec (c : BitVec 2)
  | intExecBlock (c : BitVec 2)
  | intSetScale (c : BitVec 2)
  | intCopy (c : BitVec 2)
  | intDestroy (c : BitVec 2)
  deriving DecidableEq, Repr

end Sys2Proof
end

