-- ==== Sys2Proof/WellFormed.lean ====
section
/-! DEFINITION. The one check a decoded command meets: its index names a slot or a context that exists
(30_encoding.md R75). -/

namespace Sys2Proof

/-- A slot index is below N_DP, a context index below N_CTX (R75). -/
def Instr.wellFormed : Instr → Bool
  | .nop => true
  | .fxFromf => true
  | .fxTof => true
  | .fxMul => true
  | .macClr => true
  | .macAcc => true
  | .macRd => true
  | .dpLoad s => s.toNat < Config.nDp
  | .dpExec _ s => s.toNat < Config.nDp
  | .dpFree s => s.toNat < Config.nDp
  | .intCreate c => c.toNat < Config.nCtx
  | .intKaiser c => c.toNat < Config.nCtx
  | .intReset c => c.toNat < Config.nCtx
  | .intExec c => c.toNat < Config.nCtx
  | .intExecBlock c => c.toNat < Config.nCtx
  | .intSetScale c => c.toNat < Config.nCtx
  | .intCopy c => c.toNat < Config.nCtx
  | .intDestroy c => c.toNat < Config.nCtx

end Sys2Proof
end

