-- ==== Sys2Proof/Decode.lean ====
section
/-! DEFINITION. The decoder of a command word, total on every 32-bit word and rejecting by name, and the
encoder (30_encoding.md R70 to R75, R82 to R84). Every rejection is the error ILLEGAL of the machine; the
name says which check of R74 failed. -/

namespace Sys2Proof

/-- The three formats of R72. -/
inductive Format where
  | c0
  | ci
  | ciu
  deriving DecidableEq, Repr

/-- Mask of the bits a format fixes (R72). -/
def Format.mask : Format → Word32
  | .c0 => 0xFFFFFFFF
  | .ci => 0xFFFFFFFC
  | .ciu => 0xFFFFFEFC

/-- Which check of R74 a word fails. The machine gives each of them the outcome ILLEGAL. -/
inductive DecodeError where
  /-- The opcode is unassigned (R83). -/
  | unassignedOpcode
  /-- The opcode is 0x22, kept for `create_from_prototype` (R84). -/
  | reservedOpcode
  /-- A bit that the row's format requires to be 0 is set (R82). -/
  | reservedBits
  /-- IDX is at or above N_DP or N_CTX (R75). -/
  | indexOutOfRange
  deriving DecidableEq, Repr

/-- OP, bits 31:24 (R71). -/
def opField (v : Word32) : BitVec 8 := v.extractLsb' 24 8

/-- U, bit 8 (R71). -/
def uField (v : Word32) : Bool := v.getLsbD 8

/-- IDX, bits 1:0 (R71). -/
def idxField (v : Word32) : BitVec 2 := v.extractLsb' 0 2

/-- One row of the opcode map R73: opcode, format, index limit (R75; no meaning for C0) and the command it
stands for, given U and IDX. -/
structure OpcodeRow where
  op : BitVec 8
  format : Format
  limit : Nat
  build : Bool → BitVec 2 → Instr

/-- The word a row matches: `OP << 24` (R72). -/
def OpcodeRow.pattern (r : OpcodeRow) : Word32 := r.op ++ 0#24

/-- A row without operands (format C0). -/
def rowC0 (op : BitVec 8) (i : Instr) : OpcodeRow := ⟨op, .c0, 0, fun _ _ => i⟩

/-- A row with a slot index (format CI). -/
def rowSlot (op : BitVec 8) (f : BitVec 2 → Instr) : OpcodeRow := ⟨op, .ci, Config.nDp, fun _ k => f k⟩

/-- A row with a context index (format CI). -/
def rowCtx (op : BitVec 8) (f : BitVec 2 → Instr) : OpcodeRow := ⟨op, .ci, Config.nCtx, fun _ k => f k⟩

/-- The opcode map R73, without its reserved row 0x22. -/
def opcodeRows : List OpcodeRow :=
  [ rowC0 0x00 .nop,
    rowC0 0x01 .fxFromf,
    rowC0 0x02 .fxTof,
    rowC0 0x03 .fxMul,
    rowC0 0x04 .macClr,
    rowC0 0x05 .macAcc,
    rowC0 0x06 .macRd,
    rowSlot 0x10 .dpLoad,
    ⟨0x11, .ciu, Config.nDp, .dpExec⟩,
    rowSlot 0x12 .dpFree,
    rowCtx 0x20 .intCreate,
    rowCtx 0x21 .intKaiser,
    rowCtx 0x23 .intReset,
    rowCtx 0x24 .intExec,
    rowCtx 0x25 .intExecBlock,
    rowCtx 0x26 .intSetScale,
    rowCtx 0x27 .intCopy,
    rowCtx 0x28 .intDestroy ]

/-- The row whose OP is that of the word, if there is one (R74, first line). -/
def findRow (v : Word32) : Option OpcodeRow := opcodeRows.find? fun r => r.op == opField v

/-- The decoder R74: its checks in the order written, the first failure reported. -/
def decode (v : Word32) : Except DecodeError Instr :=
  match findRow v with
  | none => if opField v = 0x22 then .error .reservedOpcode else .error .unassignedOpcode
  | some r =>
    if v &&& r.format.mask ≠ r.pattern then .error .reservedBits
    else if r.format ≠ .c0 ∧ r.limit ≤ (idxField v).toNat then .error .indexOutOfRange
    else .ok (r.build (uField v) (idxField v))

/-- A command word from its fields: OP 31:24, zeros 23:9, U 8, zeros 7:2, IDX 1:0 (R71). -/
def commandWord (op : BitVec 8) (u : Bool) (idx : BitVec 2) : Word32 :=
  op ++ 0#15 ++ BitVec.ofBool u ++ 0#6 ++ idx

/-- The encoder: the word of R87, `OP << 24 | U << 8 | n`, with the opcodes of R73. -/
def encode : Instr → Word32
  | .nop => commandWord 0x00 false 0
  | .fxFromf => commandWord 0x01 false 0
  | .fxTof => commandWord 0x02 false 0
  | .fxMul => commandWord 0x03 false 0
  | .macClr => commandWord 0x04 false 0
  | .macAcc => commandWord 0x05 false 0
  | .macRd => commandWord 0x06 false 0
  | .dpLoad s => commandWord 0x10 false s
  | .dpExec u s => commandWord 0x11 u s
  | .dpFree s => commandWord 0x12 false s
  | .intCreate c => commandWord 0x20 false c
  | .intKaiser c => commandWord 0x21 false c
  | .intReset c => commandWord 0x23 false c
  | .intExec c => commandWord 0x24 false c
  | .intExecBlock c => commandWord 0x25 false c
  | .intSetScale c => commandWord 0x26 false c
  | .intCopy c => commandWord 0x27 false c
  | .intDestroy c => commandWord 0x28 false c

/-- The command word whose low `nbits` bits are those of `w`, every bit above them 0. -/
def tableWord (nbits w : Nat) : Word32 := BitVec.ofNat 32 (w % 2 ^ nbits)

/-- The command the decoder reads from a word given as the opcode table numbers its bits. A command is one
32-bit word (R70), so there is none of more bits. -/
def decodeTableWord (nbits w : Nat) : Option Instr :=
  if nbits ≤ 32 then
    match decode (tableWord nbits w) with
    | .ok i => some i
    | .error _ => none
  else none

end Sys2Proof
end

