-- ==== Sys2Proof/Machine/State.lean ====
section
/-! DEFINITION. The state of LQ-FXCORE-1 as plain data (10_state.md; 20_memory.md R50, R56), the faults and
refusals of a step, and the state after block reset (70_reset_and_hazards.md R280).
Registers that are constants or windows on other state (ID, PARAM0 to PARAM3, ACC_LO, ACC_HI, CTX_INFO,
CTX_GAIN, DP_INFO, STATUS.BUSY) are not stored: Machine/HostPort.lean computes them on a read. -/

namespace Sys2Proof.Machine

/-- The codes of STATUS.LAST_ERR (60_exceptions.md R251). Codes 6 to 15 are never written (U13). -/
inductive ErrCode where
  | ok
  | illegal
  | misuse
  | config
  | resource
  | bounds
  deriving DecidableEq, Repr

/-- A complex sample: the words I and Q (20_memory.md R58). -/
structure IQ where
  i : Sample
  q : Sample
  deriving DecidableEq, Repr

/-- KIND of a context (10_state.md R31, R33). -/
inductive Kind where
  /-- Taps supplied by the host (INT_CREATE), read as 0. -/
  | taps
  /-- Kaiser design (INT_KAISER), read as 1. -/
  | kaiser
  deriving DecidableEq, Repr

/-- The interpolator object that a READY context holds (10_state.md R33). -/
structure Interp where
  /-- Interpolation factor M[c]. -/
  M : Nat
  /-- Sub-filter length L[c], also the history length. -/
  L : Nat
  /-- KIND[c]. -/
  kind : Kind
  /-- SUB[c][p][k]: tap k of phase p. -/
  sub : List (List Sample)
  /-- HIST[c][k], the newest sample first. -/
  hist : List IQ
  /-- The gain G[c] (44_scaler.md R230). -/
  gain : Sample
  deriving DecidableEq, Repr

/-- An interpolator context: CSTATE[c] and, when it is READY, the object it holds (10_state.md R33, R34).
DESIGN CHOICE (log entry 2), safe: the contents of a context that is not READY are unspecified and nothing
reads them (R33, U9), so they are not held. -/
inductive Context where
  | uninit
  | ready (o : Interp)
  | destroyed
  deriving DecidableEq, Repr

/-- The coefficient vector that a READY dot-product slot holds (10_state.md R35). -/
structure DotProduct where
  /-- The length DN[s]. -/
  n : Nat
  /-- The coefficients DH[s][i]. -/
  h : List Sample
  deriving DecidableEq, Repr

/-- A dot-product slot: DSTATE[s] and, when it is READY, the vector it holds (10_state.md R35, U10). -/
inductive Slot where
  | empty
  | ready (d : DotProduct)
  deriving DecidableEq, Repr

/-- Two like things with the indices 0 and 1: the contexts (N_CTX = 2) and the slots (N_DP = 2). -/
structure Bank (α : Type) where
  at0 : α
  at1 : α
  deriving DecidableEq, Repr

/-- DMEM as (word index, word) cells in canonical form (`Memory.wf`): indices strictly rising and below
DMEM_WORDS. A word that is not listed is unwritten (20_memory.md R56). The cell is the W-bit word, the smallest
unit anything in the block moves (R59; log entry 3). -/
abbrev Memory := List (Nat × Sample)

/-- What the outside does to the block next: a host access of R52, with its width in bits so that an access
without meaning (R54) can be written down, or the platform's reset input (70_reset_and_hazards.md R280). -/
inductive HostEvent where
  | read (offset : BitVec 17) (width : Nat)
  | write (offset : BitVec 17) (width : Nat) (data : Word32)
  | reset
  deriving DecidableEq, Repr

/-- The machine. -/
structure State where
  /-- ARG0 (10_state.md R21). -/
  arg0 : Word32
  /-- ARG1 (R21). -/
  arg1 : Word32
  /-- ARG2 (R21). -/
  arg2 : Word32
  /-- RES (R22). -/
  res : Word32
  /-- CTRL.ERR_IE (R25). -/
  errIe : Bool
  /-- CTRL.SAT_IE (R25). -/
  satIe : Bool
  /-- STATUS.LAST_ERR (R26). -/
  lastErr : ErrCode
  /-- STATUS.ERR, sticky (R27). -/
  err : Bool
  /-- STATUS.SAT, sticky (R27). -/
  sat : Bool
  /-- CMD, the last word written to it (R29). -/
  cmd : Word32
  /-- ACC (R30). -/
  acc : AccWord
  /-- The interpolator contexts (R33). -/
  ctx : Bank Context
  /-- The dot-product slots (R35). -/
  slots : Bank Slot
  /-- DMEM (R37). -/
  mem : Memory
  /-- MODEL's own: the host's accesses and resets still to come, oldest first, which 30_encoding.md R86 calls a
  program (log entry 1). -/
  pending : List HostEvent
  /-- MODEL's own: what the host's reads returned, newest first, the end state's record of R86 (log entry 1). -/
  reads : List Word32
  deriving DecidableEq, Repr

/-- Why a step stops with a fault. -/
inductive Fault where
  /-- A read of a DMEM word that nothing has written since reset, by the host or by a command's MemRead
  (20_memory.md R56). Raised by `readPort`, `Memory.readMany` and `Memory.readIQ`. Safe: the hardware returns some
  value there and the model claims nothing. -/
  | unwrittenDmem (index : Nat)
  deriving DecidableEq, Repr

/-- Why a step has no meaning. -/
inductive Refusal where
  /-- A command without a meaning; raised by no arm of this model. Safe. -/
  | notModelled (mnemonic : String)
  /-- A host access that is not 32 bits wide or not 4-byte aligned, which the spec tells a model to refuse
  (20_memory.md R54). Raised by `hostEvent`. Safe. -/
  | hostAccessShape
  deriving DecidableEq, Repr

/-- The machine right after block reset (70_reset_and_hazards.md R280), with no host access waiting. -/
def State.reset : State where
  arg0 := 0
  arg1 := 0
  arg2 := 0
  res := 0
  errIe := false
  satIe := false
  lastErr := .ok
  err := false
  sat := false
  cmd := 0
  acc := 0
  ctx := ⟨.uninit, .uninit⟩
  slots := ⟨.empty, .empty⟩
  mem := []
  pending := []
  reads := []

end Sys2Proof.Machine
end

