-- ==== Sys2Proof/Machine/Flags.lean ====
section
/-! DEFINITION. The arithmetic laws every command uses and the flag STATUS.SAT they raise
(00_scope.md R9; 40_fixedpoint.md R101 to R105; 44_scaler.md R232). Values are integers of unbounded width (R8);
a width applies only in `satN`. -/

namespace Sys2Proof.Machine

/-- A value that went through clamps, and whether one of them changed it (00_scope.md R9, `sat_N`). -/
structure Clamped where
  val : Int
  clipped : Bool
  deriving DecidableEq, Repr

/-- The arithmetic right shift `floor(v / 2^s)` (R9, R102). -/
def asr (v : Int) (s : Nat) : Int := v / 2 ^ s

/-- The least N-bit two's-complement value. -/
def satMin (n : Nat) : Int := -(2 ^ (n - 1))

/-- The greatest N-bit two's-complement value. -/
def satMax (n : Nat) : Int := 2 ^ (n - 1) - 1

/-- `sat_N(v)` (R9). -/
def satN (n : Nat) (v : Int) : Clamped :=
  if v < satMin n then ⟨satMin n, true⟩
  else if satMax n < v then ⟨satMax n, true⟩
  else ⟨v, false⟩

/-- Go on computing with a value, keeping the clamp flag. -/
def Clamped.andThen (c : Clamped) (f : Int → Clamped) : Clamped :=
  ⟨(f c.val).val, c.clipped || (f c.val).clipped⟩

/-- `narrow(v) = sat_W(asr(v, F))`, the one reduction (R104). -/
def narrow (v : Int) : Clamped := satN Config.W (asr v Config.F)

/-- Adding one product to an A-bit accumulator, `sat_A(s + p)` (R103). -/
def accumulate (s : Clamped) (p : Int) : Clamped := s.andThen fun v => satN Config.A (v + p)

/-- The scaled output `Scale(g, d) = narrow(g * d)` (44_scaler.md R232). -/
def scale (g d : Int) : Clamped := narrow (g * d)

/-- A W-bit word of a value in range. -/
def toSample (v : Int) : Sample := BitVec.ofInt 16 v

/-- A W-bit Q result as RES holds it, sign-extended to 32 bits (10_state.md R22). -/
def resWord (v : Int) : Word32 := (toSample v).signExtend 32

end Sys2Proof.Machine
end

