-- ==== Sys2Proof/Machine/Operands.lean ====
section
/-! DEFINITION. The three readings of an ARG register (30_encoding.md R77, R81) and the range check of a DMEM
operand (R79; 00_scope.md R9). -/

namespace Sys2Proof.Machine

/-- `UINT(ARGi)`: an unsigned integer below 2^32 (R77). -/
def uint (v : Word32) : Nat := v.toNat

/-- The word of `Q(ARGi)`: bits W-1:0 of the register, bits 31:W ignored (R77). -/
def qWord (v : Word32) : Sample := v.extractLsb' 0 16

/-- `Q(ARGi) = sext_W(ARGi)` (R77). -/
def qVal (v : Word32) : Int := (qWord v).toInt

/-- A binary32 value (R81). `finite neg mant exp` is `(-1)^neg * mant * 2^exp`. -/
inductive F32 where
  | nan
  | inf (neg : Bool)
  | finite (neg : Bool) (mant : Nat) (exp : Int)
  deriving DecidableEq, Repr

/-- `F32(v)`: the binary32 value of a pattern (R81): sign 31, exponent 30:23, fraction 22:0. A normal number is
`(2^23 + f) * 2^(e-150)`, zero and the subnormals are `f * 2^(-149)`. -/
def readF32 (v : Word32) : F32 :=
  let neg := v.getLsbD 31
  let e := (v.extractLsb' 23 8).toNat
  let f := (v.extractLsb' 0 23).toNat
  if e = 255 then (if f = 0 then .inf neg else .nan)
  else if e = 0 then .finite neg f (-149)
  else .finite neg (2 ^ 23 + f) ((e : Int) - 150)

/-- A finite value greater than 0: what INT_KAISER requires of As (42_designer.md R161). -/
def F32.isFinitePositive : F32 → Bool
  | .nan => false
  | .inf _ => false
  | .finite neg mant _ => !neg && 0 < mant

/-- `InRange(a, n)` over DMEM (00_scope.md R9; an index never wraps, R79). -/
def inRange (a n : Nat) : Bool := n = 0 || a + n ≤ Config.dmemWords

end Sys2Proof.Machine
end

