-- ==== Sys2Proof/Machine/Ops.lean ====
section
/-! DEFINITION. The named operations over registers, contexts, slots and DMEM, and how a command ends
(60_exceptions.md R250 to R254). The block has no traps: ending a command with an error code is `fail`, the one
shared operation for every error, and nothing needs to be returned from (R258). -/

namespace Sys2Proof.Machine

/-- What a command or a host access answers. -/
abbrev Result := Host.Outcome State Fault Refusal

/-! Contexts and slots -/

/-- The element with index `i`, none for an index that does not exist. -/
def Bank.get? {α : Type} (b : Bank α) : Nat → Option α
  | 0 => some b.at0
  | 1 => some b.at1
  | _ => none

/-- Replace the element with index `i`. -/
def Bank.set {α : Type} (b : Bank α) (i : Nat) (x : α) : Bank α :=
  match i with
  | 0 => { b with at0 := x }
  | 1 => { b with at1 := x }
  | _ => b

/-! DMEM (20_memory.md R50, R56; 00_scope.md R9) -/

/-- The word at index `a`, none if nothing has written it (R56). -/
def Memory.read : Memory → Nat → Option Sample
  | [], _ => none
  | (b, v) :: m, a => if a = b then some v else Memory.read m a

/-- Write the word at index `a`, keeping the cells in rising order. -/
def Memory.write : Memory → Nat → Sample → Memory
  | [], a, x => [(a, x)]
  | (b, v) :: m, a, x =>
    if a < b then (a, x) :: (b, v) :: m
    else if a = b then (a, x) :: m
    else (b, v) :: Memory.write m a x

/-- `MemRead(a, n)`: n words from index `a` up, or the first unwritten index (R9, R56). -/
def Memory.readMany (m : Memory) (a : Nat) : Nat → Except Nat (List Sample)
  | 0 => .ok []
  | n + 1 =>
    match m.read a with
    | none => .error a
    | some v =>
      match Memory.readMany m (a + 1) n with
      | .error i => .error i
      | .ok vs => .ok (v :: vs)

/-- `MemWrite(a, n, v)` for the list `v`, in ascending order (R9). -/
def Memory.writeMany (m : Memory) (a : Nat) : List Sample → Memory
  | [] => m
  | v :: vs => Memory.writeMany (m.write a v) (a + 1) vs

/-- `MemRead(a, 2)` as a complex sample, I at `a` and Q at `a + 1` (R58). -/
def Memory.readIQ (m : Memory) (a : Nat) : Except Nat IQ :=
  match m.read a with
  | none => .error a
  | some i =>
    match m.read (a + 1) with
    | none => .error (a + 1)
    | some q => .ok ⟨i, q⟩

/-- The cells are in strictly rising order, each above `lo` or equal to it. -/
def Memory.rising : Nat → Memory → Bool
  | _, [] => true
  | lo, (b, _) :: m => lo ≤ b && Memory.rising (b + 1) m

/-- The canonical form: indices strictly rising and below DMEM_WORDS. -/
def Memory.wf (m : Memory) : Bool := m.rising 0 && m.all fun c => c.1 < Config.dmemWords

/-! Registers -/

/-- Write RES (10_state.md R22). -/
def State.setRes (s : State) (v : Word32) : State := { s with res := v }

/-- Write ACC (10_state.md R30). -/
def State.setAcc (s : State) (v : AccWord) : State := { s with acc := v }

/-- Store the word written to CMD (10_state.md R29). -/
def State.setCmd (s : State) (v : Word32) : State := { s with cmd := v }

/-- Replace DMEM. -/
def State.setMem (s : State) (m : Memory) : State := { s with mem := m }

/-- Replace context `c`. -/
def State.setCtx (s : State) (c : Nat) (x : Context) : State := { s with ctx := s.ctx.set c x }

/-- Replace slot `k`. -/
def State.setSlot (s : State) (k : Nat) (x : Slot) : State := { s with slots := s.slots.set k x }

/-- Set STATUS.SAT if a value was clamped; nothing here clears it (10_state.md R27). -/
def State.noteSat (s : State) (clipped : Bool) : State := { s with sat := s.sat || clipped }

/-! The end of a command (60_exceptions.md R252) -/

/-- LAST_ERR takes the code, and ERR is set when it is not 0 (R252). -/
def State.finish (s : State) (code : ErrCode) : State :=
  { s with lastErr := code, err := s.err || code != .ok }

/-- The command raises the error `code`: it records the code and leaves no other effect (R254). -/
def fail (code : ErrCode) (s : State) : Result := .next (s.finish code)

/-- The command ends with success; SAT is set if it clamped a value (10_state.md R27; R256). -/
def succeed (clipped : Bool) (s : State) : Result := .next ((s.noteSat clipped).finish .ok)

/-- The code of the first check that fails, in the order written (R253). -/
def firstError : List (Bool × ErrCode) → Option ErrCode
  | [] => none
  | (bad, code) :: rest => if bad then some code else firstError rest

/-- All checks come before any effect (R253). -/
def guarded (checks : List (Bool × ErrCode)) (s : State) (k : Result) : Result :=
  match firstError checks with
  | some code => fail code s
  | none => k

/-- Go on with what a MemRead gives, or fault at the unwritten word (20_memory.md R56). -/
def orFault {α : Type} (r : Except Nat α) (k : α → Result) : Result :=
  match r with
  | .error i => .fault (.unwrittenDmem i)
  | .ok x => k x

/-- Go on with context IDX in any state. An index that does not exist is ILLEGAL (30_encoding.md R75); the
decoder lets none through. -/
def withCtx (c : BitVec 2) (s : State) (k : Context → Result) : Result :=
  match s.ctx.get? c.toNat with
  | none => fail .illegal s
  | some x => k x

/-- Go on with the object of context IDX, or MISUSE when it is not READY (R251). -/
def withReadyCtx (c : BitVec 2) (s : State) (k : Interp → Result) : Result :=
  withCtx c s fun x =>
    match x with
    | .ready o => k o
    | .uninit => fail .misuse s
    | .destroyed => fail .misuse s

/-- Go on with slot IDX in any state (30_encoding.md R75). -/
def withSlot (i : BitVec 2) (s : State) (k : Slot → Result) : Result :=
  match s.slots.get? i.toNat with
  | none => fail .illegal s
  | some x => k x

/-- Go on with the vector of slot IDX, or MISUSE when it is EMPTY (R251). -/
def withReadySlot (i : BitVec 2) (s : State) (k : DotProduct → Result) : Result :=
  withSlot i s fun x =>
    match x with
    | .ready d => k d
    | .empty => fail .misuse s

end Sys2Proof.Machine
end

