-- ==== Sys2Proof/Machine/DotProduct.lean ====
section
/-! DEFINITION. The dot-product kernel with its reference and unrolled paths, and the slot commands DP_LOAD,
DP_EXEC and DP_FREE (41_dotprod.md R130 to R142). The internal accumulator is transient (10_state.md R42). -/

namespace Sys2Proof.Machine

/-- The exact products `h[i] * x[i]` in index order (40_fixedpoint.md R101). -/
def products (h x : List Sample) : List Int := List.zipWith (fun a b => a.toInt * b.toInt) h x

/-- Straight-line accumulation: the loop of the reference path and the cleanup tail of the unrolled one
(R131, R132). -/
def sumRef : Clamped → List Int → Clamped
  | s, [] => s
  | s, p :: ps => sumRef (accumulate s p) ps

/-- The body unrolled four times: one round of the unrolled loop (R132). -/
def round4 (s : Clamped) : List Int → Clamped
  | p0 :: p1 :: p2 :: p3 :: _ => accumulate (accumulate (accumulate (accumulate s p0) p1) p2) p3
  | _ => s

/-- `rounds` rounds of the unrolled loop, then the cleanup tail on what is left (R132, R135). -/
def loop4 : (rounds : Nat) → Clamped → List Int → Clamped
  | 0, s, tail => sumRef s tail
  | k + 1, s, ps => loop4 k (round4 s ps) (ps.drop 4)

/-- The unrolled sum: n/4 rounds of four terms, then n mod 4 terms (R132, R135). -/
def sumRun4 (s : Clamped) (ps : List Int) : Clamped := loop4 (ps.length / 4) s ps

/-- The reference path "run" (R131). -/
def dotRef (h x : List Sample) : Clamped := (sumRef ⟨0, false⟩ (products h x)).andThen narrow

/-- The unrolled path "run4" (R132). -/
def dotRun4 (h x : List Sample) : Clamped := (sumRun4 ⟨0, false⟩ (products h x)).andThen narrow

/-- The checks of DP_LOAD (R140). -/
def dpLoadChecks (ha n : Nat) : List (Bool × ErrCode) :=
  [ (n == 0, .config),
    (Config.lMax < n, .resource),
    (!inRange ha n, .bounds) ]

/-- DP_LOAD (R140). -/
def execDpLoad (i : BitVec 2) (s : State) : Result :=
  withSlot i s fun _ =>
    let ha := uint s.arg0
    let n := uint s.arg1
    guarded (dpLoadChecks ha n) s <|
      orFault (s.mem.readMany ha n) fun v => succeed false (s.setSlot i.toNat (.ready ⟨n, v⟩))

/-- DP_EXEC (R141). -/
def execDpExec (u : Bool) (i : BitVec 2) (s : State) : Result :=
  withReadySlot i s fun d =>
    let xa := uint s.arg0
    guarded [(!inRange xa d.n, .bounds)] s <|
      orFault (s.mem.readMany xa d.n) fun x =>
        let r := if u then dotRun4 d.h x else dotRef d.h x
        succeed r.clipped (s.setRes (resWord r.val))

/-- DP_FREE (R142). -/
def execDpFree (i : BitVec 2) (s : State) : Result :=
  withReadySlot i s fun _ => succeed false (s.setSlot i.toNat .empty)

end Sys2Proof.Machine
end

