-- ==== Sys2Proof/Machine/Interp.lean ====
section
/-! DEFINITION. The polyphase interpolator bank: decomposition, BuildContext, Push and Step, and the commands
INT_CREATE, INT_RESET, INT_EXEC, INT_EXEC_BLOCK, INT_COPY and INT_DESTROY (43_interp.md R190 to R205). -/

namespace Sys2Proof.Machine

/-- SUB[p] of a master vector: the taps `H[p + k*M]`, `0 <= k < L` (R190). -/
def phaseTaps (M L : Nat) (taps : List Sample) (p : Nat) : List Sample :=
  (List.range L).map fun k => taps.getD (p + k * M) 0

/-- A history of L zero samples. -/
def zeroHist (L : Nat) : List IQ := List.replicate L ⟨0, 0⟩

/-- The gain 1.0, `2^F` (44_scaler.md R231). -/
def unitGain : Sample := toSample (2 ^ Config.F)

/-- BuildContext (R192): the object built from a master vector of `n = M*L` taps. -/
def buildInterp (M : Nat) (taps : List Sample) (kind : Kind) : Interp :=
  let L := taps.length / M
  { M := M
    L := L
    kind := kind
    sub := (List.range M).map (phaseTaps M L taps)
    hist := zeroHist L
    gain := unitGain }

/-- Push (R193): the newest sample in front, the oldest of L discarded. -/
def push (o : Interp) (x : IQ) : Interp := { o with hist := (x :: o.hist).take o.L }

/-- Sub-filter p against the history, once on the I parts and once on the Q parts, each scaled by the gain
(R191, R194; 44_scaler.md R232). -/
def phaseOutput (o : Interp) (p : Nat) : List Clamped :=
  [ (dotRef (o.sub.getD p []) (o.hist.map IQ.i)).andThen (scale o.gain.toInt),
    (dotRef (o.sub.getD p []) (o.hist.map IQ.q)).andThen (scale o.gain.toInt) ]

/-- The 2M outputs `y[0 .. 2*M)` of a Step, phase by phase (R194, R196). All phases read the one history (R195). -/
def phaseOutputs (o : Interp) : List Clamped := (List.range o.M).flatMap (phaseOutput o)

/-- What a run of Steps has done so far: the object, DMEM, and whether a value was clamped. -/
structure SampleRun where
  obj : Interp
  mem : Memory
  clipped : Bool
  deriving DecidableEq, Repr

/-- One input sample: read it at `xa`, Step, write the outputs at `ya` (R194, R202). The input is read before any
output is written. -/
def runSample (xa ya : Nat) (r : SampleRun) : Except Nat SampleRun :=
  match r.mem.readIQ xa with
  | .error i => .error i
  | .ok x =>
    let o := push r.obj x
    let y := phaseOutputs o
    .ok { obj := o
          mem := r.mem.writeMany ya (y.map fun c => toSample c.val)
          clipped := r.clipped || y.any Clamped.clipped }

/-- k input samples in order; sample j is read after the outputs of the samples before it are written (R203). -/
def runSamples (xa ya : Nat) : Nat → SampleRun → Except Nat SampleRun
  | 0, r => .ok r
  | k + 1, r =>
    match runSample xa ya r with
    | .error i => .error i
    | .ok r' => runSamples (xa + 2) (ya + 2 * r.obj.M) k r'

/-- The end of INT_EXEC and INT_EXEC_BLOCK: context c, DMEM and SAT as the run left them. -/
def finishRun (c : BitVec 2) (s : State) (r : SampleRun) : Result :=
  succeed r.clipped ((s.setMem r.mem).setCtx c.toNat (.ready r.obj))

/-- The checks of INT_CREATE (R200). -/
def intCreateChecks (M ha n : Nat) : List (Bool × ErrCode) :=
  [ (M == 0, .config),
    (n == 0, .config),
    (n % M != 0, .config),
    (Config.mMax < M, .resource),
    (Config.lMax < n / M, .resource),
    (Config.tapsMax < n, .resource),
    (!inRange ha n, .bounds) ]

/-- INT_CREATE (R200). -/
def execIntCreate (c : BitVec 2) (s : State) : Result :=
  withCtx c s fun _ =>
    let M := uint s.arg0
    let ha := uint s.arg1
    let n := uint s.arg2
    guarded (intCreateChecks M ha n) s <|
      orFault (s.mem.readMany ha n) fun taps =>
        succeed false (s.setCtx c.toNat (.ready (buildInterp M taps .taps)))

/-- INT_RESET (R201). -/
def execIntReset (c : BitVec 2) (s : State) : Result :=
  withReadyCtx c s fun o => succeed false (s.setCtx c.toNat (.ready { o with hist := zeroHist o.L }))

/-- INT_EXEC (R202). -/
def execIntExec (c : BitVec 2) (s : State) : Result :=
  withReadyCtx c s fun o =>
    let xa := uint s.arg0
    let ya := uint s.arg1
    guarded [(!inRange xa 2, .bounds), (!inRange ya (2 * o.M), .bounds)] s <|
      orFault (runSample xa ya ⟨o, s.mem, false⟩) (finishRun c s)

/-- INT_EXEC_BLOCK (R203). -/
def execIntExecBlock (c : BitVec 2) (s : State) : Result :=
  withReadyCtx c s fun o =>
    let xa := uint s.arg0
    let ya := uint s.arg1
    let k := uint s.arg2
    guarded [(!inRange xa (2 * k), .bounds), (!inRange ya (2 * o.M * k), .bounds)] s <|
      orFault (runSamples xa ya k ⟨o, s.mem, false⟩) (finishRun c s)

/-- INT_COPY (R204): a copy onto itself changes nothing. -/
def execIntCopy (c : BitVec 2) (s : State) : Result :=
  withReadyCtx c s fun o =>
    let d := uint s.arg0
    guarded [(Config.nCtx ≤ d, .config)] s <|
      succeed false (if d = c.toNat then s else s.setCtx d (.ready o))

/-- INT_DESTROY (R205). -/
def execIntDestroy (c : BitVec 2) (s : State) : Result :=
  withReadyCtx c s fun _ => succeed false (s.setCtx c.toNat .destroyed)

end Sys2Proof.Machine
end

