-- ==== Sys2Proof/Machine/Designer.lean ====
section
/-! DEFINITION. The Kaiser prototype designer and INT_KAISER (42_designer.md R160 to R166). The coefficient
function is the OPEN parameter KAISER_FN (R163); its reference design (R164, R165) is Safety/KaiserReference.lean,
on which nothing here rests. -/

namespace Sys2Proof.Machine

/-- `KAISER_FN(M, m, As)`: `2*m*M + 1` taps, symmetric about index `m*M` (R160, R163). -/
def kaiserFn (M m : Nat) (as : Word32) : List Sample :=
  (List.range (2 * m * M + 1)).map fun i => Config.kaiserTap M m as (min i (2 * m * M - i))

/-- The checks of INT_KAISER (R166); `2*m*M` is computed in unbounded integers. -/
def intKaiserChecks (M m : Nat) (as : Word32) : List (Bool × ErrCode) :=
  [ (M == 0, .config),
    (m == 0, .config),
    (!(readF32 as).isFinitePositive, .config),
    (Config.mMax < M, .resource),
    (Config.lMax < 2 * m, .resource),
    (Config.tapsMax < 2 * m * M, .resource) ]

/-- INT_KAISER (R166): the context holds the first `2*m*M` taps, the last one dropped (R162). -/
def execIntKaiser (c : BitVec 2) (s : State) : Result :=
  withCtx c s fun _ =>
    let M := uint s.arg0
    let m := uint s.arg1
    let as := s.arg2
    guarded (intKaiserChecks M m as) s <|
      succeed (Config.kaiserClamps M m as)
        (s.setCtx c.toNat (.ready (buildInterp M ((kaiserFn M m as).take (2 * m * M)) .kaiser)))

end Sys2Proof.Machine
end

