-- ==== Sys2Proof/Machine/Scalar.lean ====
section
/-! DEFINITION. The fixed-point scalar unit: NOP, FX_FROMF, FX_TOF, FX_MUL, MAC_CLR, MAC_ACC and MAC_RD
(40_fixedpoint.md R100, R107 to R115). -/

namespace Sys2Proof.Machine

/-- `floor(mant * 2^k + 1/2)`: rounding a magnitude to nearest, a tie upward (R107). -/
def roundMagnitude (mant : Nat) : Int → Nat
  | .ofNat k => mant * 2 ^ k
  | .negSucc j => (mant + 2 ^ j) / 2 ^ (j + 1)

/-- An integer from a sign and a magnitude. -/
def signed (neg : Bool) (mag : Nat) : Int := if neg then -(mag : Int) else mag

/-- `from_float(x)`: round to nearest, ties away from zero, then clamp; NaN gives 0 and sets SAT (R107). -/
def fromFloat : F32 → Clamped
  | .nan => ⟨0, true⟩
  | .inf neg => satN Config.W (signed neg (2 ^ Config.W))
  | .finite neg mant exp => satN Config.W (signed neg (roundMagnitude mant (exp + Config.F)))

/-- `to_float(q)`: the binary32 pattern of `q * 2^-F`, exact (R108). The leading bit of the magnitude stands at
`Nat.log2`; the bits below it, moved up to bit 22, are the fraction. -/
def toFloat (q : Int) : Word32 :=
  if q = 0 then 0
  else
    let mag := q.natAbs
    let top := Nat.log2 mag
    BitVec.ofBool (q < 0) ++ BitVec.ofNat 8 (top + 127 - Config.F) ++ BitVec.ofNat 23 ((mag - 2 ^ top) * 2 ^ (23 - top))

/-- NOP (R100). -/
def execNop (s : State) : Result := succeed false s

/-- FX_FROMF (R109). -/
def execFxFromf (s : State) : Result :=
  let r := fromFloat (readF32 s.arg0)
  succeed r.clipped (s.setRes (resWord r.val))

/-- FX_TOF (R110). -/
def execFxTof (s : State) : Result := succeed false (s.setRes (toFloat (qVal s.arg0)))

/-- FX_MUL (R112). -/
def execFxMul (s : State) : Result :=
  let r := narrow (qVal s.arg0 * qVal s.arg1)
  succeed r.clipped (s.setRes (resWord r.val))

/-- MAC_CLR (R113). -/
def execMacClr (s : State) : Result := succeed false (s.setAcc 0)

/-- MAC_ACC (R114). -/
def execMacAcc (s : State) : Result :=
  let r := accumulate ⟨s.acc.toInt, false⟩ (qVal s.arg0 * qVal s.arg1)
  succeed r.clipped (s.setAcc (BitVec.ofInt 40 r.val))

/-- MAC_RD (R115). -/
def execMacRd (s : State) : Result :=
  let r := narrow s.acc.toInt
  succeed r.clipped (s.setRes (resWord r.val))

end Sys2Proof.Machine
end

