-- ==== Sys2Proof/Machine/Scaler.lean ====
section
/-! DEFINITION. The output scaler's command INT_SET_SCALE (44_scaler.md R233). The scaling function is `scale` in
Flags.lean, the gain's value at creation `unitGain` in Interp.lean, its read-back `ctxGainWord` in HostPort.lean. -/

namespace Sys2Proof.Machine

/-- INT_SET_SCALE (R233). -/
def execIntSetScale (c : BitVec 2) (s : State) : Result :=
  withReadyCtx c s fun o => succeed false (s.setCtx c.toNat (.ready { o with gain := qWord s.arg0 }))

end Sys2Proof.Machine
end

