-- ==== Sys2Proof/Machine/Dispatch.lean ====
section
/-! DEFINITION. The meaning of every command, one arm per constructor of Instr. -/

namespace Sys2Proof.Machine

def exec (i : Instr) (s : State) : Host.Outcome State Fault Refusal :=
  match i with
  | .nop => Sys2Proof.Machine.execNop s
  | .fxFromf => Sys2Proof.Machine.execFxFromf s
  | .fxTof => Sys2Proof.Machine.execFxTof s
  | .fxMul => Sys2Proof.Machine.execFxMul s
  | .macClr => Sys2Proof.Machine.execMacClr s
  | .macAcc => Sys2Proof.Machine.execMacAcc s
  | .macRd => Sys2Proof.Machine.execMacRd s
  | .dpLoad k => Sys2Proof.Machine.execDpLoad k s
  | .dpExec u k => Sys2Proof.Machine.execDpExec u k s
  | .dpFree k => Sys2Proof.Machine.execDpFree k s
  | .intCreate c => Sys2Proof.Machine.execIntCreate c s
  | .intKaiser c => Sys2Proof.Machine.execIntKaiser c s
  | .intReset c => Sys2Proof.Machine.execIntReset c s
  | .intExec c => Sys2Proof.Machine.execIntExec c s
  | .intExecBlock c => Sys2Proof.Machine.execIntExecBlock c s
  | .intSetScale c => Sys2Proof.Machine.execIntSetScale c s
  | .intCopy c => Sys2Proof.Machine.execIntCopy c s
  | .intDestroy c => Sys2Proof.Machine.execIntDestroy c s

end Sys2Proof.Machine
end

