-- ==== Sys2Proof/Machine/HostPort.lean ====
section
/-! DEFINITION. The host's side of the block: the register window (10_state.md R21 to R41), the DMEM window
(20_memory.md R53), issuing a command (30_encoding.md R70), the reset input (70_reset_and_hazards.md R280) and the
interrupt output (10_state.md R40). -/

namespace Sys2Proof.Machine

/-! Register contents as the host reads them -/

/-- The number of an error code (60_exceptions.md R251). -/
def ErrCode.toBits : ErrCode → BitVec 4
  | .ok => 0
  | .illegal => 1
  | .misuse => 2
  | .config => 3
  | .resource => 4
  | .bounds => 5

/-- PARAM0: W, F, A (10_state.md R24). -/
def param0Word : Word32 := 0#8 ++ BitVec.ofNat 8 Config.A ++ BitVec.ofNat 8 Config.F ++ BitVec.ofNat 8 Config.W

/-- PARAM1: M_MAX, L_MAX (R24). -/
def param1Word : Word32 := BitVec.ofNat 16 Config.lMax ++ 0#8 ++ BitVec.ofNat 8 Config.mMax

/-- PARAM2: TAPS_MAX, N_CTX, N_DP (R24). -/
def param2Word : Word32 :=
  0#8 ++ BitVec.ofNat 4 Config.nDp ++ BitVec.ofNat 4 Config.nCtx ++ BitVec.ofNat 16 Config.tapsMax

/-- PARAM3: DMEM_WORDS (R24). -/
def param3Word : Word32 := 0#16 ++ BitVec.ofNat 16 Config.dmemWords

/-- CTRL (R25). -/
def ctrlWord (s : State) : Word32 := 0#30 ++ BitVec.ofBool s.satIe ++ BitVec.ofBool s.errIe

/-- STATUS (R26 to R28): BUSY, bit 16, and every reserved bit read 0. -/
def statusWord (s : State) : Word32 :=
  0#22 ++ BitVec.ofBool s.sat ++ BitVec.ofBool s.err ++ 0#4 ++ s.lastErr.toBits

/-- ACC_LO (R30). -/
def accLoWord (s : State) : Word32 := s.acc.extractLsb' 0 32

/-- ACC_HI (R30). -/
def accHiWord (s : State) : Word32 := (s.acc.extractLsb' 32 8).signExtend 32

/-- KIND as CTX_INFO shows it (R31). -/
def Kind.toBit : Kind → BitVec 1
  | .taps => 0
  | .kaiser => 1

/-- CTX_INFO of a context (R31). -/
def ctxInfoWord : Context → Word32
  | .uninit => 0
  | .destroyed => 2
  | .ready o => BitVec.ofNat 16 o.L ++ BitVec.ofNat 8 o.M ++ 0#5 ++ o.kind.toBit ++ 1#2

/-- CTX_GAIN of a context (R32). -/
def ctxGainWord : Context → Word32
  | .uninit => 0
  | .destroyed => 0
  | .ready o => o.gain.signExtend 32

/-- DP_INFO of a slot (R36). -/
def dpInfoWord : Slot → Word32
  | .empty => 0
  | .ready d => BitVec.ofNat 16 d.n ++ 0#15 ++ 1#1

/-- The interrupt output (R40; 60_exceptions.md R260). -/
def irq (s : State) : Bool := (s.err && s.errIe) || (s.sat && s.satIe)

/-! The address map -/

/-- What a word-aligned offset of the host window names (10_state.md R41; 20_memory.md R50). -/
inductive Port where
  | id
  | param0
  | param1
  | param2
  | param3
  | ctrl
  | status
  | cmd
  | arg0
  | arg1
  | arg2
  | accLo
  | accHi
  | res
  | ctxInfo (c : Nat)
  | ctxGain (c : Nat)
  | dpInfo (k : Nat)
  | dmem (i : Nat)
  | reserved
  deriving DecidableEq, Repr

/-- The registers at fixed offsets (R41). -/
def fixedPorts : List (Nat × Port) :=
  [ (0x000, .id), (0x004, .param0), (0x008, .param1), (0x00C, .param2), (0x010, .param3),
    (0x014, .ctrl), (0x018, .status), (0x01C, .cmd), (0x020, .arg0), (0x024, .arg1), (0x028, .arg2),
    (0x034, .accLo), (0x038, .accHi), (0x03C, .res) ]

/-- The two registers of a context block of 0x10 bytes (R31, R32). -/
def ctxPort (c r : Nat) : Port := if r = 0 then .ctxInfo c else if r = 4 then .ctxGain c else .reserved

/-- The one register of a slot block of 0x10 bytes (R36). -/
def slotPort (k r : Nat) : Port := if r = 0 then .dpInfo k else .reserved

/-- The register window, offsets 0x000 to 0xFFF (R41). -/
def registerPort (o : Nat) : Port :=
  if 0x100 ≤ o ∧ o < 0x100 + 0x10 * Config.nCtx then ctxPort ((o - 0x100) / 0x10) ((o - 0x100) % 0x10)
  else if 0x180 ≤ o ∧ o < 0x180 + 0x10 * Config.nDp then slotPort ((o - 0x180) / 0x10) ((o - 0x180) % 0x10)
  else (fixedPorts.lookup o).getD .reserved

/-- The host window (20_memory.md R50, R53, R55). -/
def portOf (offset : BitVec 17) : Port :=
  let o := offset.toNat
  if o < 0x1000 then registerPort o
  else if o < 0x1000 + 4 * Config.dmemWords then .dmem ((o - 0x1000) / 4)
  else .reserved

/-! Accesses -/

/-- A context's register, 0 for a context that does not exist (R41). -/
def readCtx (s : State) (c : Nat) (f : Context → Word32) : Word32 := ((s.ctx.get? c).map f).getD 0

/-- A slot's register, 0 for a slot that does not exist (R41). -/
def readSlot (s : State) (k : Nat) : Word32 := ((s.slots.get? k).map dpInfoWord).getD 0

/-- What a host read of a port returns, or the index of the unwritten DMEM word it names (20_memory.md R56). -/
def readPort (s : State) : Port → Except Nat Word32
  | .id => .ok Config.idWord
  | .param0 => .ok param0Word
  | .param1 => .ok param1Word
  | .param2 => .ok param2Word
  | .param3 => .ok param3Word
  | .ctrl => .ok (ctrlWord s)
  | .status => .ok (statusWord s)
  | .cmd => .ok s.cmd
  | .arg0 => .ok s.arg0
  | .arg1 => .ok s.arg1
  | .arg2 => .ok s.arg2
  | .accLo => .ok (accLoWord s)
  | .accHi => .ok (accHiWord s)
  | .res => .ok s.res
  | .ctxInfo c => .ok (readCtx s c ctxInfoWord)
  | .ctxGain c => .ok (readCtx s c ctxGainWord)
  | .dpInfo k => .ok (readSlot s k)
  | .dmem i =>
    match s.mem.read i with
    | some v => .ok (v.signExtend 32)
    | none => .error i
  | .reserved => .ok 0

/-- Issue (30_encoding.md R70): store the word in CMD, decode it, and execute the command or end with ILLEGAL. -/
def issue (v : Word32) (s : State) : Result :=
  match decode v with
  | .ok i => exec i (s.setCmd v)
  | .error _ => fail .illegal (s.setCmd v)

/-- CTRL takes its two enable bits; bits 31:2 are ignored (10_state.md R25). -/
def State.writeCtrl (s : State) (v : Word32) : State := { s with errIe := v.getLsbD 0, satIe := v.getLsbD 1 }

/-- A 1 in bit 8 clears ERR, a 1 in bit 9 clears SAT; every other bit is ignored (10_state.md R26 to R28). -/
def State.writeStatus (s : State) (v : Word32) : State :=
  { s with err := s.err && !v.getLsbD 8, sat := s.sat && !v.getLsbD 9 }

/-- Write ARG0 (R21). -/
def State.setArg0 (s : State) (v : Word32) : State := { s with arg0 := v }

/-- Write ARG1 (R21). -/
def State.setArg1 (s : State) (v : Word32) : State := { s with arg1 := v }

/-- Write ARG2 (R21). -/
def State.setArg2 (s : State) (v : Word32) : State := { s with arg2 := v }

/-- A host write of a port. A write to a read-only register or a reserved offset is ignored (R22 to R41, U23). -/
def writePort (s : State) (v : Word32) : Port → Result
  | .cmd => issue v s
  | .ctrl => .next (s.writeCtrl v)
  | .status => .next (s.writeStatus v)
  | .arg0 => .next (s.setArg0 v)
  | .arg1 => .next (s.setArg1 v)
  | .arg2 => .next (s.setArg2 v)
  | .dmem i => .next (s.setMem (s.mem.write i (qWord v)))
  | .id => .next s
  | .param0 => .next s
  | .param1 => .next s
  | .param2 => .next s
  | .param3 => .next s
  | .accLo => .next s
  | .accHi => .next s
  | .res => .next s
  | .ctxInfo _ => .next s
  | .ctxGain _ => .next s
  | .dpInfo _ => .next s
  | .reserved => .next s

/-- The accesses that have meaning: 32 bits wide at a multiple of 4 (20_memory.md R52, R54). -/
def accessOk (offset : BitVec 17) (width : Nat) : Bool := width == 32 && offset.toNat % 4 == 0

/-- Record what a host read returned (30_encoding.md R86). -/
def State.record (s : State) (v : Word32) : State := { s with reads := v :: s.reads }

/-- Block reset (70_reset_and_hazards.md R280). The host's side, its accesses to come and what it has read, is no
state of the block and stays. -/
def State.blockReset (s : State) : State := { State.reset with pending := s.pending, reads := s.reads }

/-- Replace the host's accesses to come. -/
def State.setPending (s : State) (es : List HostEvent) : State := { s with pending := es }

/-- One host access, or one reset (20_memory.md R52, R54, R60; R280). -/
def hostEvent (e : HostEvent) (s : State) : Result :=
  match e with
  | .read offset width =>
    if accessOk offset width then orFault (readPort s (portOf offset)) fun v => .next (s.record v)
    else .refused .hostAccessShape
  | .write offset width data =>
    if accessOk offset width then writePort s data (portOf offset) else .refused .hostAccessShape
  | .reset => .next s.blockReset

/-- The next thing the host does; with nothing left to do the block waits, unchanged (70 R281). -/
def hostStep (s : State) : Result :=
  match s.pending with
  | [] => .next s
  | e :: es => hostEvent e (s.setPending es)

/-- The offset of CMD (10_state.md R29). -/
def cmdOffset : BitVec 17 := 0x01C

/-- The host access that issues a command word. -/
def issueEvent (v : Word32) : HostEvent := .write cmdOffset 32 v

end Sys2Proof.Machine
end

