-- ==== Sys2Proof/Machine/Step.lean ====
section
/-! DEFINITION. One step: the host's next access, or a reset, from beginning to end (20_memory.md R60). The block
fetches nothing (10_state.md R38): a command runs when the host writes CMD. -/

namespace Sys2Proof.Machine

/-- One step of the block and its host. -/
def step (s : State) : Host.Outcome State Fault Refusal := hostStep s

/-- `s` with the host's next access a write of that command word to CMD, so that the next step runs it
(log entry 7). -/
def State.withFetchWord (s : State) (nbits w : Nat) : State :=
  s.setPending (issueEvent (tableWord nbits w) :: s.pending)

end Sys2Proof.Machine
end

