-- ==== Sys2Proof/Safety.lean ====
section
/-! DEFINITION. The terms statements are made in: the invariant of the block, what counts as a safe and as a clean
run (60_exceptions.md R259), and plain-integer and rational readings of the spec's arithmetic that do not go
through the model's own operations (00_scope.md R8; 30_encoding.md R81). No step uses anything here. -/

namespace Sys2Proof.Machine

/-! The invariant -/

/-- A READY slot: `1 <= DN <= L_MAX`, and DH has DN coefficients (10_state.md R35). -/
def DotProduct.wf (d : DotProduct) : Bool := 1 ≤ d.n && d.n ≤ Config.lMax && d.h.length == d.n

/-- A READY context: `1 <= M <= M_MAX`, `1 <= L <= L_MAX`, `M*L <= TAPS_MAX`, M sub-filters of L taps and a
history of L samples (10_state.md R33). -/
def Interp.wf (o : Interp) : Bool :=
  1 ≤ o.M && o.M ≤ Config.mMax && 1 ≤ o.L && o.L ≤ Config.lMax && o.M * o.L ≤ Config.tapsMax &&
    o.sub.length == o.M && o.sub.all (fun row => row.length == o.L) && o.hist.length == o.L

/-- A slot's object, if any, is well formed. -/
def Slot.wf : Slot → Bool
  | .empty => true
  | .ready d => d.wf

/-- A context's object, if any, is well formed. -/
def Context.wf : Context → Bool
  | .uninit => true
  | .destroyed => true
  | .ready o => o.wf

/-- The invariant of the block: DMEM is canonical, every object is well formed (R33, R35; 20_memory.md R50). -/
def State.inv (s : State) : Bool :=
  s.mem.wf && s.ctx.at0.wf && s.ctx.at1.wf && s.slots.at0.wf && s.slots.at1.wf

/-! Runs -/

/-- k steps of the machine. -/
def run (k : Nat) (s : State) : Result := core.run k s

/-- A run that meets no fault and no refusal: no unwritten DMEM word is read (20_memory.md R56) and every host
access has meaning (R54). -/
def SafeRun (k : Nat) (s : State) : Prop := ∃ t, run k s = .next t

/-- A safe run on which no command recorded an error: the premise R259 asks of a claim about a program. -/
def CleanRun (k : Nat) (s : State) : Prop := ∀ j ≤ k, ∃ t, run j s = .next t ∧ t.lastErr = .ok

/-- A change of the state carried through an answer. -/
def mapNext (f : State → State) : Result → Result
  | .next t => .next (f t)
  | .fault e => .fault e
  | .refused e => .refused e

/-- The sequence of R206: for j = 0 to k-1, `ARG0 <- xa + 2j; ARG1 <- ya + 2*M*j;` INT_EXEC c. -/
def execEach (c : BitVec 2) (M : Nat) : (xa ya k : Nat) → State → Result
  | _, _, 0, s => .next s
  | xa, ya, k + 1, s =>
    match exec (.intExec c) ((s.setArg0 (BitVec.ofNat 32 xa)).setArg1 (BitVec.ofNat 32 ya)) with
    | .next t => execEach c M (xa + 2) (ya + 2 * M) k t
    | .fault e => .fault e
    | .refused e => .refused e

/-! The spec's arithmetic in plain integers -/

/-- The clamp to the W-bit range (00_scope.md R9). -/
def clamp16 (v : Int) : Int := max (-32768) (min 32767 v)

/-- Outside the W-bit range. -/
def outside16 (v : Int) : Bool := v < -32768 || 32767 < v

/-- The exact sum of products (41_dotprod.md R130). -/
def dotSum (h x : List Sample) : Int := (List.zipWith (fun a b => a.toInt * b.toInt) h x).sum

/-- One interpolator output: the sub-filter's dot product shifted by F and clamped, then scaled by the gain,
shifted by F and clamped (43_interp.md R194; 44_scaler.md R232). -/
def outputValue (g : Int) (h x : List Sample) : Int := clamp16 (g * clamp16 (dotSum h x / 4096) / 4096)

/-- Whether one of the two clamps of an interpolator output changes a value. -/
def outputClips (g : Int) (h x : List Sample) : Bool :=
  outside16 (dotSum h x / 4096) || outside16 (g * clamp16 (dotSum h x / 4096) / 4096)

/-- Bits 15:0 of a host word read as a signed number: `Q(v)` (30_encoding.md R77). -/
def low16 (v : Word32) : Int := (BitVec.ofNat 16 v.toNat).toInt

/-- The real number a binary32 value stands for, none for NaN and the infinities (30_encoding.md R81). -/
def F32.value : F32 → Option ℚ
  | .nan => none
  | .inf _ => none
  | .finite neg mant exp => some ((if neg then -1 else 1) * (mant : ℚ) * (2 : ℚ) ^ exp)

end Sys2Proof.Machine
end

