-- ==== Sys2Proof/Safety/KaiserReference.lean ====
section
/-! DEFINITION. The reference Kaiser design in real arithmetic and its quantization (42_designer.md R164, R165).
It is no part of the machine: KAISER_FN is free (R163), and a claim that needs the reference taps takes
`KaiserFnIsReference` as a named premise. -/

namespace Sys2Proof.Machine.Reference

open Real

/-- `sinc(u)` (R164). -/
noncomputable def sinc (u : ℝ) : ℝ := if u = 0 then 1 else sin (π * u) / (π * u)

/-- `I0(z) = sum_{k>=0} ((z/2)^k / k!)^2` (R164). -/
noncomputable def besselI0 (z : ℝ) : ℝ := ∑' k : ℕ, ((z / 2) ^ k / (k.factorial : ℝ)) ^ 2

/-- `beta(As)` (R164). -/
noncomputable def beta (as : ℝ) : ℝ :=
  if 50 < as then 0.1102 * (as - 8.7)
  else if 21 < as then 0.5842 * (as - 21) ^ (0.4 : ℝ) + 0.07886 * (as - 21)
  else 0

/-- `t(i) = i - m*M`, the offset from the centre (R164). -/
noncomputable def offset (M m i : ℕ) : ℝ := (i : ℝ) - (m : ℝ) * (M : ℝ)

/-- The window `w(i)` (R164). -/
noncomputable def window (M m : ℕ) (as : ℝ) (i : ℕ) : ℝ :=
  besselI0 (beta as * √(1 - (offset M m i / ((m : ℝ) * (M : ℝ))) ^ 2)) / besselI0 (beta as)

/-- The real tap `hd(i)` (R164). -/
noncomputable def tap (M m : ℕ) (as : ℝ) (i : ℕ) : ℝ := sinc (offset M m i / (M : ℝ)) * window M m as i

/-- `sign(r) * floor(|r| + 1/2)` with `r = x * 2^F` (R165, 40_fixedpoint.md R107). -/
noncomputable def quantizeInt (x : ℝ) : ℤ :=
  if x < 0 then -⌊|x * 2 ^ Config.F| + 1 / 2⌋ else ⌊|x * 2 ^ Config.F| + 1 / 2⌋

/-- The quantized tap `q(i)`, with its clamp (R165). -/
noncomputable def quantize (x : ℝ) : Clamped := satN Config.W (quantizeInt x)

/-- The reference taps `[q(0), ..., q(2*m*M)]` (R165). -/
noncomputable def taps (M m : ℕ) (as : ℝ) : List Sample :=
  (List.range (2 * m * M + 1)).map fun i => toSample (quantize (tap M m as i)).val

/-- The real number of a finite binary32 value (30_encoding.md R81). -/
noncomputable def realValue : F32 → ℝ
  | .nan => 0
  | .inf _ => 0
  | .finite neg mant exp => (if neg then -1 else 1) * (mant : ℝ) * (2 : ℝ) ^ exp

/-- The premise "KAISER_FN = reference" (R163): on every design INT_KAISER accepts, the taps are the reference
taps and none is clamped (R167). -/
def KaiserFnIsReference : Prop :=
  ∀ (M m : ℕ) (as : Word32), 1 ≤ M → 1 ≤ m → (readF32 as).isFinitePositive = true →
    kaiserFn M m as = taps M m (realValue (readF32 as)) ∧ Config.kaiserClamps M m as = false

end Sys2Proof.Machine.Reference
end

