-- ==== Sys2Proof/Certificates/Slice0/Obligations.lean ====
section
/-! DEFINITION. The statements for the provers. Each docstring names the rules of spec/ it formalises. -/

open Sys2Proof Sys2Proof.Machine

/-! ## Encoding and issue -/

/-- The decoder and the encoder are inverse, word by word: a 32-bit word decodes to `i` exactly when `i` is well
formed and the word is its encoding. So no bit of a command word is dropped and no reserved encoding falls through
to a neighbour (30_encoding.md R71 to R75, R82 to R84, R87). -/
def Obligations.DecodeExactlyInvertsEncode : Prop :=
  ∀ (v : Word32) (i : Instr), decode v = .ok i ↔ i.wellFormed = true ∧ encode i = v

/-- Words of 30_encoding.md R87 and of 95_test_vectors.md section 2.10 decode as the spec says (R73, R74). -/
def Obligations.DecodeReadsTheSpecsWords : Prop :=
  decode 0x00000000 = .ok .nop ∧ decode 0x01000000 = .ok .fxFromf ∧ decode 0x05000000 = .ok .macAcc ∧
  decode 0x10000001 = .ok (.dpLoad 1) ∧ decode 0x11000001 = .ok (.dpExec false 1) ∧
  decode 0x11000101 = .ok (.dpExec true 1) ∧ decode 0x12000000 = .ok (.dpFree 0) ∧
  decode 0x20000001 = .ok (.intCreate 1) ∧ decode 0x21000000 = .ok (.intKaiser 0) ∧
  decode 0x24000000 = .ok (.intExec 0) ∧ decode 0x26000001 = .ok (.intSetScale 1) ∧
  decode 0x28000001 = .ok (.intDestroy 1) ∧
  decode 0x00800000 = .error .reservedBits ∧ decode 0x11000200 = .error .reservedBits ∧
  decode 0x22000001 = .error .reservedOpcode ∧ decode 0x29000000 = .error .unassignedOpcode ∧
  decode 0x24000002 = .error .indexOutOfRange

/-- A step at a host write of CMD runs exactly the decoded command, on the state with the word stored in CMD and
the access taken off the host's list, which is the model's (log entry 1) (30_encoding.md R70; 10_state.md R29). -/
def Obligations.StepRunsTheIssuedCommand : Prop :=
  ∀ (s : State) (v : Word32) (i : Instr) (es : List HostEvent),
    s.pending = .write 0x01C 32 v :: es → decode v = .ok i →
    step s = exec i { s with cmd := v, pending := es }

/-- A word whose opcode is unassigned, or the reserved 0x22, raises ILLEGAL and has no other effect than CMD,
LAST_ERR and ERR (30_encoding.md R83, R84). -/
def Obligations.UnassignedOpcodesAreIllegal : Prop :=
  ∀ (s : State) (v : Word32) (es : List HostEvent), s.pending = .write 0x01C 32 v :: es →
    (0x07 ≤ v.toNat / 2 ^ 24 ∧ v.toNat / 2 ^ 24 ≤ 0x0F ∨ 0x13 ≤ v.toNat / 2 ^ 24 ∧ v.toNat / 2 ^ 24 ≤ 0x1F ∨
      0x29 ≤ v.toNat / 2 ^ 24 ∨ v.toNat / 2 ^ 24 = 0x22) →
    (∀ i, decode v ≠ .ok i) ∧
    step s = .next { s with cmd := v, pending := es, lastErr := .illegal, err := true }

/-- A word of an assigned opcode with a bit set that its format requires to be 0 raises ILLEGAL and has no other
effect: bits 23:0 of C0, bits 23:2 of CI, bits 23:9 and 7:2 of CIU (30_encoding.md R72, R82). -/
def Obligations.ReservedBitsAreIllegal : Prop :=
  ∀ (s : State) (v : Word32) (es : List HostEvent), s.pending = .write 0x01C 32 v :: es →
    (v.toNat / 2 ^ 24 ≤ 0x06 ∧ v.toNat % 2 ^ 24 ≠ 0 ∨
      v.toNat / 2 ^ 24 ∈ [0x10, 0x12, 0x20, 0x21, 0x23, 0x24, 0x25, 0x26, 0x27, 0x28] ∧ v.toNat % 2 ^ 24 / 4 ≠ 0 ∨
      v.toNat / 2 ^ 24 = 0x11 ∧ (v.toNat % 2 ^ 24 / 2 ^ 9 ≠ 0 ∨ v.toNat % 2 ^ 8 / 4 ≠ 0)) →
    (∀ i, decode v ≠ .ok i) ∧
    step s = .next { s with cmd := v, pending := es, lastErr := .illegal, err := true }

/-- An index at or above N_DP = N_CTX = 2 is ILLEGAL at issue (30_encoding.md R74, R75). -/
def Obligations.IndexOutOfRangeIsIllegal : Prop :=
  ∀ (s : State) (v : Word32) (es : List HostEvent), s.pending = .write 0x01C 32 v :: es →
    v.toNat / 2 ^ 24 ∈ [0x10, 0x11, 0x12, 0x20, 0x21, 0x23, 0x24, 0x25, 0x26, 0x27, 0x28] → 2 ≤ v.toNat % 4 →
    (∀ i, decode v ≠ .ok i) ∧
    step s = .next { s with cmd := v, pending := es, lastErr := .illegal, err := true }

/-- The model's choice (log entry 11): a command given directly to exec with an index that does not exist ends as its
word does, with ILLEGAL and no other effect. No step gets there. -/
def Obligations.IllFormedCommandsEndIllegal : Prop :=
  ∀ (i : Instr) (s : State), i.wellFormed = false → exec i s = .next { s with lastErr := .illegal, err := true }

/-! ## The scalar unit -/

/-- NOP, word 0x00000000, clears LAST_ERR and changes nothing else (40_fixedpoint.md R100; 30_encoding.md R85). -/
def Obligations.NopOnlyClearsLastErr : Prop :=
  decode 0x00000000 = .ok .nop ∧ ∀ s : State, exec .nop s = .next { s with lastErr := .ok }

/-- The binary32 reading of a pattern: normal numbers, zero and subnormals by their formulas, infinities and NaN by
their fields (30_encoding.md R81). -/
def Obligations.Binary32PatternsReadAsSpecified : Prop :=
  ∀ v : Word32,
    let neg : Bool := decide (2 ^ 31 ≤ v.toNat)
    let sign : ℚ := if neg then -1 else 1
    let e : Nat := v.toNat / 2 ^ 23 % 2 ^ 8
    let f : Nat := v.toNat % 2 ^ 23
    (0 < e → e < 255 → (readF32 v).value = some (sign * (1 + (f : ℚ) / 2 ^ 23) * (2 : ℚ) ^ ((e : Int) - 127))) ∧
    (e = 0 → (readF32 v).value = some (sign * ((f : ℚ) / 2 ^ 23) * (2 : ℚ) ^ (-126 : Int))) ∧
    (e = 255 → f = 0 → readF32 v = .inf neg) ∧
    (e = 255 → f ≠ 0 → readF32 v = .nan)

/-- FX_FROMF, word 0x01000000: NaN gives 0 and sets SAT, the infinities clamp, and a finite value `x` gives
`sign(r) * floor(|r| + 1/2)` with `r = x * 2^12`, clamped to 16 bits, SAT set when the clamp changes it; ERR and
everything else are unchanged (40_fixedpoint.md R107, R109). -/
def Obligations.FromFloatRoundsAndSaturates : Prop :=
  decode 0x01000000 = .ok .fxFromf ∧ ∀ s : State,
    (readF32 s.arg0 = .nan → exec .fxFromf s = .next { s with res := 0, sat := true, lastErr := .ok }) ∧
    (readF32 s.arg0 = .inf false → exec .fxFromf s = .next { s with res := 0x00007FFF, sat := true, lastErr := .ok }) ∧
    (readF32 s.arg0 = .inf true → exec .fxFromf s = .next { s with res := 0xFFFF8000, sat := true, lastErr := .ok }) ∧
    (∀ x : ℚ, (readF32 s.arg0).value = some x →
      let r := x * 2 ^ 12
      let n : Int := if r < 0 then -⌊|r| + 1 / 2⌋ else ⌊|r| + 1 / 2⌋
      exec .fxFromf s =
        .next { s with res := BitVec.ofInt 32 (clamp16 n), sat := s.sat || outside16 n, lastErr := .ok })

/-- FX_TOF, word 0x02000000, is exact: RES is a binary32 pattern of the value `q * 2^-12`, +0.0 for q = 0 and a normal number
otherwise; no flag is set (40_fixedpoint.md R108, R110). -/
def Obligations.ToFloatIsExact : Prop :=
  decode 0x02000000 = .ok .fxTof ∧ ∀ s : State, ∃ w : Word32, exec .fxTof s = .next { s with res := w, lastErr := .ok } ∧
    (readF32 w).value = some ((low16 s.arg0 : ℚ) / 4096) ∧
    (low16 s.arg0 = 0 → w = 0) ∧
    (low16 s.arg0 ≠ 0 → 0 < w.toNat / 2 ^ 23 % 2 ^ 8 ∧ w.toNat / 2 ^ 23 % 2 ^ 8 < 255)

/-- The round-trip law `from_float(to_float(from_float(x))) = from_float(x)` for every binary32 pattern x, through
the commands and RES (40_fixedpoint.md R111). -/
def Obligations.FixedFloatRoundTrip : Prop :=
  ∀ s t1 t2 t3 : State, exec .fxFromf s = .next t1 → exec .fxTof { t1 with arg0 := t1.res } = .next t2 →
    exec .fxFromf { t2 with arg0 := t2.res } = .next t3 → t3.res = t1.res ∧ t3.sat = t1.sat

/-- FX_MUL, word 0x03000000: the exact product, shifted by a floor and clamped; SAT exactly when `a*b >= 2^27` or `a*b < -2^27`;
nothing else changes (40_fixedpoint.md R112, R101, R102, R104). -/
def Obligations.MulNarrowsExactProduct : Prop :=
  decode 0x03000000 = .ok .fxMul ∧ ∀ s : State,
    exec .fxMul s = .next { s with
      res := BitVec.ofInt 32 (clamp16 (low16 s.arg0 * low16 s.arg1 / 4096))
      sat := s.sat || decide (2 ^ 27 ≤ low16 s.arg0 * low16 s.arg1 ∨ low16 s.arg0 * low16 s.arg1 < -2 ^ 27)
      lastErr := .ok }

/-- MAC_CLR, word 0x04000000, clears ACC and nothing else but LAST_ERR (40_fixedpoint.md R113). -/
def Obligations.MacClrClearsAcc : Prop :=
  decode 0x04000000 = .ok .macClr ∧ ∀ s : State, ∃ t : State, exec .macClr s = .next t ∧ t.acc.toInt = 0 ∧
    t = { s with acc := t.acc, lastErr := .ok }

/-- MAC_ACC, word 0x05000000: ACC takes the sum with the exact product clamped to 40 bits; SAT exactly when the clamp changes it;
nothing else changes (40_fixedpoint.md R103, R114). -/
def Obligations.MacAccSaturates : Prop :=
  decode 0x05000000 = .ok .macAcc ∧ ∀ s : State, ∃ t : State, exec .macAcc s = .next t ∧
    t.acc.toInt = max (-2 ^ 39) (min (2 ^ 39 - 1) (s.acc.toInt + low16 s.arg0 * low16 s.arg1)) ∧
    t.sat = (s.sat || decide (s.acc.toInt + low16 s.arg0 * low16 s.arg1 < -2 ^ 39 ∨
      2 ^ 39 - 1 < s.acc.toInt + low16 s.arg0 * low16 s.arg1)) ∧
    t = { s with acc := t.acc, sat := t.sat, lastErr := .ok }

/-- MAC_RD, word 0x06000000: RES takes `ACC` shifted by a floor and clamped to 16 bits; ACC is not changed (40_fixedpoint.md R104,
R115). -/
def Obligations.MacRdReducesAcc : Prop :=
  decode 0x06000000 = .ok .macRd ∧ ∀ s : State,
    exec .macRd s = .next { s with
      res := BitVec.ofInt 32 (clamp16 (s.acc.toInt / 4096))
      sat := s.sat || outside16 (s.acc.toInt / 4096)
      lastErr := .ok }

/-- The scalar unit and the dot-product units are independent: the four scalar commands change only ACC, RES and
SAT (beside LAST_ERR), and no DP_* or INT_* command reads or writes ACC (40_fixedpoint.md R116). -/
def Obligations.AccBelongsToTheScalarUnit : Prop :=
  (∀ (i : Instr) (s t : State), i ∈ [.fxMul, .macClr, .macAcc, .macRd] → exec i s = .next t →
    t = { s with acc := t.acc, res := t.res, sat := t.sat, lastErr := .ok }) ∧
  (∀ (i : Instr) (s : State) (a : AccWord), i ∉ [.nop, .fxFromf, .fxTof, .fxMul, .macClr, .macAcc, .macRd] →
    exec i { s with acc := a } = mapNext (fun t => { t with acc := a }) (exec i s))

/-! ## Rules over all commands -/

/-- No command writes ARG0 to ARG2, the enables of CTRL or CMD itself, and none touches the host's side
(10_state.md R21, R25, R29; 70_reset_and_hazards.md R285). -/
def Obligations.CommandsKeepHostRegisters : Prop :=
  ∀ (i : Instr) (s t : State), exec i s = .next t →
    t.arg0 = s.arg0 ∧ t.arg1 = s.arg1 ∧ t.arg2 = s.arg2 ∧ t.errIe = s.errIe ∧ t.satIe = s.satIe ∧
    t.cmd = s.cmd ∧ t.pending = s.pending ∧ t.reads = s.reads

/-- Only FX_FROMF, FX_MUL, MAC_RD, FX_TOF and DP_EXEC write RES, and no command that raises an error does; only
MAC_CLR and MAC_ACC write ACC; only INT_EXEC and INT_EXEC_BLOCK write DMEM (10_state.md R22, R30, R37). -/
def Obligations.OnlyNamedCommandsWriteResults : Prop :=
  ∀ (i : Instr) (s t : State), exec i s = .next t →
    (i ∉ [.fxFromf, .fxMul, .macRd, .fxTof] → (∀ u k, i ≠ .dpExec u k) → t.res = s.res) ∧
    (t.lastErr ≠ .ok → t.res = s.res) ∧
    (i ∉ [.macClr, .macAcc] → t.acc = s.acc) ∧
    ((∀ c, i ≠ .intExec c) → (∀ c, i ≠ .intExecBlock c) → t.mem = s.mem)

/-- Errors are all-or-nothing: a command that raises an error changes CMD, LAST_ERR and ERR only, whether its word
does not decode or its own checks fail; issued by the host or executed alone (60_exceptions.md R254). -/
def Obligations.ErrorsAreAllOrNothing : Prop :=
  (∀ (i : Instr) (s t : State), exec i s = .next t → t.lastErr ≠ .ok →
    t = { s with lastErr := t.lastErr, err := true }) ∧
  (∀ (s t : State) (v : Word32) (es : List HostEvent), s.pending = .write 0x01C 32 v :: es → step s = .next t →
    t.lastErr ≠ .ok → t = { s with pending := es, cmd := v, lastErr := t.lastErr, err := true })

/-- Completion: ERR is set by an error and left as it was by success, and no command clears ERR or SAT
(60_exceptions.md R252; 10_state.md R27). -/
def Obligations.CompletionKeepsStickyFlags : Prop :=
  ∀ (i : Instr) (s t : State), exec i s = .next t →
    t.err = (s.err || decide (t.lastErr ≠ .ok)) ∧ (s.sat = true → t.sat = true)

/-- No command hangs or is refused: each answers a next state, or faults at a DMEM word that exists and that
nothing has written (70_reset_and_hazards.md R289; 20_memory.md R56). -/
def Obligations.CommandsStopOnlyAtUnwrittenWords : Prop :=
  ∀ (i : Instr) (s : State), (∃ t, exec i s = .next t) ∨
    (∃ a, a < 4096 ∧ s.mem.read a = none ∧ exec i s = .fault (.unwrittenDmem a))

/-- A command that needs a READY context or slot and does not find one ends with MISUSE and no other effect
(60_exceptions.md R251, R259; 70_reset_and_hazards.md R288). -/
def Obligations.MisuseWhenNotReady : Prop :=
  (∀ (s : State) (c : BitVec 2), c.toNat < 2 → (∀ o, s.ctx.get? c.toNat ≠ some (.ready o)) →
    ∀ i ∈ [Instr.intReset c, .intExec c, .intExecBlock c, .intSetScale c, .intCopy c, .intDestroy c],
      exec i s = .next { s with lastErr := .misuse, err := true }) ∧
  (∀ (s : State) (k : BitVec 2), s.slots.get? k.toNat = some .empty →
    ∀ i ∈ [Instr.dpExec false k, .dpExec true k, .dpFree k],
      exec i s = .next { s with lastErr := .misuse, err := true })

/-- A DMEM range that leaves DMEM ends DP_EXEC, INT_EXEC and INT_EXEC_BLOCK with BOUNDS and no other effect: no
partial output, no partial history push (41_dotprod.md R141; 43_interp.md R202, R203; 30_encoding.md R79). -/
def Obligations.RangesThatLeaveDmemAreBounds : Prop :=
  (∀ (s : State) (u : Bool) (k : BitVec 2) (d : DotProduct), s.slots.get? k.toNat = some (.ready d) →
    1 ≤ d.n → 4096 < s.arg0.toNat + d.n →
    exec (.dpExec u k) s = .next { s with lastErr := .bounds, err := true }) ∧
  (∀ (s : State) (c : BitVec 2) (o : Interp), s.ctx.get? c.toNat = some (.ready o) → 1 ≤ o.M →
    4096 < s.arg0.toNat + 2 ∨ 4096 < s.arg1.toNat + 2 * o.M →
    exec (.intExec c) s = .next { s with lastErr := .bounds, err := true }) ∧
  (∀ (s : State) (c : BitVec 2) (o : Interp), s.ctx.get? c.toNat = some (.ready o) → 1 ≤ o.M →
    1 ≤ s.arg2.toNat →
    4096 < s.arg0.toNat + 2 * s.arg2.toNat ∨ 4096 < s.arg1.toNat + 2 * o.M * s.arg2.toNat →
    exec (.intExecBlock c) s = .next { s with lastErr := .bounds, err := true })

/-- A command changes only the objects it names: a context other than the one an INT_* command names (for INT_COPY
the destination ARG0) and a slot other than the one DP_LOAD or DP_FREE names keep their contents
(10_state.md R33 to R35; 43_interp.md R204). -/
def Obligations.OnlyNamedObjectsChange : Prop :=
  ∀ (i : Instr) (s t : State), exec i s = .next t →
    (∀ d : Nat,
      (∀ c, i ∈ [.intCreate c, .intKaiser c, .intReset c, .intExec c, .intExecBlock c, .intSetScale c, .intDestroy c] →
        d ≠ c.toNat) →
      (∀ c, i = .intCopy c → d ≠ s.arg0.toNat) → t.ctx.get? d = s.ctx.get? d) ∧
    (∀ d : Nat, (∀ k, i ∈ [.dpLoad k, .dpFree k] → d ≠ k.toNat) → t.slots.get? d = s.slots.get? d)

/-! ## Dot-product slots -/

/-- DP_LOAD copies `n` words of DMEM into the slot, which becomes READY; nothing else changes but LAST_ERR
(41_dotprod.md R140). -/
def Obligations.DpLoadCopiesTaps : Prop :=
  ∀ (s : State) (k : BitVec 2) (v : List Sample), k.toNat < 2 → s.arg1.toNat = v.length → 1 ≤ v.length →
    v.length ≤ 256 → s.arg0.toNat + v.length ≤ 4096 →
    (∀ j < v.length, s.mem.read (s.arg0.toNat + j) = v[j]?) →
    exec (.dpLoad k) s = .next { s with slots := s.slots.set k.toNat (.ready ⟨v.length, v⟩), lastErr := .ok }

/-- DP_LOAD's errors in their order: CONFIG for n = 0, RESOURCE for n > 256, BOUNDS for a range that leaves DMEM; the
slot keeps its previous state (41_dotprod.md R140; 60_exceptions.md R253). -/
def Obligations.DpLoadErrorOrder : Prop :=
  ∀ (s : State) (k : BitVec 2), k.toNat < 2 →
    (s.arg1.toNat = 0 → exec (.dpLoad k) s = .next { s with lastErr := .config, err := true }) ∧
    (256 < s.arg1.toNat → exec (.dpLoad k) s = .next { s with lastErr := .resource, err := true }) ∧
    (1 ≤ s.arg1.toNat → s.arg1.toNat ≤ 256 → 4096 < s.arg0.toNat + s.arg1.toNat →
      exec (.dpLoad k) s = .next { s with lastErr := .bounds, err := true })

/-- DP_EXEC, on either path: RES is the exact sum of products shifted by a floor and clamped to 16 bits. The internal
accumulator never saturates; only the final clamp sets SAT (41_dotprod.md R130, R136, R141). -/
def Obligations.DpExecGivesExactSum : Prop :=
  ∀ (s : State) (u : Bool) (k : BitVec 2) (d : DotProduct) (x : List Sample),
    s.slots.get? k.toNat = some (.ready d) → d.wf = true → x.length = d.n → s.arg0.toNat + d.n ≤ 4096 →
    (∀ j < d.n, s.mem.read (s.arg0.toNat + j) = x[j]?) →
    exec (.dpExec u k) s = .next { s with
      res := BitVec.ofInt 32 (clamp16 (dotSum d.h x / 4096))
      sat := s.sat || outside16 (dotSum d.h x / 4096)
      lastErr := .ok }

/-- The unrolled and the reference path give the same answer in every state: same RES, same SAT, same stop
(41_dotprod.md R133, R134; 30_encoding.md R76). -/
def Obligations.UnrolledPathEqualsReference : Prop :=
  (∀ h x : List Sample, dotRun4 h x = dotRef h x) ∧
  (∀ (k : BitVec 2) (s : State), exec (.dpExec true k) s = exec (.dpExec false k) s)

/-- DP_FREE, word 0x12000000 + s, empties a READY slot and changes nothing else but LAST_ERR; DP_INFO then reads 0, and
a DP_EXEC on the slot raises MISUSE. An EMPTY slot raises MISUSE (41_dotprod.md R142). -/
def Obligations.DpFreeEmptiesSlot : Prop :=
  ∀ (s : State) (k : BitVec 2), k.toNat < 2 →
    decode (BitVec.ofNat 32 (0x12000000 + k.toNat)) = .ok (.dpFree k) ∧
    (∀ d, s.slots.get? k.toNat = some (.ready d) →
      ∃ t, exec (.dpFree k) s = .next t ∧ t = { s with slots := s.slots.set k.toNat .empty, lastErr := .ok } ∧
        readPort t (.dpInfo k.toNat) = .ok 0 ∧
        ∀ u, exec (.dpExec u k) t = .next { t with lastErr := .misuse, err := true }) ∧
    (s.slots.get? k.toNat = some .empty → exec (.dpFree k) s = .next { s with lastErr := .misuse, err := true })

/-! ## The designer -/

/-- KAISER_FN gives `2*m*M + 1` taps, symmetric about index `m*M`, whatever its values (42_designer.md R160, R163;
the symmetry is built into the model by log entry 4). -/
def Obligations.KaiserTapsAreSymmetric : Prop :=
  ∀ (M m : Nat) (as : Word32), (kaiserFn M m as).length = 2 * m * M + 1 ∧
    ∀ i ≤ 2 * m * M, (kaiserFn M m as)[i]? = (kaiserFn M m as)[2 * m * M - i]?

/-- INT_KAISER on an accepted design, from any state of the context: the context becomes READY with L = 2m,
KIND = 1, SUB[p][k] = tap `p + k*M` of KAISER_FN, a zero history and gain 1.0. It holds for every coefficient
function and every clamp flag of it, which are free (42_designer.md R162, R166; log entry 4). -/
def Obligations.IntKaiserBuildsContext : Prop :=
  ∀ (s : State) (c : BitVec 2) (M m : Nat), c.toNat < 2 → s.arg0.toNat = M → s.arg1.toNat = m →
    1 ≤ M → M ≤ 16 → 1 ≤ m → 2 * m ≤ 256 → 2 * m * M ≤ 1024 →
    (∃ x : ℚ, (readF32 s.arg2).value = some x ∧ 0 < x) →
    ∃ o : Interp,
      exec (.intKaiser c) s = .next { s with
        ctx := s.ctx.set c.toNat (.ready o)
        sat := s.sat || Config.kaiserClamps M m s.arg2
        lastErr := .ok } ∧
      o.M = M ∧ o.L = 2 * m ∧ o.kind = .kaiser ∧ o.gain.toInt = 4096 ∧
      o.hist = List.replicate (2 * m) ⟨0, 0⟩ ∧ o.sub.length = M ∧
      ∀ p < M, ∃ row, o.sub[p]? = some row ∧ row.length = 2 * m ∧
        ∀ k < 2 * m, row[k]? = (kaiserFn M m s.arg2)[p + k * M]?

/-- INT_KAISER's errors in their order: CONFIG for M = 0, for m = 0 and for an As that is not finite and positive
(NaN and the infinities have no value), then RESOURCE; the context is unchanged (42_designer.md R161, R166). -/
def Obligations.IntKaiserErrorOrder : Prop :=
  ∀ (s : State) (c : BitVec 2), c.toNat < 2 →
    ((s.arg0.toNat = 0 ∨ s.arg1.toNat = 0 ∨ ∀ x : ℚ, (readF32 s.arg2).value = some x → x ≤ 0) →
      exec (.intKaiser c) s = .next { s with lastErr := .config, err := true }) ∧
    (1 ≤ s.arg0.toNat → 1 ≤ s.arg1.toNat → (∃ x : ℚ, (readF32 s.arg2).value = some x ∧ 0 < x) →
      (16 < s.arg0.toNat ∨ 256 < 2 * s.arg1.toNat ∨ 1024 < 2 * s.arg1.toNat * s.arg0.toNat) →
      exec (.intKaiser c) s = .next { s with lastErr := .resource, err := true })

/-- The reference design in real arithmetic: the centre tap is 1 and quantizes to 4096, the taps at the other
multiples of M are 0, the taps are symmetric, none exceeds 1 in magnitude and no quantization clamps
(42_designer.md R164, R165, R167). It says nothing of KAISER_FN, which is free. -/
def Obligations.ReferenceDesignProperties : Prop :=
  ∀ (M m : ℕ) (as : ℝ), 1 ≤ M → 1 ≤ m →
    Reference.tap M m as (m * M) = 1 ∧ Reference.quantize (Reference.tap M m as (m * M)) = ⟨4096, false⟩ ∧
    (∀ k ≤ 2 * m, k ≠ m → Reference.tap M m as (k * M) = 0) ∧
    (∀ i ≤ 2 * m * M, Reference.tap M m as i = Reference.tap M m as (2 * m * M - i) ∧
      |Reference.tap M m as i| ≤ 1 ∧ (Reference.quantize (Reference.tap M m as i)).clipped = false)

/-! ## The interpolator bank -/

/-- INT_CREATE on valid operands, from any state of the context: READY with M, L, KIND = 0, SUB[p][k] = H[p + k*M], a
zero history and gain 1.0; interleaving the phases gives back H exactly (43_interp.md R190, R192, R200). -/
def Obligations.IntCreateBuildsPolyphaseBank : Prop :=
  ∀ (s : State) (c : BitVec 2) (M L : Nat) (taps : List Sample), c.toNat < 2 → s.arg0.toNat = M →
    s.arg2.toNat = taps.length → taps.length = M * L → 1 ≤ M → M ≤ 16 → 1 ≤ L → L ≤ 256 → M * L ≤ 1024 →
    s.arg1.toNat + taps.length ≤ 4096 → (∀ j < taps.length, s.mem.read (s.arg1.toNat + j) = taps[j]?) →
    ∃ o : Interp,
      exec (.intCreate c) s = .next { s with ctx := s.ctx.set c.toNat (.ready o), lastErr := .ok } ∧
      o.M = M ∧ o.L = L ∧ o.kind = .taps ∧ o.gain.toInt = 4096 ∧ o.hist = List.replicate L ⟨0, 0⟩ ∧
      o.sub.length = M ∧
      (∀ p < M, ∃ row, o.sub[p]? = some row ∧ row.length = L ∧ ∀ k < L, row[k]? = taps[p + k * M]?) ∧
      (∀ j < taps.length, ∃ row, o.sub[j % M]? = some row ∧ row[j / M]? = taps[j]?)

/-- INT_CREATE's errors in their order: CONFIG for M = 0, n = 0 or n mod M != 0, then RESOURCE, then BOUNDS; the
context is unchanged (43_interp.md R200; 60_exceptions.md R253). -/
def Obligations.IntCreateErrorOrder : Prop :=
  ∀ (s : State) (c : BitVec 2) (M n : Nat), c.toNat < 2 → s.arg0.toNat = M → s.arg2.toNat = n →
    (M = 0 ∨ n = 0 ∨ n % M ≠ 0 → exec (.intCreate c) s = .next { s with lastErr := .config, err := true }) ∧
    (1 ≤ M → 1 ≤ n → n % M = 0 → 16 < M ∨ 256 < n / M ∨ 1024 < n →
      exec (.intCreate c) s = .next { s with lastErr := .resource, err := true }) ∧
    (1 ≤ M → 1 ≤ n → n % M = 0 → M ≤ 16 → n / M ≤ 256 → n ≤ 1024 → 4096 < s.arg1.toNat + n →
      exec (.intCreate c) s = .next { s with lastErr := .bounds, err := true })

/-- INT_RESET, word 0x23000000 + c, clears the history of a READY context and keeps SUB, G, M, L and KIND; nothing else
changes but LAST_ERR. A context that is not READY raises MISUSE (43_interp.md R201). -/
def Obligations.IntResetClearsHistory : Prop :=
  ∀ (s : State) (c : BitVec 2), c.toNat < 2 →
    decode (BitVec.ofNat 32 (0x23000000 + c.toNat)) = .ok (.intReset c) ∧
    (∀ o, s.ctx.get? c.toNat = some (.ready o) →
      exec (.intReset c) s = .next { s with
        ctx := s.ctx.set c.toNat (.ready { o with hist := List.replicate o.L ⟨0, 0⟩ })
        lastErr := .ok }) ∧
    ((∀ o, s.ctx.get? c.toNat ≠ some (.ready o)) →
      exec (.intReset c) s = .next { s with lastErr := .misuse, err := true })

/-- After INT_RESET the object is the one BuildContext made, but for the gain it had at the reset
(43_interp.md R207). -/
def Obligations.ResetEqualsFreshObject : Prop :=
  ∀ (s : State) (c : BitVec 2) (M : Nat) (taps : List Sample) (kind : Kind) (hist : List IQ) (g : Sample),
    s.ctx.get? c.toNat = some (.ready { buildInterp M taps kind with hist := hist, gain := g }) →
    ∃ t, exec (.intReset c) s = .next t ∧
      t.ctx.get? c.toNat = some (.ready { buildInterp M taps kind with gain := g })

/-- INT_EXEC: the sample is pushed in front of the history, and for each phase p the words `ya + 2p` and `ya + 2p + 1`
hold the scaled dot products of SUB[p] with the I and the Q parts of the new history; every other DMEM word reads as
before; SAT is set exactly when some narrowing or scaling clamps; nothing else changes (43_interp.md R193 to R196,
R202; 44_scaler.md R232). -/
def Obligations.IntExecComputesPhases : Prop :=
  ∀ (s : State) (c : BitVec 2) (o : Interp) (x : IQ), s.ctx.get? c.toNat = some (.ready o) → o.wf = true →
    s.arg0.toNat + 2 ≤ 4096 → s.arg1.toNat + 2 * o.M ≤ 4096 →
    s.mem.read s.arg0.toNat = some x.i → s.mem.read (s.arg0.toNat + 1) = some x.q →
    ∃ (t : State) (hist : List IQ), hist = x :: o.hist.dropLast ∧
      exec (.intExec c) s = .next t ∧
      t = { s with ctx := s.ctx.set c.toNat (.ready { o with hist := hist }), mem := t.mem, sat := t.sat, lastErr := .ok } ∧
      (∀ p < o.M, ∃ row, o.sub[p]? = some row ∧
        t.mem.read (s.arg1.toNat + 2 * p) = some (BitVec.ofInt 16 (outputValue o.gain.toInt row (hist.map IQ.i))) ∧
        t.mem.read (s.arg1.toNat + 2 * p + 1) = some (BitVec.ofInt 16 (outputValue o.gain.toInt row (hist.map IQ.q)))) ∧
      (∀ a, a < s.arg1.toNat ∨ s.arg1.toNat + 2 * o.M ≤ a → t.mem.read a = s.mem.read a) ∧
      (t.sat = true ↔ s.sat = true ∨ ∃ row ∈ o.sub,
        outputClips o.gain.toInt row (hist.map IQ.i) = true ∨ outputClips o.gain.toInt row (hist.map IQ.q) = true)

/-- INT_EXEC_BLOCK of k samples leaves the state that k INT_EXEC commands leave, and stops where they stop, but for
the ARG registers (43_interp.md R203, R206). -/
def Obligations.BlockEqualsRepeatedExec : Prop :=
  ∀ (s : State) (c : BitVec 2) (o : Interp), s.ctx.get? c.toNat = some (.ready o) → 1 ≤ s.arg2.toNat →
    s.arg0.toNat + 2 * s.arg2.toNat ≤ 4096 → s.arg1.toNat + 2 * o.M * s.arg2.toNat ≤ 4096 →
    exec (.intExecBlock c) s =
      mapNext (fun t => { t with arg0 := s.arg0, arg1 := s.arg1 })
        (execEach c o.M s.arg0.toNat s.arg1.toNat s.arg2.toNat s)

/-- INT_EXEC_BLOCK on a READY context with both ranges in DMEM (an empty range always is) and its input written
always succeeds; it changes DMEM only inside the `2*M*k` output words, the context only in its history, and SAT and
LAST_ERR. With k = 0 it changes nothing but LAST_ERR (43_interp.md R203; 60_exceptions.md R255). -/
def Obligations.BlockCompletesAndFrames : Prop :=
  ∀ (s : State) (c : BitVec 2) (o : Interp), s.ctx.get? c.toNat = some (.ready o) →
    s.arg2.toNat = 0 ∨ s.arg0.toNat + 2 * s.arg2.toNat ≤ 4096 →
    2 * o.M * s.arg2.toNat = 0 ∨ s.arg1.toNat + 2 * o.M * s.arg2.toNat ≤ 4096 →
    (∀ a, s.arg0.toNat ≤ a → a < s.arg0.toNat + 2 * s.arg2.toNat → s.mem.read a ≠ none) →
    ∃ (t : State) (hist : List IQ), exec (.intExecBlock c) s = .next t ∧
      t = { s with ctx := s.ctx.set c.toNat (.ready { o with hist := hist }), mem := t.mem, sat := t.sat, lastErr := .ok } ∧
      (∀ a, a < s.arg1.toNat ∨ s.arg1.toNat + 2 * o.M * s.arg2.toNat ≤ a → t.mem.read a = s.mem.read a) ∧
      (s.arg2.toNat = 0 → t = { s with lastErr := .ok })

/-- Impulse response: into a context with zero history and gain 1.0, a block of the input 1.0 followed by zeros
returns the taps, phase by phase (H[p + j*M] = SUB[p][j], R190), then exact zeros; every Q output is 0 and nothing
clamps (43_interp.md R208). -/
def Obligations.ImpulseResponseIsTheTaps : Prop :=
  ∀ (s : State) (c : BitVec 2) (o : Interp), s.ctx.get? c.toNat = some (.ready o) → o.wf = true →
    o.hist = List.replicate o.L ⟨0, 0⟩ → o.gain = 0x1000 → 1 ≤ s.arg2.toNat →
    s.arg0.toNat + 2 * s.arg2.toNat ≤ 4096 → s.arg1.toNat + 2 * o.M * s.arg2.toNat ≤ 4096 →
    s.arg0.toNat + 2 * s.arg2.toNat ≤ s.arg1.toNat ∨ s.arg1.toNat + 2 * o.M * s.arg2.toNat ≤ s.arg0.toNat →
    s.mem.read s.arg0.toNat = some 0x1000 →
    (∀ a, s.arg0.toNat < a → a < s.arg0.toNat + 2 * s.arg2.toNat → s.mem.read a = some 0) →
    ∃ t, exec (.intExecBlock c) s = .next t ∧ t.lastErr = .ok ∧ t.sat = s.sat ∧
      ∀ j < s.arg2.toNat, ∀ p < o.M, ∃ row, o.sub[p]? = some row ∧
        t.mem.read (s.arg1.toNat + 2 * o.M * j + 2 * p) = some (row[j]?.getD 0) ∧
        t.mem.read (s.arg1.toNat + 2 * o.M * j + 2 * p + 1) = some 0

/-- INT_COPY clones the READY context into the destination, in any state of it; onto itself it changes nothing but
LAST_ERR; a destination that does not exist is CONFIG (43_interp.md R204). -/
def Obligations.IntCopyClones : Prop :=
  ∀ (s : State) (c : BitVec 2) (o : Interp), s.ctx.get? c.toNat = some (.ready o) →
    (s.arg0.toNat < 2 → s.arg0.toNat ≠ c.toNat →
      exec (.intCopy c) s = .next { s with ctx := s.ctx.set s.arg0.toNat (.ready o), lastErr := .ok }) ∧
    (s.arg0.toNat = c.toNat → exec (.intCopy c) s = .next { s with lastErr := .ok }) ∧
    (2 ≤ s.arg0.toNat → exec (.intCopy c) s = .next { s with lastErr := .config, err := true })

/-- INT_DESTROY makes a READY context DESTROYED and changes nothing else but LAST_ERR; CTX_INFO then reads 2 and
CTX_GAIN 0 (43_interp.md R205). -/
def Obligations.IntDestroyEndsObject : Prop :=
  ∀ (s : State) (c : BitVec 2) (o : Interp), s.ctx.get? c.toNat = some (.ready o) →
    ∃ t, exec (.intDestroy c) s = .next t ∧
      t = { s with ctx := s.ctx.set c.toNat .destroyed, lastErr := .ok } ∧
      readPort t (.ctxInfo c.toNat) = .ok 2 ∧ readPort t (.ctxGain c.toNat) = .ok 0

/-! ## The scaler -/

/-- INT_SET_SCALE, word 0x26000000 + c, stores bits 15:0 of ARG0 as the gain of a READY context, for every value, and
changes nothing else but LAST_ERR. A context that is not READY raises MISUSE (44_scaler.md R233). -/
def Obligations.SetScaleStoresGain : Prop :=
  ∀ (s : State) (c : BitVec 2), c.toNat < 2 →
    decode (BitVec.ofNat 32 (0x26000000 + c.toNat)) = .ok (.intSetScale c) ∧
    (∀ o, s.ctx.get? c.toNat = some (.ready o) →
      exec (.intSetScale c) s = .next { s with
        ctx := s.ctx.set c.toNat (.ready { o with gain := BitVec.ofInt 16 (low16 s.arg0) })
        lastErr := .ok }) ∧
    ((∀ o, s.ctx.get? c.toNat ≠ some (.ready o)) →
      exec (.intSetScale c) s = .next { s with lastErr := .misuse, err := true })

/-- INT_SET_SCALE followed by a host read of CTX_GAIN[c] returns the sign extension of the low 16 bits of ARG0
(44_scaler.md R237; 10_state.md R32). -/
def Obligations.GainReadsBack : Prop :=
  ∀ (s : State) (c : BitVec 2) (o : Interp) (es : List HostEvent), s.ctx.get? c.toNat = some (.ready o) →
    s.pending = .write 0x01C 32 (BitVec.ofNat 32 (0x26000000 + c.toNat)) ::
      .read (BitVec.ofNat 17 (0x104 + 0x10 * c.toNat)) 32 :: es →
    ∃ t, run 2 s = .next t ∧ t.reads = BitVec.ofInt 32 (low16 s.arg0) :: s.reads ∧ t.pending = es

/-- Unit gain is exact and zero gain mutes, without a clamp, for every sub-filter result (44_scaler.md R234, R235). -/
def Obligations.UnitAndZeroGain : Prop :=
  ∀ d : Sample, scale 4096 d.toInt = ⟨d.toInt, false⟩ ∧ scale 0 d.toInt = ⟨0, false⟩

/-- Scale linearity holds up to `ceil(|g2| * 2^-F)` when nothing clamps, and exactly when g1 = 1.0
(44_scaler.md R238). -/
def Obligations.ScaleLinearityBound : Prop :=
  ∀ g1 g2 g12 d : Int, g12 * 4096 = g1 * g2 → (scale g12 d).clipped = false → (scale g1 d).clipped = false →
    (scale g2 (scale g1 d).val).clipped = false →
    |(scale g12 d).val - (scale g2 (scale g1 d).val).val| ≤ ⌈(|g2| : ℚ) / 4096⌉ ∧
    (g1 = 4096 → (scale g12 d).val = (scale g2 (scale g1 d).val).val)

/-! ## The host's side -/

/-- Block reset, from any state: every register of the block takes its reset value; the registers read 0 but for the
constants, DMEM is unwritten and irq is 0 (70_reset_and_hazards.md R280). The host's own list and record are no state
of the block (log entry 1). -/
def Obligations.BlockResetValues : Prop :=
  ∀ (s : State) (es : List HostEvent), s.pending = .reset :: es →
    ∃ t, step s = .next t ∧ t = { State.reset with pending := es, reads := s.reads } ∧
      (∀ off ∈ ([0x014, 0x018, 0x01C, 0x020, 0x024, 0x028, 0x034, 0x038, 0x03C, 0x100, 0x104, 0x110, 0x114, 0x180,
        0x190] : List (BitVec 17)), readPort t (portOf off) = .ok 0) ∧
      readPort t (portOf 0x000) = .ok 0x4C510001 ∧ readPort t (portOf 0x004) = .ok 0x00280C10 ∧
      readPort t (portOf 0x008) = .ok 0x01000010 ∧ readPort t (portOf 0x00C) = .ok 0x00220400 ∧
      readPort t (portOf 0x010) = .ok 0x00001000 ∧
      (∀ a, t.mem.read a = none) ∧ irq t = false

/-- A host read has no side effect on the block: it adds what its offset's register or word holds to the host's record, which is the model's
(log entry 1), or faults at an unwritten DMEM word (20_memory.md R56, R61). -/
def Obligations.HostReadsHaveNoSideEffect : Prop :=
  ∀ (s : State) (off : BitVec 17) (es : List HostEvent), s.pending = .read off 32 :: es → off.toNat % 4 = 0 →
    (∃ v, readPort s (portOf off) = .ok v ∧ step s = .next { s with pending := es, reads := v :: s.reads }) ∨
    (∃ i < 4096, off.toNat = 0x1000 + 4 * i ∧ s.mem.read i = none ∧ step s = .fault (.unwrittenDmem i))

/-- The DMEM window: a host read of a written word returns its sign extension; a host write keeps bits 15:0, and a host
read of the same word returns their sign extension, while every other DMEM word reads as before (20_memory.md R53). -/
def Obligations.DmemWindowWriteThenRead : Prop :=
  (∀ (s : State) (i : Nat) (x : Sample) (es : List HostEvent), i < 4096 → s.mem.read i = some x →
    s.pending = .read (BitVec.ofNat 17 (0x1000 + 4 * i)) 32 :: es →
    step s = .next { s with pending := es, reads := BitVec.ofInt 32 x.toInt :: s.reads }) ∧
  ∀ (s : State) (i : Nat) (v : Word32) (es : List HostEvent), i < 4096 →
    s.pending = .write (BitVec.ofNat 17 (0x1000 + 4 * i)) 32 v :: .read (BitVec.ofNat 17 (0x1000 + 4 * i)) 32 :: es →
    ∃ t, run 2 s = .next t ∧
      t = { s with mem := t.mem, pending := es, reads := BitVec.ofInt 32 (low16 v) :: s.reads } ∧
      t.mem.read i = some (BitVec.ofInt 16 (low16 v)) ∧ ∀ a, a ≠ i → t.mem.read a = s.mem.read a

/-- A read of a DMEM word that nothing has written is a fault that names it: by the host, and by the MemRead of DP_LOAD,
DP_EXEC on both paths, INT_CREATE, INT_EXEC (its I and its Q word) and INT_EXEC_BLOCK, at the first such word of the
input range. For INT_EXEC_BLOCK a word that the outputs of the samples before it cover counts as written
(20_memory.md R56, R62; 43_interp.md R203). -/
def Obligations.UnwrittenReadsFault : Prop :=
  (∀ (s : State) (i : Nat) (es : List HostEvent), i < 4096 → s.mem.read i = none →
    s.pending = .read (BitVec.ofNat 17 (0x1000 + 4 * i)) 32 :: es → step s = .fault (.unwrittenDmem i)) ∧
  (∀ (s : State) (k : BitVec 2) (j : Nat), k.toNat < 2 → j < s.arg1.toNat → s.arg1.toNat ≤ 256 →
    s.arg0.toNat + s.arg1.toNat ≤ 4096 → s.mem.read (s.arg0.toNat + j) = none →
    (∀ j' < j, s.mem.read (s.arg0.toNat + j') ≠ none) →
    exec (.dpLoad k) s = .fault (.unwrittenDmem (s.arg0.toNat + j))) ∧
  (∀ (s : State) (u : Bool) (k : BitVec 2) (d : DotProduct) (j : Nat), s.slots.get? k.toNat = some (.ready d) →
    j < d.n → s.arg0.toNat + d.n ≤ 4096 → s.mem.read (s.arg0.toNat + j) = none →
    (∀ j' < j, s.mem.read (s.arg0.toNat + j') ≠ none) →
    exec (.dpExec u k) s = .fault (.unwrittenDmem (s.arg0.toNat + j))) ∧
  (∀ (s : State) (c : BitVec 2) (M n j : Nat), c.toNat < 2 → s.arg0.toNat = M → s.arg2.toNat = n → 1 ≤ M → M ≤ 16 →
    n % M = 0 → n / M ≤ 256 → n ≤ 1024 → s.arg1.toNat + n ≤ 4096 → j < n → s.mem.read (s.arg1.toNat + j) = none →
    (∀ j' < j, s.mem.read (s.arg1.toNat + j') ≠ none) →
    exec (.intCreate c) s = .fault (.unwrittenDmem (s.arg1.toNat + j))) ∧
  (∀ (s : State) (c : BitVec 2) (o : Interp) (j : Nat), s.ctx.get? c.toNat = some (.ready o) → j < 2 →
    s.arg0.toNat + 2 ≤ 4096 → s.arg1.toNat + 2 * o.M ≤ 4096 → s.mem.read (s.arg0.toNat + j) = none →
    (∀ j' < j, s.mem.read (s.arg0.toNat + j') ≠ none) →
    exec (.intExec c) s = .fault (.unwrittenDmem (s.arg0.toNat + j))) ∧
  (∀ (s : State) (c : BitVec 2) (o : Interp) (j : Nat), s.ctx.get? c.toNat = some (.ready o) →
    j < 2 * s.arg2.toNat → s.arg0.toNat + 2 * s.arg2.toNat ≤ 4096 → s.arg1.toNat + 2 * o.M * s.arg2.toNat ≤ 4096 →
    s.mem.read (s.arg0.toNat + j) = none → (∀ j' < j, s.mem.read (s.arg0.toNat + j') ≠ none) →
    s.arg0.toNat + j < s.arg1.toNat ∨ s.arg1.toNat + 2 * o.M * (j / 2) ≤ s.arg0.toNat + j →
    exec (.intExecBlock c) s = .fault (.unwrittenDmem (s.arg0.toNat + j)))

/-- A host access that is not 32 bits wide or not 4-byte aligned is refused (20_memory.md R54). -/
def Obligations.OddShapedAccessesAreRefused : Prop :=
  ∀ (s : State) (off : BitVec 17) (w : Nat) (v : Word32) (es : List HostEvent), w ≠ 32 ∨ off.toNat % 4 ≠ 0 →
    (s.pending = .read off w :: es → step s = .refused .hostAccessShape) ∧
    (s.pending = .write off w v :: es → step s = .refused .hostAccessShape)

/-- A reserved offset of the host window reads 0 and ignores writes, without an error (20_memory.md R55;
10_state.md R41). -/
def Obligations.ReservedOffsetsAreInert : Prop :=
  ∀ (s : State) (off : BitVec 17) (v : Word32) (es : List HostEvent), off.toNat % 4 = 0 →
    (off.toNat = 0x02C ∨ off.toNat = 0x030 ∨ 0x040 ≤ off.toNat ∧ off.toNat < 0x100 ∨
      0x100 ≤ off.toNat ∧ off.toNat < 0x120 ∧ 8 ≤ off.toNat % 16 ∨ 0x120 ≤ off.toNat ∧ off.toNat < 0x180 ∨
      0x180 ≤ off.toNat ∧ off.toNat < 0x1A0 ∧ off.toNat % 16 ≠ 0 ∨ 0x1A0 ≤ off.toNat ∧ off.toNat < 0x1000 ∨
      0x5000 ≤ off.toNat) →
    (s.pending = .read off 32 :: es → step s = .next { s with pending := es, reads := 0 :: s.reads }) ∧
    (s.pending = .write off 32 v :: es → step s = .next { s with pending := es })

/-- A host write of a read-only register (ID, PARAM0 to PARAM3, ACC_LO, ACC_HI, RES, CTX_INFO, CTX_GAIN, DP_INFO) is
ignored, and a host write of ARG0, ARG1 or ARG2 stores the word and does nothing else (10_state.md R21 to R24, R30 to
R32, R36). -/
def Obligations.HostWritesOfPlainRegisters : Prop :=
  ∀ (s : State) (off : BitVec 17) (v : Word32) (es : List HostEvent), s.pending = .write off 32 v :: es →
    (off ∈ ([0x000, 0x004, 0x008, 0x00C, 0x010, 0x034, 0x038, 0x03C, 0x100, 0x104, 0x110, 0x114, 0x180,
        0x190] : List (BitVec 17)) → step s = .next { s with pending := es }) ∧
    (off = 0x020 → step s = .next { s with pending := es, arg0 := v }) ∧
    (off = 0x024 → step s = .next { s with pending := es, arg1 := v }) ∧
    (off = 0x028 → step s = .next { s with pending := es, arg2 := v })

/-- STATUS and CTRL: STATUS reads LAST_ERR in bits 3:0 as the code numbers 0 to 5 of the error table, ERR in bit 8, SAT
in bit 9 and 0 elsewhere (BUSY among them); a host write clears ERR and SAT where it has a 1 and changes nothing else; CTRL keeps bits 1:0 of what is written and
reads 0 above (10_state.md R25 to R28; 60_exceptions.md R251). -/
def Obligations.StatusAndCtrlRegisters : Prop :=
  (∀ s : State, ∃ (w : Word32) (code : Nat), readPort s (portOf 0x018) = .ok w ∧
    w.toNat = code + (if s.err then 2 ^ 8 else 0) + (if s.sat then 2 ^ 9 else 0) ∧
    (s.lastErr = .ok → code = 0) ∧ (s.lastErr = .illegal → code = 1) ∧ (s.lastErr = .misuse → code = 2) ∧
    (s.lastErr = .config → code = 3) ∧ (s.lastErr = .resource → code = 4) ∧ (s.lastErr = .bounds → code = 5)) ∧
  (∀ s : State, ∃ w : Word32, readPort s (portOf 0x014) = .ok w ∧
    w.toNat = (if s.errIe then 1 else 0) + (if s.satIe then 2 else 0)) ∧
  (∀ (s : State) (v : Word32) (es : List HostEvent), s.pending = .write 0x018 32 v :: es →
    step s = .next { s with pending := es, err := s.err && !v.getLsbD 8, sat := s.sat && !v.getLsbD 9 }) ∧
  (∀ (s : State) (v : Word32) (es : List HostEvent), s.pending = .write 0x014 32 v :: es →
    step s = .next { s with pending := es, errIe := v.getLsbD 0, satIe := v.getLsbD 1 })

/-- What a host read returns in every state: the stored word for CMD, ARG0 to ARG2 and RES; the constants ID and PARAM0
to PARAM3; ACC in ACC_HI and ACC_LO together; STATE, KIND, M and L in CTX_INFO and the gain sign-extended in CTX_GAIN for
a READY context, 0 for an UNINIT one and STATE = 2 for a DESTROYED one; STATE and N in DP_INFO (10_state.md R21 to R24,
R29 to R32, R36). -/
def Obligations.ReadOnlyWindowsShowState : Prop :=
  (∀ s : State, readPort s (portOf 0x01C) = .ok s.cmd ∧ readPort s (portOf 0x020) = .ok s.arg0 ∧
    readPort s (portOf 0x024) = .ok s.arg1 ∧ readPort s (portOf 0x028) = .ok s.arg2 ∧
    readPort s (portOf 0x03C) = .ok s.res) ∧
  (∀ s : State, readPort s (portOf 0x000) = .ok 0x4C510001 ∧ readPort s (portOf 0x004) = .ok 0x00280C10 ∧
    readPort s (portOf 0x008) = .ok 0x01000010 ∧ readPort s (portOf 0x00C) = .ok 0x00220400 ∧
    readPort s (portOf 0x010) = .ok 0x00001000) ∧
  (∀ s : State, ∃ lo hi : Word32, readPort s (portOf 0x034) = .ok lo ∧ readPort s (portOf 0x038) = .ok hi ∧
    hi.toInt * 2 ^ 32 + lo.toNat = s.acc.toInt) ∧
  (∀ (s : State) (c : Nat) (o : Interp), s.ctx.get? c = some (.ready o) → o.wf = true →
    ∃ info gain : Word32, readPort s (portOf (BitVec.ofNat 17 (0x100 + 0x10 * c))) = .ok info ∧
      info.toNat = 1 + (if o.kind = .kaiser then 4 else 0) + 2 ^ 8 * o.M + 2 ^ 16 * o.L ∧
      readPort s (portOf (BitVec.ofNat 17 (0x104 + 0x10 * c))) = .ok gain ∧ gain.toInt = o.gain.toInt) ∧
  (∀ (s : State) (k : Nat) (d : DotProduct), s.slots.get? k = some (.ready d) → d.wf = true →
    ∃ info : Word32, readPort s (portOf (BitVec.ofNat 17 (0x180 + 0x10 * k))) = .ok info ∧
      info.toNat = 1 + 2 ^ 16 * d.n) ∧
  (∀ (s : State) (c : Nat), s.ctx.get? c = some .uninit ∨ s.ctx.get? c = some .destroyed →
    readPort s (portOf (BitVec.ofNat 17 (0x100 + 0x10 * c))) = .ok (if s.ctx.get? c = some .uninit then 0 else 2) ∧
    readPort s (portOf (BitVec.ofNat 17 (0x104 + 0x10 * c))) = .ok 0) ∧
  (∀ (s : State) (k : Nat), s.slots.get? k = some .empty →
    readPort s (portOf (BitVec.ofNat 17 (0x180 + 0x10 * k))) = .ok 0)

/-- irq at every state: ERR counts only under ERR_IE and SAT only under SAT_IE, so a masked source leaves irq 0. It is
asserted as soon as the command that sets an enabled sticky bit completes; the host's write of 1 to the sticky bits of
STATUS takes it away, and so does a write of CTRL that clears the enables, each source by its own bit
(60_exceptions.md R260; 10_state.md R40). -/
def Obligations.InterruptFollowsStickyBits : Prop :=
  (∀ s : State, irq s = true ↔ s.err = true ∧ s.errIe = true ∨ s.sat = true ∧ s.satIe = true) ∧
  (∀ s : State, s.errIe = false → s.satIe = false → irq s = false) ∧
  (∀ (i : Instr) (s t : State), exec i s = .next t →
    (t.lastErr ≠ .ok → s.errIe = true → irq t = true) ∧ (t.sat = true → s.satIe = true → irq t = true)) ∧
  (∀ (s : State) (v : Word32) (es : List HostEvent), s.pending = .write 0x018 32 v :: es →
    (v.getLsbD 8 = true ∨ s.errIe = false) → (v.getLsbD 9 = true ∨ s.satIe = false) →
    ∃ t, step s = .next t ∧ irq t = false) ∧
  (∀ (s : State) (v : Word32) (es : List HostEvent), s.pending = .write 0x014 32 v :: es →
    (v.getLsbD 0 = false ∨ s.err = false) → (v.getLsbD 1 = false ∨ s.sat = false) →
    ∃ t, step s = .next t ∧ irq t = false)

/-! ## Invariants -/

/-- Every step keeps the invariant, from every state that meets it: DMEM stays canonical and inside 4096 words, every
READY slot has 1 to 256 coefficients, every READY context has legal M and L and tap, phase and history lengths to match
(10_state.md R33, R35; 20_memory.md R50). -/
def Obligations.StepKeepsInvariant : Prop :=
  ∀ s t : State, s.inv = true → step s = .next t → t.inv = true

/-- The machine after reset meets the invariant (70_reset_and_hazards.md R280). -/
def Obligations.ResetMeetsInvariant : Prop := State.reset.inv = true
end

