-- ==== Sys2Proof/Laws/Arith.lean ====
section
/-! SUPPORT. What the arithmetic operations give, in plain integer arithmetic (00_scope.md R9;
40_fixedpoint.md R102 to R107). -/

namespace Sys2Proof.Machine

theorem satMin_w : satMin Config.W = -32768 := by decide

theorem satMax_w : satMax Config.W = 32767 := by decide

theorem satMin_a : satMin Config.A = -549755813888 := by decide

theorem satMax_a : satMax Config.A = 549755813887 := by decide

/-- The shift by F is floor division by 4096 (R102). -/
theorem asr_f (v : Int) : asr v Config.F = v / 4096 := rfl

/-- `sat_N` is the clamp to the N-bit range when that range is not empty. -/
theorem satN_val {n : Nat} (h : satMin n ≤ satMax n) (v : Int) :
    (satN n v).val = max (satMin n) (min (satMax n) v) := by
  unfold satN
  split
  · simp only; omega
  · split
    · simp only; omega
    · simp only; omega

/-- `sat_N` flags exactly the values outside the N-bit range. -/
theorem satN_clipped (n : Nat) (v : Int) :
    (satN n v).clipped = decide (v < satMin n ∨ satMax n < v) := by
  unfold satN
  split
  · simp [*]
  · split <;> simp [*]

/-- A value in range passes `sat_N` unchanged. -/
theorem satN_in_range {n : Nat} {v : Int} (lo : satMin n ≤ v) (hi : v ≤ satMax n) :
    satN n v = ⟨v, false⟩ := by
  unfold satN
  rw [if_neg (by omega), if_neg (by omega)]

/-- The value of a narrowing (R104). -/
theorem narrow_val (v : Int) : (narrow v).val = max (-32768) (min 32767 (v / 4096)) := by
  rw [narrow, satN_val (by decide), satMin_w, satMax_w, asr_f]

/-- The flag of a narrowing (R104). -/
theorem narrow_clipped (v : Int) :
    (narrow v).clipped = decide (v / 4096 < -32768 ∨ 32767 < v / 4096) := by
  rw [narrow, satN_clipped, satMin_w, satMax_w, asr_f]

/-- A narrowed value is a W-bit value. -/
theorem narrow_range (v : Int) : -32768 ≤ (narrow v).val ∧ (narrow v).val ≤ 32767 := by
  rw [narrow_val]; omega

/-- The value of one accumulation (R103). -/
theorem accumulate_val (s : Clamped) (p : Int) :
    (accumulate s p).val = max (-549755813888) (min 549755813887 (s.val + p)) := by
  rw [accumulate, Clamped.andThen, satN_val (by decide), satMin_a, satMax_a]

/-- The flag of one accumulation (R103). -/
theorem accumulate_clipped (s : Clamped) (p : Int) :
    (accumulate s p).clipped =
      (s.clipped || decide (s.val + p < -549755813888 ∨ 549755813887 < s.val + p)) := by
  rw [accumulate, Clamped.andThen, satN_clipped, satMin_a, satMax_a]

/-- An accumulation whose sum fits is exact and flags nothing. -/
theorem accumulate_fits {s : Clamped} {p : Int} (lo : -549755813888 ≤ s.val + p)
    (hi : s.val + p ≤ 549755813887) : accumulate s p = ⟨s.val + p, s.clipped⟩ := by
  simp only [accumulate, Clamped.andThen]
  rw [satN_in_range (by rw [satMin_a]; exact lo) (by rw [satMax_a]; exact hi), Bool.or_false]

@[simp] theorem Clamped.andThen_val (c : Clamped) (f : Int → Clamped) :
    (c.andThen f).val = (f c.val).val := rfl

@[simp] theorem Clamped.andThen_clipped (c : Clamped) (f : Int → Clamped) :
    (c.andThen f).clipped = (c.clipped || (f c.val).clipped) := rfl

/-- A W-bit value survives its word. -/
theorem toSample_toInt {v : Int} (lo : -32768 ≤ v) (hi : v ≤ 32767) : (toSample v).toInt = v := by
  rw [toSample, BitVec.toInt_ofInt, Int.bmod_eq_of_le (by simp; omega) (by simp; omega)]

/-- The word of a word's value is that word. -/
@[simp] theorem toSample_of_toInt (q : Sample) : toSample q.toInt = q := BitVec.ofInt_toInt

/-- The range of a data word (R101). -/
theorem sample_range (q : Sample) : -32768 ≤ q.toInt ∧ q.toInt ≤ 32767 := by
  have h1 := BitVec.le_toInt q
  have h2 := BitVec.toInt_lt (x := q)
  norm_num at h1 h2
  omega

/-- RES holds a W-bit result sign-extended (10_state.md R22). -/
theorem resWord_eq {v : Int} (lo : -32768 ≤ v) (hi : v ≤ 32767) : resWord v = BitVec.ofInt 32 v := by
  rw [resWord, BitVec.signExtend, toSample_toInt lo hi]

theorem unitGain_eq : unitGain = 0x1000#16 := by decide

theorem unitGain_toInt : unitGain.toInt = 4096 := by decide

/-- A sign and a magnitude. -/
theorem signed_natAbs (neg : Bool) (m : Nat) : (signed neg m).natAbs = m := by
  cases neg <;> simp [signed]

/-- Rounding an integer magnitude scaled up is exact (R107). -/
theorem roundMagnitude_nonneg (m k : Nat) : roundMagnitude m (k : Int) = m * 2 ^ k := rfl

/-- The range of a product of two data words (R101). -/
theorem product_range (a b : Sample) :
    -1073741824 ≤ a.toInt * b.toInt ∧ a.toInt * b.toInt ≤ 1073741824 := by
  obtain ⟨a1, a2⟩ := sample_range a
  obtain ⟨b1, b2⟩ := sample_range b
  constructor <;> nlinarith

end Sys2Proof.Machine
end

