-- ==== Sys2Proof/Laws/Memory.lean ====
section
/-! SUPPORT. The laws of DMEM: a read after a write, and that every operation keeps the canonical form
(00_scope.md R9; 20_memory.md R50, R56). -/

namespace Sys2Proof.Machine

@[simp] theorem Memory.read_nil (a : Nat) : Memory.read [] a = none := rfl

/-- A word just written reads as written. -/
@[simp] theorem Memory.read_write_same (m : Memory) (a : Nat) (v : Sample) : (m.write a v).read a = some v := by
  induction m with
  | nil => simp [Memory.write, Memory.read]
  | cons c m ih =>
    obtain ⟨b, w⟩ := c
    simp only [Memory.write]
    split
    · simp [Memory.read]
    · split
      · simp [Memory.read]
      · simp [Memory.read, *]

/-- Every other word reads as before. -/
theorem Memory.read_write_ne (m : Memory) {a b : Nat} (v : Sample) (h : b ≠ a) :
    (m.write a v).read b = m.read b := by
  induction m with
  | nil => simp [Memory.write, Memory.read, h]
  | cons c m ih =>
    obtain ⟨d, w⟩ := c
    simp only [Memory.write]
    split
    · simp [Memory.read, h]
    · split
      · next hd => subst hd; simp [Memory.read, h]
      · simp only [Memory.read, ih]

/-- A read after a write, in one line. -/
theorem Memory.read_write (m : Memory) (a b : Nat) (v : Sample) :
    (m.write a v).read b = if b = a then some v else m.read b := by
  split
  · next h => subst h; simp
  · next h => exact m.read_write_ne v h

@[simp] theorem Memory.writeMany_nil (m : Memory) (a : Nat) : m.writeMany a [] = m := rfl

@[simp] theorem Memory.writeMany_cons (m : Memory) (a : Nat) (v : Sample) (vs : List Sample) :
    m.writeMany a (v :: vs) = (m.write a v).writeMany (a + 1) vs := rfl

/-- A vector written at `a` is read back inside its range, and nothing else changes. -/
theorem Memory.read_writeMany (vs : List Sample) (m : Memory) (a b : Nat) :
    (m.writeMany a vs).read b =
      if a ≤ b ∧ b < a + vs.length then vs[b - a]? else m.read b := by
  induction vs generalizing m a with
  | nil =>
    rw [Memory.writeMany_nil, if_neg (by simp only [List.length_nil]; omega)]
  | cons v vs ih =>
    rw [Memory.writeMany_cons, ih, Memory.read_write]
    by_cases hb : b = a
    · subst hb; simp
    · by_cases h : a ≤ b ∧ b < a + (v :: vs).length
      · have h' : a + 1 ≤ b ∧ b < a + 1 + vs.length := by simp at h; omega
        rw [if_pos h', if_pos h]
        have : b - a = (b - (a + 1)) + 1 := by omega
        rw [this, List.getElem?_cons_succ]
      · have h' : ¬(a + 1 ≤ b ∧ b < a + 1 + vs.length) := by simp at h; omega
        rw [if_neg h', if_neg h, if_neg hb]

/-- Outside a written vector nothing changes. -/
theorem Memory.read_writeMany_outside (m : Memory) (vs : List Sample) {a b : Nat}
    (h : b < a ∨ a + vs.length ≤ b) : (m.writeMany a vs).read b = m.read b := by
  rw [Memory.read_writeMany, if_neg (by omega)]

/-- Inside a written vector its elements are read. -/
theorem Memory.read_writeMany_inside (m : Memory) (vs : List Sample) {a i : Nat} (h : i < vs.length) :
    (m.writeMany a vs).read (a + i) = vs[i]? := by
  rw [Memory.read_writeMany, if_pos (by omega)]
  congr 1
  omega

/-- A write never makes a word unwritten. -/
theorem Memory.write_keeps_written (m : Memory) (a b : Nat) (v : Sample) (h : (m.write a v).read b = none) :
    m.read b = none := by
  rw [Memory.read_write] at h
  split at h
  · cases h
  · exact h

theorem Memory.writeMany_keeps_written (vs : List Sample) (m : Memory) (a b : Nat)
    (h : (m.writeMany a vs).read b = none) : m.read b = none := by
  induction vs generalizing m a with
  | nil => exact h
  | cons v vs ih => exact m.write_keeps_written a b v (ih _ _ h)

/-- What MemRead answers (R9, R56): all the words of the range, or the first unwritten index in it. -/
theorem Memory.readMany_ok_iff (m : Memory) (a n : Nat) (vs : List Sample) :
    m.readMany a n = .ok vs ↔ vs.length = n ∧ ∀ j < n, m.read (a + j) = vs[j]? := by
  induction n generalizing a vs with
  | zero =>
    simp only [Memory.readMany, Except.ok.injEq]
    constructor
    · rintro rfl; simp
    · rintro ⟨h, -⟩; exact (List.eq_nil_of_length_eq_zero h).symm
  | succ n ih =>
    simp only [Memory.readMany]
    cases hr : m.read a with
    | none =>
      simp only [reduceCtorEq, false_iff]
      rintro ⟨h1, h2⟩
      have := h2 0 (by omega)
      rw [Nat.add_zero, hr] at this
      cases vs with
      | nil => simp at h1
      | cons v vs => simp at this
    | some v =>
      simp only
      cases hm : m.readMany (a + 1) n with
      | error i =>
        simp only [reduceCtorEq, false_iff]
        rintro ⟨h1, h2⟩
        cases vs with
        | nil => simp at h1
        | cons w vs =>
          have : m.readMany (a + 1) n = .ok vs := (ih (a + 1) vs).2
            ⟨by simpa using h1, fun j hj => by
              have := h2 (j + 1) (by omega)
              rw [List.getElem?_cons_succ] at this
              rw [← this]; congr 1; omega⟩
          rw [this] at hm; cases hm
      | ok us =>
        have hus := (ih (a + 1) us).1 hm
        simp only [Except.ok.injEq]
        constructor
        · rintro rfl
          refine ⟨by simp [hus.1], fun j hj => ?_⟩
          cases j with
          | zero => simpa using hr
          | succ j =>
            rw [List.getElem?_cons_succ, ← hus.2 j (by omega)]
            congr 1; omega
        · rintro ⟨h1, h2⟩
          cases vs with
          | nil => simp at h1
          | cons w vs =>
            have h0 := h2 0 (by omega)
            rw [Nat.add_zero, hr] at h0
            simp only [List.length_cons, Nat.add_right_cancel_iff, List.getElem?_cons_zero,
              Option.some.injEq] at h1 h0
            have : m.readMany (a + 1) n = .ok vs := (ih (a + 1) vs).2 ⟨h1, fun j hj => by
              have := h2 (j + 1) (by omega)
              rw [List.getElem?_cons_succ] at this
              rw [← this]; congr 1; omega⟩
            rw [hm] at this
            rw [h0]; simpa using this

/-- Where MemRead stops: an unwritten word of its range, every word before it written. -/
theorem Memory.readMany_error (m : Memory) (a n i : Nat) (h : m.readMany a n = .error i) :
    a ≤ i ∧ i < a + n ∧ m.read i = none ∧ ∀ j, a ≤ j → j < i → m.read j ≠ none := by
  induction n generalizing a with
  | zero => cases h
  | succ n ih =>
    simp only [Memory.readMany] at h
    cases hr : m.read a with
    | none =>
      simp only [hr, Except.error.injEq] at h
      subst h
      exact ⟨le_refl _, by omega, hr, fun j h1 h2 => by omega⟩
    | some v =>
      simp only [hr] at h
      cases hm : m.readMany (a + 1) n with
      | ok us => simp only [hm, reduceCtorEq] at h
      | error k =>
        simp only [hm, Except.error.injEq] at h
        subst h
        obtain ⟨h1, h2, h3, h4⟩ := ih (a + 1) hm
        refine ⟨by omega, by omega, h3, fun j hj1 hj2 => ?_⟩
        by_cases hj : j = a
        · subst hj; simp [hr]
        · exact h4 j (by omega) hj2

/-- MemRead stops at the first unwritten word of its range (R9, R56). -/
theorem Memory.readMany_unwritten {m : Memory} {a n j : Nat} (hj : j < n) (hn : m.read (a + j) = none)
    (hw : ∀ j' < j, m.read (a + j') ≠ none) : m.readMany a n = .error (a + j) := by
  cases h : m.readMany a n with
  | ok vs =>
    obtain ⟨hl, hv⟩ := (m.readMany_ok_iff a n vs).1 h
    have := hv j hj
    rw [hn, List.getElem?_eq_getElem (by omega)] at this
    cases this
  | error i =>
    obtain ⟨h1, -, h3, h4⟩ := m.readMany_error a n i h
    rcases Nat.lt_trichotomy i (a + j) with hi | hi | hi
    · exact absurd (by rw [Nat.add_sub_cancel' h1]; exact h3) (hw (i - a) (by omega))
    · rw [hi]
    · exact absurd hn (h4 (a + j) (by omega) hi)

theorem Memory.readMany_length {m : Memory} {a n : Nat} {vs : List Sample} (h : m.readMany a n = .ok vs) :
    vs.length = n := ((Memory.readMany_ok_iff m a n vs).1 h).1

/-- A complex sample is read when both its words are written (20_memory.md R58). -/
theorem Memory.readIQ_ok_iff (m : Memory) (a : Nat) (x : IQ) :
    m.readIQ a = .ok x ↔ m.read a = some x.i ∧ m.read (a + 1) = some x.q := by
  cases h1 : m.read a with
  | none => simp [Memory.readIQ, h1]
  | some i =>
    cases h2 : m.read (a + 1) with
    | none => simp [Memory.readIQ, h1, h2]
    | some q =>
      obtain ⟨xi, xq⟩ := x
      simp [Memory.readIQ, h1, h2]

/-- Where reading a complex sample stops. -/
theorem Memory.readIQ_error {m : Memory} {a i : Nat} (h : m.readIQ a = .error i) :
    (i = a ∨ i = a + 1) ∧ m.read i = none := by
  simp only [Memory.readIQ] at h
  cases h1 : m.read a with
  | none => simp only [h1, Except.error.injEq] at h; subst h; exact ⟨.inl rfl, h1⟩
  | some v =>
    cases h2 : m.read (a + 1) with
    | none => simp only [h1, h2, Except.error.injEq] at h; subst h; exact ⟨.inr rfl, h2⟩
    | some q => simp only [h1, h2, reduceCtorEq] at h

/-- Reading a complex sample stops at I when it is unwritten, else at an unwritten Q (R56, R58). -/
theorem Memory.readIQ_unwritten {m : Memory} {a j : Nat} (hj : j < 2) (hn : m.read (a + j) = none)
    (hw : ∀ j' < j, m.read (a + j') ≠ none) : m.readIQ a = .error (a + j) := by
  obtain rfl | rfl : j = 0 ∨ j = 1 := by omega
  · simp only [Nat.add_zero] at hn
    simp [Memory.readIQ, hn]
  · cases hi : m.read a with
    | none => exact absurd hi (hw 0 (by omega))
    | some i => simp [Memory.readIQ, hi, hn]

/-! The canonical form -/

theorem Memory.rising_mono {m : Memory} {lo lo' : Nat} (h : m.rising lo = true) (hl : lo' ≤ lo) :
    m.rising lo' = true := by
  cases m with
  | nil => rfl
  | cons c m =>
    obtain ⟨b, v⟩ := c
    simp only [Memory.rising, Bool.and_eq_true, decide_eq_true_eq] at h ⊢
    exact ⟨by omega, h.2⟩

theorem Memory.rising_write {m : Memory} {lo a : Nat} (v : Sample) (h : m.rising lo = true) (hl : lo ≤ a) :
    (m.write a v).rising lo = true := by
  induction m generalizing lo with
  | nil => simp [Memory.write, Memory.rising, hl]
  | cons c m ih =>
    obtain ⟨b, w⟩ := c
    simp only [Memory.rising, Bool.and_eq_true, decide_eq_true_eq] at h
    simp only [Memory.write]
    split
    · simp only [Memory.rising, Bool.and_eq_true, decide_eq_true_eq]
      exact ⟨hl, by omega, h.2⟩
    · split
      · next hab => subst hab; simp only [Memory.rising, Bool.and_eq_true, decide_eq_true_eq]; exact h
      · simp only [Memory.rising, Bool.and_eq_true, decide_eq_true_eq]
        exact ⟨h.1, ih h.2 (by omega)⟩

theorem Memory.mem_write {m : Memory} {a : Nat} {v : Sample} {c : Nat × Sample} (h : c ∈ m.write a v) :
    c = (a, v) ∨ c ∈ m := by
  induction m with
  | nil => simpa [Memory.write] using h
  | cons d m ih =>
    obtain ⟨b, w⟩ := d
    simp only [Memory.write] at h
    split at h
    · simpa using h
    · split at h
      · simp only [List.mem_cons] at h ⊢
        tauto
      · simp only [List.mem_cons] at h ⊢
        rcases h with h | h
        · tauto
        · have := ih h; tauto

/-- Writing a word that exists keeps the canonical form. -/
theorem Memory.wf_write {m : Memory} {a : Nat} (v : Sample) (h : m.wf = true) (ha : a < Config.dmemWords) :
    (m.write a v).wf = true := by
  simp only [Memory.wf, Bool.and_eq_true, List.all_eq_true, decide_eq_true_eq] at h ⊢
  refine ⟨Memory.rising_write v h.1 (Nat.zero_le a), fun c hc => ?_⟩
  rcases Memory.mem_write hc with rfl | hc
  · exact ha
  · exact h.2 c hc

/-- Writing a vector inside DMEM keeps the canonical form. -/
theorem Memory.wf_writeMany {vs : List Sample} {m : Memory} {a : Nat} (h : m.wf = true)
    (ha : vs = [] ∨ a + vs.length ≤ Config.dmemWords) : (m.writeMany a vs).wf = true := by
  induction vs generalizing m a with
  | nil => exact h
  | cons v vs ih =>
    simp only [reduceCtorEq, List.length_cons, false_or] at ha
    exact ih (Memory.wf_write v h (by omega)) (.inr (by omega))

theorem Memory.wf_nil : Memory.wf [] = true := by decide

theorem Memory.read_below {m : Memory} {lo a : Nat} (h : m.rising lo = true) (ha : a < lo) : m.read a = none := by
  induction m generalizing lo with
  | nil => rfl
  | cons c m ih =>
    obtain ⟨b, v⟩ := c
    simp only [Memory.rising, Bool.and_eq_true, decide_eq_true_eq] at h
    rw [Memory.read, if_neg (by omega)]
    exact ih h.2 (by omega)

/-- Two memories in rising order that read the same everywhere are the same data. -/
theorem Memory.ext_of_rising {m m' : Memory} {lo lo' : Nat} (h : m.rising lo = true) (h' : m'.rising lo' = true)
    (heq : ∀ a, m.read a = m'.read a) : m = m' := by
  induction m generalizing m' lo lo' with
  | nil =>
    cases m' with
    | nil => rfl
    | cons c m' => have := heq c.1; simp [Memory.read] at this
  | cons c m ih =>
    obtain ⟨b, v⟩ := c
    cases m' with
    | nil => have := heq b; simp [Memory.read] at this
    | cons d m' =>
      obtain ⟨b', v'⟩ := d
      simp only [Memory.rising, Bool.and_eq_true, decide_eq_true_eq] at h h'
      have hb : b = b' := by
        rcases Nat.lt_trichotomy b b' with hlt | he | hgt
        · have := heq b
          rw [Memory.read, if_pos rfl, Memory.read, if_neg (by omega), Memory.read_below h'.2 (by omega)] at this
          cases this
        · exact he
        · have := heq b'
          rw [Memory.read, if_neg (by omega), Memory.read_below h.2 (by omega), Memory.read, if_pos rfl] at this
          cases this
      subst hb
      have hv : v = v' := by have := heq b; simpa [Memory.read] using this
      subst hv
      congr 1
      refine ih h.2 h'.2 fun a => ?_
      by_cases ha : a = b
      · rw [ha, Memory.read_below h.2 (by omega), Memory.read_below h'.2 (by omega)]
      · have := heq a
        rwa [Memory.read, if_neg ha, Memory.read, if_neg ha] at this

/-- Equal memories are equal data. -/
theorem Memory.ext_of_wf {m m' : Memory} (h : m.wf = true) (h' : m'.wf = true)
    (heq : ∀ a, m.read a = m'.read a) : m = m' := by
  simp only [Memory.wf, Bool.and_eq_true] at h h'
  exact Memory.ext_of_rising h.1 h'.1 heq

end Sys2Proof.Machine
end

