-- ==== Sys2Proof/Laws/State.lean ====
section
/-! SUPPORT. What each named update of State does to each field: one lemma per field per update. -/

namespace Sys2Proof.Machine

variable (s : State)

/-! `setRes` changes RES and nothing else. -/

@[simp] theorem State.setRes_arg0 (v : Word32) : (s.setRes v).arg0 = s.arg0 := rfl
@[simp] theorem State.setRes_arg1 (v : Word32) : (s.setRes v).arg1 = s.arg1 := rfl
@[simp] theorem State.setRes_arg2 (v : Word32) : (s.setRes v).arg2 = s.arg2 := rfl
@[simp] theorem State.setRes_res (v : Word32) : (s.setRes v).res = v := rfl
@[simp] theorem State.setRes_errIe (v : Word32) : (s.setRes v).errIe = s.errIe := rfl
@[simp] theorem State.setRes_satIe (v : Word32) : (s.setRes v).satIe = s.satIe := rfl
@[simp] theorem State.setRes_lastErr (v : Word32) : (s.setRes v).lastErr = s.lastErr := rfl
@[simp] theorem State.setRes_err (v : Word32) : (s.setRes v).err = s.err := rfl
@[simp] theorem State.setRes_sat (v : Word32) : (s.setRes v).sat = s.sat := rfl
@[simp] theorem State.setRes_cmd (v : Word32) : (s.setRes v).cmd = s.cmd := rfl
@[simp] theorem State.setRes_acc (v : Word32) : (s.setRes v).acc = s.acc := rfl
@[simp] theorem State.setRes_ctx (v : Word32) : (s.setRes v).ctx = s.ctx := rfl
@[simp] theorem State.setRes_slots (v : Word32) : (s.setRes v).slots = s.slots := rfl
@[simp] theorem State.setRes_mem (v : Word32) : (s.setRes v).mem = s.mem := rfl
@[simp] theorem State.setRes_pending (v : Word32) : (s.setRes v).pending = s.pending := rfl
@[simp] theorem State.setRes_reads (v : Word32) : (s.setRes v).reads = s.reads := rfl

/-! `setAcc` changes ACC and nothing else. -/

@[simp] theorem State.setAcc_arg0 (v : AccWord) : (s.setAcc v).arg0 = s.arg0 := rfl
@[simp] theorem State.setAcc_arg1 (v : AccWord) : (s.setAcc v).arg1 = s.arg1 := rfl
@[simp] theorem State.setAcc_arg2 (v : AccWord) : (s.setAcc v).arg2 = s.arg2 := rfl
@[simp] theorem State.setAcc_res (v : AccWord) : (s.setAcc v).res = s.res := rfl
@[simp] theorem State.setAcc_errIe (v : AccWord) : (s.setAcc v).errIe = s.errIe := rfl
@[simp] theorem State.setAcc_satIe (v : AccWord) : (s.setAcc v).satIe = s.satIe := rfl
@[simp] theorem State.setAcc_lastErr (v : AccWord) : (s.setAcc v).lastErr = s.lastErr := rfl
@[simp] theorem State.setAcc_err (v : AccWord) : (s.setAcc v).err = s.err := rfl
@[simp] theorem State.setAcc_sat (v : AccWord) : (s.setAcc v).sat = s.sat := rfl
@[simp] theorem State.setAcc_cmd (v : AccWord) : (s.setAcc v).cmd = s.cmd := rfl
@[simp] theorem State.setAcc_acc (v : AccWord) : (s.setAcc v).acc = v := rfl
@[simp] theorem State.setAcc_ctx (v : AccWord) : (s.setAcc v).ctx = s.ctx := rfl
@[simp] theorem State.setAcc_slots (v : AccWord) : (s.setAcc v).slots = s.slots := rfl
@[simp] theorem State.setAcc_mem (v : AccWord) : (s.setAcc v).mem = s.mem := rfl
@[simp] theorem State.setAcc_pending (v : AccWord) : (s.setAcc v).pending = s.pending := rfl
@[simp] theorem State.setAcc_reads (v : AccWord) : (s.setAcc v).reads = s.reads := rfl

/-! `setCmd` changes CMD and nothing else. -/

@[simp] theorem State.setCmd_arg0 (v : Word32) : (s.setCmd v).arg0 = s.arg0 := rfl
@[simp] theorem State.setCmd_arg1 (v : Word32) : (s.setCmd v).arg1 = s.arg1 := rfl
@[simp] theorem State.setCmd_arg2 (v : Word32) : (s.setCmd v).arg2 = s.arg2 := rfl
@[simp] theorem State.setCmd_res (v : Word32) : (s.setCmd v).res = s.res := rfl
@[simp] theorem State.setCmd_errIe (v : Word32) : (s.setCmd v).errIe = s.errIe := rfl
@[simp] theorem State.setCmd_satIe (v : Word32) : (s.setCmd v).satIe = s.satIe := rfl
@[simp] theorem State.setCmd_lastErr (v : Word32) : (s.setCmd v).lastErr = s.lastErr := rfl
@[simp] theorem State.setCmd_err (v : Word32) : (s.setCmd v).err = s.err := rfl
@[simp] theorem State.setCmd_sat (v : Word32) : (s.setCmd v).sat = s.sat := rfl
@[simp] theorem State.setCmd_cmd (v : Word32) : (s.setCmd v).cmd = v := rfl
@[simp] theorem State.setCmd_acc (v : Word32) : (s.setCmd v).acc = s.acc := rfl
@[simp] theorem State.setCmd_ctx (v : Word32) : (s.setCmd v).ctx = s.ctx := rfl
@[simp] theorem State.setCmd_slots (v : Word32) : (s.setCmd v).slots = s.slots := rfl
@[simp] theorem State.setCmd_mem (v : Word32) : (s.setCmd v).mem = s.mem := rfl
@[simp] theorem State.setCmd_pending (v : Word32) : (s.setCmd v).pending = s.pending := rfl
@[simp] theorem State.setCmd_reads (v : Word32) : (s.setCmd v).reads = s.reads := rfl

/-! `setMem` changes DMEM and nothing else. -/

@[simp] theorem State.setMem_arg0 (m : Memory) : (s.setMem m).arg0 = s.arg0 := rfl
@[simp] theorem State.setMem_arg1 (m : Memory) : (s.setMem m).arg1 = s.arg1 := rfl
@[simp] theorem State.setMem_arg2 (m : Memory) : (s.setMem m).arg2 = s.arg2 := rfl
@[simp] theorem State.setMem_res (m : Memory) : (s.setMem m).res = s.res := rfl
@[simp] theorem State.setMem_errIe (m : Memory) : (s.setMem m).errIe = s.errIe := rfl
@[simp] theorem State.setMem_satIe (m : Memory) : (s.setMem m).satIe = s.satIe := rfl
@[simp] theorem State.setMem_lastErr (m : Memory) : (s.setMem m).lastErr = s.lastErr := rfl
@[simp] theorem State.setMem_err (m : Memory) : (s.setMem m).err = s.err := rfl
@[simp] theorem State.setMem_sat (m : Memory) : (s.setMem m).sat = s.sat := rfl
@[simp] theorem State.setMem_cmd (m : Memory) : (s.setMem m).cmd = s.cmd := rfl
@[simp] theorem State.setMem_acc (m : Memory) : (s.setMem m).acc = s.acc := rfl
@[simp] theorem State.setMem_ctx (m : Memory) : (s.setMem m).ctx = s.ctx := rfl
@[simp] theorem State.setMem_slots (m : Memory) : (s.setMem m).slots = s.slots := rfl
@[simp] theorem State.setMem_mem (m : Memory) : (s.setMem m).mem = m := rfl
@[simp] theorem State.setMem_pending (m : Memory) : (s.setMem m).pending = s.pending := rfl
@[simp] theorem State.setMem_reads (m : Memory) : (s.setMem m).reads = s.reads := rfl

/-! `setCtx` changes one context and nothing else. -/

@[simp] theorem State.setCtx_arg0 (c : Nat) (x : Context) : (s.setCtx c x).arg0 = s.arg0 := rfl
@[simp] theorem State.setCtx_arg1 (c : Nat) (x : Context) : (s.setCtx c x).arg1 = s.arg1 := rfl
@[simp] theorem State.setCtx_arg2 (c : Nat) (x : Context) : (s.setCtx c x).arg2 = s.arg2 := rfl
@[simp] theorem State.setCtx_res (c : Nat) (x : Context) : (s.setCtx c x).res = s.res := rfl
@[simp] theorem State.setCtx_errIe (c : Nat) (x : Context) : (s.setCtx c x).errIe = s.errIe := rfl
@[simp] theorem State.setCtx_satIe (c : Nat) (x : Context) : (s.setCtx c x).satIe = s.satIe := rfl
@[simp] theorem State.setCtx_lastErr (c : Nat) (x : Context) : (s.setCtx c x).lastErr = s.lastErr := rfl
@[simp] theorem State.setCtx_err (c : Nat) (x : Context) : (s.setCtx c x).err = s.err := rfl
@[simp] theorem State.setCtx_sat (c : Nat) (x : Context) : (s.setCtx c x).sat = s.sat := rfl
@[simp] theorem State.setCtx_cmd (c : Nat) (x : Context) : (s.setCtx c x).cmd = s.cmd := rfl
@[simp] theorem State.setCtx_acc (c : Nat) (x : Context) : (s.setCtx c x).acc = s.acc := rfl
@[simp] theorem State.setCtx_ctx (c : Nat) (x : Context) : (s.setCtx c x).ctx = s.ctx.set c x := rfl
@[simp] theorem State.setCtx_slots (c : Nat) (x : Context) : (s.setCtx c x).slots = s.slots := rfl
@[simp] theorem State.setCtx_mem (c : Nat) (x : Context) : (s.setCtx c x).mem = s.mem := rfl
@[simp] theorem State.setCtx_pending (c : Nat) (x : Context) : (s.setCtx c x).pending = s.pending := rfl
@[simp] theorem State.setCtx_reads (c : Nat) (x : Context) : (s.setCtx c x).reads = s.reads := rfl

/-! `setSlot` changes one slot and nothing else. -/

@[simp] theorem State.setSlot_arg0 (k : Nat) (x : Slot) : (s.setSlot k x).arg0 = s.arg0 := rfl
@[simp] theorem State.setSlot_arg1 (k : Nat) (x : Slot) : (s.setSlot k x).arg1 = s.arg1 := rfl
@[simp] theorem State.setSlot_arg2 (k : Nat) (x : Slot) : (s.setSlot k x).arg2 = s.arg2 := rfl
@[simp] theorem State.setSlot_res (k : Nat) (x : Slot) : (s.setSlot k x).res = s.res := rfl
@[simp] theorem State.setSlot_errIe (k : Nat) (x : Slot) : (s.setSlot k x).errIe = s.errIe := rfl
@[simp] theorem State.setSlot_satIe (k : Nat) (x : Slot) : (s.setSlot k x).satIe = s.satIe := rfl
@[simp] theorem State.setSlot_lastErr (k : Nat) (x : Slot) : (s.setSlot k x).lastErr = s.lastErr := rfl
@[simp] theorem State.setSlot_err (k : Nat) (x : Slot) : (s.setSlot k x).err = s.err := rfl
@[simp] theorem State.setSlot_sat (k : Nat) (x : Slot) : (s.setSlot k x).sat = s.sat := rfl
@[simp] theorem State.setSlot_cmd (k : Nat) (x : Slot) : (s.setSlot k x).cmd = s.cmd := rfl
@[simp] theorem State.setSlot_acc (k : Nat) (x : Slot) : (s.setSlot k x).acc = s.acc := rfl
@[simp] theorem State.setSlot_ctx (k : Nat) (x : Slot) : (s.setSlot k x).ctx = s.ctx := rfl
@[simp] theorem State.setSlot_slots (k : Nat) (x : Slot) : (s.setSlot k x).slots = s.slots.set k x := rfl
@[simp] theorem State.setSlot_mem (k : Nat) (x : Slot) : (s.setSlot k x).mem = s.mem := rfl
@[simp] theorem State.setSlot_pending (k : Nat) (x : Slot) : (s.setSlot k x).pending = s.pending := rfl
@[simp] theorem State.setSlot_reads (k : Nat) (x : Slot) : (s.setSlot k x).reads = s.reads := rfl

/-! `noteSat` changes STATUS.SAT and nothing else. -/

@[simp] theorem State.noteSat_arg0 (b : Bool) : (s.noteSat b).arg0 = s.arg0 := rfl
@[simp] theorem State.noteSat_arg1 (b : Bool) : (s.noteSat b).arg1 = s.arg1 := rfl
@[simp] theorem State.noteSat_arg2 (b : Bool) : (s.noteSat b).arg2 = s.arg2 := rfl
@[simp] theorem State.noteSat_res (b : Bool) : (s.noteSat b).res = s.res := rfl
@[simp] theorem State.noteSat_errIe (b : Bool) : (s.noteSat b).errIe = s.errIe := rfl
@[simp] theorem State.noteSat_satIe (b : Bool) : (s.noteSat b).satIe = s.satIe := rfl
@[simp] theorem State.noteSat_lastErr (b : Bool) : (s.noteSat b).lastErr = s.lastErr := rfl
@[simp] theorem State.noteSat_err (b : Bool) : (s.noteSat b).err = s.err := rfl
@[simp] theorem State.noteSat_sat (b : Bool) : (s.noteSat b).sat = (s.sat || b) := rfl
@[simp] theorem State.noteSat_cmd (b : Bool) : (s.noteSat b).cmd = s.cmd := rfl
@[simp] theorem State.noteSat_acc (b : Bool) : (s.noteSat b).acc = s.acc := rfl
@[simp] theorem State.noteSat_ctx (b : Bool) : (s.noteSat b).ctx = s.ctx := rfl
@[simp] theorem State.noteSat_slots (b : Bool) : (s.noteSat b).slots = s.slots := rfl
@[simp] theorem State.noteSat_mem (b : Bool) : (s.noteSat b).mem = s.mem := rfl
@[simp] theorem State.noteSat_pending (b : Bool) : (s.noteSat b).pending = s.pending := rfl
@[simp] theorem State.noteSat_reads (b : Bool) : (s.noteSat b).reads = s.reads := rfl

/-! `finish` changes STATUS.LAST_ERR and STATUS.ERR and nothing else. -/

@[simp] theorem State.finish_arg0 (code : ErrCode) : (s.finish code).arg0 = s.arg0 := rfl
@[simp] theorem State.finish_arg1 (code : ErrCode) : (s.finish code).arg1 = s.arg1 := rfl
@[simp] theorem State.finish_arg2 (code : ErrCode) : (s.finish code).arg2 = s.arg2 := rfl
@[simp] theorem State.finish_res (code : ErrCode) : (s.finish code).res = s.res := rfl
@[simp] theorem State.finish_errIe (code : ErrCode) : (s.finish code).errIe = s.errIe := rfl
@[simp] theorem State.finish_satIe (code : ErrCode) : (s.finish code).satIe = s.satIe := rfl
@[simp] theorem State.finish_lastErr (code : ErrCode) : (s.finish code).lastErr = code := rfl
@[simp] theorem State.finish_err (code : ErrCode) : (s.finish code).err = (s.err || code != .ok) := rfl
@[simp] theorem State.finish_sat (code : ErrCode) : (s.finish code).sat = s.sat := rfl
@[simp] theorem State.finish_cmd (code : ErrCode) : (s.finish code).cmd = s.cmd := rfl
@[simp] theorem State.finish_acc (code : ErrCode) : (s.finish code).acc = s.acc := rfl
@[simp] theorem State.finish_ctx (code : ErrCode) : (s.finish code).ctx = s.ctx := rfl
@[simp] theorem State.finish_slots (code : ErrCode) : (s.finish code).slots = s.slots := rfl
@[simp] theorem State.finish_mem (code : ErrCode) : (s.finish code).mem = s.mem := rfl
@[simp] theorem State.finish_pending (code : ErrCode) : (s.finish code).pending = s.pending := rfl
@[simp] theorem State.finish_reads (code : ErrCode) : (s.finish code).reads = s.reads := rfl

/-! `setArg0` changes ARG0 and nothing else. -/

@[simp] theorem State.setArg0_arg0 (v : Word32) : (s.setArg0 v).arg0 = v := rfl
@[simp] theorem State.setArg0_arg1 (v : Word32) : (s.setArg0 v).arg1 = s.arg1 := rfl
@[simp] theorem State.setArg0_arg2 (v : Word32) : (s.setArg0 v).arg2 = s.arg2 := rfl
@[simp] theorem State.setArg0_res (v : Word32) : (s.setArg0 v).res = s.res := rfl
@[simp] theorem State.setArg0_errIe (v : Word32) : (s.setArg0 v).errIe = s.errIe := rfl
@[simp] theorem State.setArg0_satIe (v : Word32) : (s.setArg0 v).satIe = s.satIe := rfl
@[simp] theorem State.setArg0_lastErr (v : Word32) : (s.setArg0 v).lastErr = s.lastErr := rfl
@[simp] theorem State.setArg0_err (v : Word32) : (s.setArg0 v).err = s.err := rfl
@[simp] theorem State.setArg0_sat (v : Word32) : (s.setArg0 v).sat = s.sat := rfl
@[simp] theorem State.setArg0_cmd (v : Word32) : (s.setArg0 v).cmd = s.cmd := rfl
@[simp] theorem State.setArg0_acc (v : Word32) : (s.setArg0 v).acc = s.acc := rfl
@[simp] theorem State.setArg0_ctx (v : Word32) : (s.setArg0 v).ctx = s.ctx := rfl
@[simp] theorem State.setArg0_slots (v : Word32) : (s.setArg0 v).slots = s.slots := rfl
@[simp] theorem State.setArg0_mem (v : Word32) : (s.setArg0 v).mem = s.mem := rfl
@[simp] theorem State.setArg0_pending (v : Word32) : (s.setArg0 v).pending = s.pending := rfl
@[simp] theorem State.setArg0_reads (v : Word32) : (s.setArg0 v).reads = s.reads := rfl

/-! `setArg1` changes ARG1 and nothing else. -/

@[simp] theorem State.setArg1_arg0 (v : Word32) : (s.setArg1 v).arg0 = s.arg0 := rfl
@[simp] theorem State.setArg1_arg1 (v : Word32) : (s.setArg1 v).arg1 = v := rfl
@[simp] theorem State.setArg1_arg2 (v : Word32) : (s.setArg1 v).arg2 = s.arg2 := rfl
@[simp] theorem State.setArg1_res (v : Word32) : (s.setArg1 v).res = s.res := rfl
@[simp] theorem State.setArg1_errIe (v : Word32) : (s.setArg1 v).errIe = s.errIe := rfl
@[simp] theorem State.setArg1_satIe (v : Word32) : (s.setArg1 v).satIe = s.satIe := rfl
@[simp] theorem State.setArg1_lastErr (v : Word32) : (s.setArg1 v).lastErr = s.lastErr := rfl
@[simp] theorem State.setArg1_err (v : Word32) : (s.setArg1 v).err = s.err := rfl
@[simp] theorem State.setArg1_sat (v : Word32) : (s.setArg1 v).sat = s.sat := rfl
@[simp] theorem State.setArg1_cmd (v : Word32) : (s.setArg1 v).cmd = s.cmd := rfl
@[simp] theorem State.setArg1_acc (v : Word32) : (s.setArg1 v).acc = s.acc := rfl
@[simp] theorem State.setArg1_ctx (v : Word32) : (s.setArg1 v).ctx = s.ctx := rfl
@[simp] theorem State.setArg1_slots (v : Word32) : (s.setArg1 v).slots = s.slots := rfl
@[simp] theorem State.setArg1_mem (v : Word32) : (s.setArg1 v).mem = s.mem := rfl
@[simp] theorem State.setArg1_pending (v : Word32) : (s.setArg1 v).pending = s.pending := rfl
@[simp] theorem State.setArg1_reads (v : Word32) : (s.setArg1 v).reads = s.reads := rfl

/-! `setArg2` changes ARG2 and nothing else. -/

@[simp] theorem State.setArg2_arg0 (v : Word32) : (s.setArg2 v).arg0 = s.arg0 := rfl
@[simp] theorem State.setArg2_arg1 (v : Word32) : (s.setArg2 v).arg1 = s.arg1 := rfl
@[simp] theorem State.setArg2_arg2 (v : Word32) : (s.setArg2 v).arg2 = v := rfl
@[simp] theorem State.setArg2_res (v : Word32) : (s.setArg2 v).res = s.res := rfl
@[simp] theorem State.setArg2_errIe (v : Word32) : (s.setArg2 v).errIe = s.errIe := rfl
@[simp] theorem State.setArg2_satIe (v : Word32) : (s.setArg2 v).satIe = s.satIe := rfl
@[simp] theorem State.setArg2_lastErr (v : Word32) : (s.setArg2 v).lastErr = s.lastErr := rfl
@[simp] theorem State.setArg2_err (v : Word32) : (s.setArg2 v).err = s.err := rfl
@[simp] theorem State.setArg2_sat (v : Word32) : (s.setArg2 v).sat = s.sat := rfl
@[simp] theorem State.setArg2_cmd (v : Word32) : (s.setArg2 v).cmd = s.cmd := rfl
@[simp] theorem State.setArg2_acc (v : Word32) : (s.setArg2 v).acc = s.acc := rfl
@[simp] theorem State.setArg2_ctx (v : Word32) : (s.setArg2 v).ctx = s.ctx := rfl
@[simp] theorem State.setArg2_slots (v : Word32) : (s.setArg2 v).slots = s.slots := rfl
@[simp] theorem State.setArg2_mem (v : Word32) : (s.setArg2 v).mem = s.mem := rfl
@[simp] theorem State.setArg2_pending (v : Word32) : (s.setArg2 v).pending = s.pending := rfl
@[simp] theorem State.setArg2_reads (v : Word32) : (s.setArg2 v).reads = s.reads := rfl

/-! `writeCtrl` changes CTRL and nothing else. -/

@[simp] theorem State.writeCtrl_arg0 (v : Word32) : (s.writeCtrl v).arg0 = s.arg0 := rfl
@[simp] theorem State.writeCtrl_arg1 (v : Word32) : (s.writeCtrl v).arg1 = s.arg1 := rfl
@[simp] theorem State.writeCtrl_arg2 (v : Word32) : (s.writeCtrl v).arg2 = s.arg2 := rfl
@[simp] theorem State.writeCtrl_res (v : Word32) : (s.writeCtrl v).res = s.res := rfl
@[simp] theorem State.writeCtrl_errIe (v : Word32) : (s.writeCtrl v).errIe = v.getLsbD 0 := rfl
@[simp] theorem State.writeCtrl_satIe (v : Word32) : (s.writeCtrl v).satIe = v.getLsbD 1 := rfl
@[simp] theorem State.writeCtrl_lastErr (v : Word32) : (s.writeCtrl v).lastErr = s.lastErr := rfl
@[simp] theorem State.writeCtrl_err (v : Word32) : (s.writeCtrl v).err = s.err := rfl
@[simp] theorem State.writeCtrl_sat (v : Word32) : (s.writeCtrl v).sat = s.sat := rfl
@[simp] theorem State.writeCtrl_cmd (v : Word32) : (s.writeCtrl v).cmd = s.cmd := rfl
@[simp] theorem State.writeCtrl_acc (v : Word32) : (s.writeCtrl v).acc = s.acc := rfl
@[simp] theorem State.writeCtrl_ctx (v : Word32) : (s.writeCtrl v).ctx = s.ctx := rfl
@[simp] theorem State.writeCtrl_slots (v : Word32) : (s.writeCtrl v).slots = s.slots := rfl
@[simp] theorem State.writeCtrl_mem (v : Word32) : (s.writeCtrl v).mem = s.mem := rfl
@[simp] theorem State.writeCtrl_pending (v : Word32) : (s.writeCtrl v).pending = s.pending := rfl
@[simp] theorem State.writeCtrl_reads (v : Word32) : (s.writeCtrl v).reads = s.reads := rfl

/-! `writeStatus` changes the sticky bits of STATUS and nothing else. -/

@[simp] theorem State.writeStatus_arg0 (v : Word32) : (s.writeStatus v).arg0 = s.arg0 := rfl
@[simp] theorem State.writeStatus_arg1 (v : Word32) : (s.writeStatus v).arg1 = s.arg1 := rfl
@[simp] theorem State.writeStatus_arg2 (v : Word32) : (s.writeStatus v).arg2 = s.arg2 := rfl
@[simp] theorem State.writeStatus_res (v : Word32) : (s.writeStatus v).res = s.res := rfl
@[simp] theorem State.writeStatus_errIe (v : Word32) : (s.writeStatus v).errIe = s.errIe := rfl
@[simp] theorem State.writeStatus_satIe (v : Word32) : (s.writeStatus v).satIe = s.satIe := rfl
@[simp] theorem State.writeStatus_lastErr (v : Word32) : (s.writeStatus v).lastErr = s.lastErr := rfl
@[simp] theorem State.writeStatus_err (v : Word32) : (s.writeStatus v).err = (s.err && !v.getLsbD 8) := rfl
@[simp] theorem State.writeStatus_sat (v : Word32) : (s.writeStatus v).sat = (s.sat && !v.getLsbD 9) := rfl
@[simp] theorem State.writeStatus_cmd (v : Word32) : (s.writeStatus v).cmd = s.cmd := rfl
@[simp] theorem State.writeStatus_acc (v : Word32) : (s.writeStatus v).acc = s.acc := rfl
@[simp] theorem State.writeStatus_ctx (v : Word32) : (s.writeStatus v).ctx = s.ctx := rfl
@[simp] theorem State.writeStatus_slots (v : Word32) : (s.writeStatus v).slots = s.slots := rfl
@[simp] theorem State.writeStatus_mem (v : Word32) : (s.writeStatus v).mem = s.mem := rfl
@[simp] theorem State.writeStatus_pending (v : Word32) : (s.writeStatus v).pending = s.pending := rfl
@[simp] theorem State.writeStatus_reads (v : Word32) : (s.writeStatus v).reads = s.reads := rfl

/-! `record` changes the record of host reads and nothing else. -/

@[simp] theorem State.record_arg0 (v : Word32) : (s.record v).arg0 = s.arg0 := rfl
@[simp] theorem State.record_arg1 (v : Word32) : (s.record v).arg1 = s.arg1 := rfl
@[simp] theorem State.record_arg2 (v : Word32) : (s.record v).arg2 = s.arg2 := rfl
@[simp] theorem State.record_res (v : Word32) : (s.record v).res = s.res := rfl
@[simp] theorem State.record_errIe (v : Word32) : (s.record v).errIe = s.errIe := rfl
@[simp] theorem State.record_satIe (v : Word32) : (s.record v).satIe = s.satIe := rfl
@[simp] theorem State.record_lastErr (v : Word32) : (s.record v).lastErr = s.lastErr := rfl
@[simp] theorem State.record_err (v : Word32) : (s.record v).err = s.err := rfl
@[simp] theorem State.record_sat (v : Word32) : (s.record v).sat = s.sat := rfl
@[simp] theorem State.record_cmd (v : Word32) : (s.record v).cmd = s.cmd := rfl
@[simp] theorem State.record_acc (v : Word32) : (s.record v).acc = s.acc := rfl
@[simp] theorem State.record_ctx (v : Word32) : (s.record v).ctx = s.ctx := rfl
@[simp] theorem State.record_slots (v : Word32) : (s.record v).slots = s.slots := rfl
@[simp] theorem State.record_mem (v : Word32) : (s.record v).mem = s.mem := rfl
@[simp] theorem State.record_pending (v : Word32) : (s.record v).pending = s.pending := rfl
@[simp] theorem State.record_reads (v : Word32) : (s.record v).reads = v :: s.reads := rfl

/-! `setPending` changes the host's accesses to come and nothing else. -/

@[simp] theorem State.setPending_arg0 (es : List HostEvent) : (s.setPending es).arg0 = s.arg0 := rfl
@[simp] theorem State.setPending_arg1 (es : List HostEvent) : (s.setPending es).arg1 = s.arg1 := rfl
@[simp] theorem State.setPending_arg2 (es : List HostEvent) : (s.setPending es).arg2 = s.arg2 := rfl
@[simp] theorem State.setPending_res (es : List HostEvent) : (s.setPending es).res = s.res := rfl
@[simp] theorem State.setPending_errIe (es : List HostEvent) : (s.setPending es).errIe = s.errIe := rfl
@[simp] theorem State.setPending_satIe (es : List HostEvent) : (s.setPending es).satIe = s.satIe := rfl
@[simp] theorem State.setPending_lastErr (es : List HostEvent) : (s.setPending es).lastErr = s.lastErr := rfl
@[simp] theorem State.setPending_err (es : List HostEvent) : (s.setPending es).err = s.err := rfl
@[simp] theorem State.setPending_sat (es : List HostEvent) : (s.setPending es).sat = s.sat := rfl
@[simp] theorem State.setPending_cmd (es : List HostEvent) : (s.setPending es).cmd = s.cmd := rfl
@[simp] theorem State.setPending_acc (es : List HostEvent) : (s.setPending es).acc = s.acc := rfl
@[simp] theorem State.setPending_ctx (es : List HostEvent) : (s.setPending es).ctx = s.ctx := rfl
@[simp] theorem State.setPending_slots (es : List HostEvent) : (s.setPending es).slots = s.slots := rfl
@[simp] theorem State.setPending_mem (es : List HostEvent) : (s.setPending es).mem = s.mem := rfl
@[simp] theorem State.setPending_pending (es : List HostEvent) : (s.setPending es).pending = es := rfl
@[simp] theorem State.setPending_reads (es : List HostEvent) : (s.setPending es).reads = s.reads := rfl

/-! `blockReset` changes every register of the block and nothing else. -/

@[simp] theorem State.blockReset_arg0 : (s.blockReset).arg0 = State.reset.arg0 := rfl
@[simp] theorem State.blockReset_arg1 : (s.blockReset).arg1 = State.reset.arg1 := rfl
@[simp] theorem State.blockReset_arg2 : (s.blockReset).arg2 = State.reset.arg2 := rfl
@[simp] theorem State.blockReset_res : (s.blockReset).res = State.reset.res := rfl
@[simp] theorem State.blockReset_errIe : (s.blockReset).errIe = State.reset.errIe := rfl
@[simp] theorem State.blockReset_satIe : (s.blockReset).satIe = State.reset.satIe := rfl
@[simp] theorem State.blockReset_lastErr : (s.blockReset).lastErr = State.reset.lastErr := rfl
@[simp] theorem State.blockReset_err : (s.blockReset).err = State.reset.err := rfl
@[simp] theorem State.blockReset_sat : (s.blockReset).sat = State.reset.sat := rfl
@[simp] theorem State.blockReset_cmd : (s.blockReset).cmd = State.reset.cmd := rfl
@[simp] theorem State.blockReset_acc : (s.blockReset).acc = State.reset.acc := rfl
@[simp] theorem State.blockReset_ctx : (s.blockReset).ctx = State.reset.ctx := rfl
@[simp] theorem State.blockReset_slots : (s.blockReset).slots = State.reset.slots := rfl
@[simp] theorem State.blockReset_mem : (s.blockReset).mem = State.reset.mem := rfl
@[simp] theorem State.blockReset_pending : (s.blockReset).pending = s.pending := rfl
@[simp] theorem State.blockReset_reads : (s.blockReset).reads = s.reads := rfl

end Sys2Proof.Machine
end

