-- ==== Sys2Proof/Laws/Ops.lean ====
section
/-! SUPPORT. What the shared operations can do: banks, the end of a command, its checks and its lookups
(60_exceptions.md R250 to R254). -/

namespace Sys2Proof.Machine

/-! Banks -/

@[simp] theorem Bank.get?_zero {α : Type} (b : Bank α) : b.get? 0 = some b.at0 := rfl
@[simp] theorem Bank.get?_one {α : Type} (b : Bank α) : b.get? 1 = some b.at1 := rfl

/-- Exactly the indices 0 and 1 exist. -/
theorem Bank.get?_eq_none {α : Type} (b : Bank α) (i : Nat) : b.get? i = none ↔ 2 ≤ i := by
  match i with
  | 0 => simp
  | 1 => simp
  | k + 2 => simp [Bank.get?]

theorem Bank.get?_eq_some_lt {α : Type} {b : Bank α} {i : Nat} {x : α} (h : b.get? i = some x) : i < 2 := by
  by_contra hc
  rw [(b.get?_eq_none i).2 (by omega)] at h
  cases h

theorem Bank.exists_get? {α : Type} (b : Bank α) {i : Nat} (h : i < 2) : ∃ x, b.get? i = some x := by
  cases hx : b.get? i with
  | some x => exact ⟨x, rfl⟩
  | none => exact absurd ((b.get?_eq_none i).1 hx) (by omega)

theorem Bank.get?_set_same {α : Type} (b : Bank α) {i : Nat} (x : α) (h : i < 2) :
    (b.set i x).get? i = some x := by
  match i with
  | 0 => rfl
  | 1 => rfl
  | k + 2 => omega

theorem Bank.get?_set_ne {α : Type} (b : Bank α) {i j : Nat} (x : α) (h : j ≠ i) :
    (b.set i x).get? j = b.get? j := by
  match i, j with
  | 0, 0 => omega
  | 0, 1 => rfl
  | 0, _ + 2 => rfl
  | 1, 0 => rfl
  | 1, 1 => omega
  | 1, _ + 2 => rfl
  | _ + 2, _ => rfl

@[simp] theorem Bank.set_zero {α : Type} (b : Bank α) (x : α) : b.set 0 x = ⟨x, b.at1⟩ := rfl
@[simp] theorem Bank.set_one {α : Type} (b : Bank α) (x : α) : b.set 1 x = ⟨b.at0, x⟩ := rfl

/-- Setting twice is setting once. -/
theorem Bank.set_set {α : Type} (b : Bank α) (i : Nat) (x y : α) : (b.set i x).set i y = b.set i y := by
  match i with
  | 0 => rfl
  | 1 => rfl
  | _ + 2 => rfl

/-- A property of both elements is kept by a set of an element that has it. -/
theorem Bank.set_all {α : Type} {p : α → Prop} {b : Bank α} {i : Nat} {x : α} (hx : p x)
    (h : p b.at0 ∧ p b.at1) : p (b.set i x).at0 ∧ p (b.set i x).at1 := by
  match i with
  | 0 => exact ⟨hx, h.2⟩
  | 1 => exact ⟨h.1, hx⟩
  | _ + 2 => exact h

/-- An element found has the property both elements have. -/
theorem Bank.get?_all {α : Type} {p : α → Prop} {b : Bank α} {i : Nat} {x : α} (h : p b.at0 ∧ p b.at1)
    (hx : b.get? i = some x) : p x := by
  match i with
  | 0 => simp only [Bank.get?_zero, Option.some.injEq] at hx; exact hx ▸ h.1
  | 1 => simp only [Bank.get?_one, Option.some.injEq] at hx; exact hx ▸ h.2
  | _ + 2 => cases hx

/-! The end of a command -/

theorem fail_eq_next (code : ErrCode) (s : State) : fail code s = .next (s.finish code) := rfl

theorem succeed_eq_next (b : Bool) (s : State) : succeed b s = .next ((s.noteSat b).finish .ok) := rfl

/-- Success without a clamp changes LAST_ERR only. -/
theorem succeed_false (s : State) : succeed false s = .next { s with lastErr := .ok } := by
  simp [succeed, State.noteSat, State.finish]

/-- Success sets SAT on a clamp and LAST_ERR to OK; ERR stays (10_state.md R27). -/
theorem succeed_eq (b : Bool) (s : State) : succeed b s = .next { s with sat := s.sat || b, lastErr := .ok } := by
  simp [succeed, State.noteSat, State.finish]

/-- An error sets LAST_ERR and ERR and nothing else (R254). -/
theorem fail_eq {code : ErrCode} (h : code ≠ .ok) (s : State) :
    fail code s = .next { s with lastErr := code, err := true } := by
  cases code <;> simp_all [fail, State.finish]

/-- No check fails. -/
theorem firstError_eq_none (cs : List (Bool × ErrCode)) : firstError cs = none ↔ ∀ c ∈ cs, c.1 = false := by
  induction cs with
  | nil => simp [firstError]
  | cons c cs ih =>
    obtain ⟨b, e⟩ := c
    cases b <;> simp [firstError, ih]

/-- The check reported is one of the list and fails, and every check before it passes (R253). -/
theorem firstError_eq_some (cs : List (Bool × ErrCode)) (code : ErrCode) (h : firstError cs = some code) :
    ∃ pre post, cs = pre ++ (true, code) :: post ∧ ∀ c ∈ pre, c.1 = false := by
  induction cs with
  | nil => cases h
  | cons c cs ih =>
    obtain ⟨b, e⟩ := c
    cases b with
    | true =>
      simp only [firstError, if_true, Option.some.injEq] at h
      exact ⟨[], cs, by rw [h]; rfl, by simp⟩
    | false =>
      simp only [firstError, Bool.false_eq_true, if_false] at h
      obtain ⟨pre, post, h1, h2⟩ := ih h
      exact ⟨(false, e) :: pre, post, by rw [h1]; rfl, by simpa using h2⟩

theorem firstError_mem {cs : List (Bool × ErrCode)} {code : ErrCode} (h : firstError cs = some code) :
    (true, code) ∈ cs := by
  obtain ⟨pre, post, h1, -⟩ := firstError_eq_some cs code h
  rw [h1]; simp

/-- A guarded command fails with the first failing check's code or goes on. -/
theorem guarded_cases (cs : List (Bool × ErrCode)) (s : State) (k : Result) :
    (∃ code, firstError cs = some code ∧ guarded cs s k = fail code s) ∨
    ((∀ c ∈ cs, c.1 = false) ∧ guarded cs s k = k) := by
  cases h : firstError cs with
  | some code => exact .inl ⟨code, rfl, by simp [guarded, h]⟩
  | none => exact .inr ⟨(firstError_eq_none cs).1 h, by simp [guarded, h]⟩

theorem guarded_pass {cs : List (Bool × ErrCode)} (h : ∀ c ∈ cs, c.1 = false) (s : State) (k : Result) :
    guarded cs s k = k := by
  simp [guarded, (firstError_eq_none cs).2 h]

theorem guarded_stop {cs : List (Bool × ErrCode)} {code : ErrCode} (h : firstError cs = some code) (s : State)
    (k : Result) : guarded cs s k = fail code s := by
  simp [guarded, h]

@[simp] theorem orFault_ok {α : Type} (x : α) (k : α → Result) : orFault (.ok x) k = k x := rfl
@[simp] theorem orFault_error {α : Type} (i : Nat) (k : α → Result) :
    orFault (.error i) k = .fault (.unwrittenDmem i) := rfl

/-! Lookups -/

/-- With an object in context IDX, `withReadyCtx` goes on with it. -/
theorem withReadyCtx_ready {c : BitVec 2} {s : State} {o : Interp} (h : s.ctx.get? c.toNat = some (.ready o))
    (k : Interp → Result) : withReadyCtx c s k = k o := by
  simp [withReadyCtx, withCtx, h]

/-- What `withReadyCtx` can do: ILLEGAL without such a context, MISUSE without an object, or go on. -/
theorem withReadyCtx_cases (c : BitVec 2) (s : State) (k : Interp → Result) :
    (2 ≤ c.toNat ∧ withReadyCtx c s k = fail .illegal s) ∨
    (c.toNat < 2 ∧ (∀ o, s.ctx.get? c.toNat ≠ some (.ready o)) ∧ withReadyCtx c s k = fail .misuse s) ∨
    (∃ o, s.ctx.get? c.toNat = some (.ready o) ∧ withReadyCtx c s k = k o) := by
  cases h : s.ctx.get? c.toNat with
  | none => exact .inl ⟨(Bank.get?_eq_none _ _).1 h, by simp [withReadyCtx, withCtx, h]⟩
  | some x =>
    have hlt := Bank.get?_eq_some_lt h
    cases x with
    | uninit => exact .inr (.inl ⟨hlt, by simp, by simp [withReadyCtx, withCtx, h]⟩)
    | destroyed => exact .inr (.inl ⟨hlt, by simp, by simp [withReadyCtx, withCtx, h]⟩)
    | ready o => exact .inr (.inr ⟨o, rfl, withReadyCtx_ready h k⟩)

/-- What `withCtx` can do. -/
theorem withCtx_cases (c : BitVec 2) (s : State) (k : Context → Result) :
    (2 ≤ c.toNat ∧ withCtx c s k = fail .illegal s) ∨
    (∃ x, s.ctx.get? c.toNat = some x ∧ withCtx c s k = k x) := by
  cases h : s.ctx.get? c.toNat with
  | none => exact .inl ⟨(Bank.get?_eq_none _ _).1 h, by simp [withCtx, h]⟩
  | some x => exact .inr ⟨x, rfl, by simp [withCtx, h]⟩

/-- With a vector in slot IDX, `withReadySlot` goes on with it. -/
theorem withReadySlot_ready {i : BitVec 2} {s : State} {d : DotProduct}
    (h : s.slots.get? i.toNat = some (.ready d)) (k : DotProduct → Result) : withReadySlot i s k = k d := by
  simp [withReadySlot, withSlot, h]

/-- What `withReadySlot` can do. -/
theorem withReadySlot_cases (i : BitVec 2) (s : State) (k : DotProduct → Result) :
    (2 ≤ i.toNat ∧ withReadySlot i s k = fail .illegal s) ∨
    (s.slots.get? i.toNat = some .empty ∧ withReadySlot i s k = fail .misuse s) ∨
    (∃ d, s.slots.get? i.toNat = some (.ready d) ∧ withReadySlot i s k = k d) := by
  cases h : s.slots.get? i.toNat with
  | none => exact .inl ⟨(Bank.get?_eq_none _ _).1 h, by simp [withReadySlot, withSlot, h]⟩
  | some x =>
    cases x with
    | empty => exact .inr (.inl ⟨rfl, by simp [withReadySlot, withSlot, h]⟩)
    | ready d => exact .inr (.inr ⟨d, rfl, withReadySlot_ready h k⟩)

/-- What `withSlot` can do. -/
theorem withSlot_cases (i : BitVec 2) (s : State) (k : Slot → Result) :
    (2 ≤ i.toNat ∧ withSlot i s k = fail .illegal s) ∨
    (∃ x, s.slots.get? i.toNat = some x ∧ withSlot i s k = k x) := by
  cases h : s.slots.get? i.toNat with
  | none => exact .inl ⟨(Bank.get?_eq_none _ _).1 h, by simp [withSlot, h]⟩
  | some x => exact .inr ⟨x, rfl, by simp [withSlot, h]⟩

/-- A range of at least one word that is InRange ends inside DMEM (00_scope.md R9). -/
theorem inRange_iff (a n : Nat) : inRange a n = true ↔ n = 0 ∨ a + n ≤ 4096 := by
  simp [inRange]

end Sys2Proof.Machine
end

