-- ==== Sys2Proof/Laws/Interp.lean ====
section
/-! SUPPORT. What the dot product, BuildContext, Push and a run of Steps can do (41_dotprod.md R131;
43_interp.md R190 to R196, R203). -/

namespace Sys2Proof.Machine

/-! Dot products -/

@[simp] theorem sumRef_nil (s : Clamped) : sumRef s [] = s := by rw [sumRef]

@[simp] theorem sumRef_cons (s : Clamped) (p : Int) (ps : List Int) :
    sumRef s (p :: ps) = sumRef (accumulate s p) ps := by rw [sumRef]

/-- One round of the unrolled loop is four accumulations (R132). -/
theorem loop4_succ (k : Nat) (s : Clamped) (p0 p1 p2 p3 : Int) (ps : List Int) :
    loop4 (k + 1) s (p0 :: p1 :: p2 :: p3 :: ps) =
      loop4 k (accumulate (accumulate (accumulate (accumulate s p0) p1) p2) p3) ps := by
  rw [loop4, round4, List.drop_succ_cons, List.drop_succ_cons, List.drop_succ_cons, List.drop_succ_cons,
    List.drop_zero]

/-- After the last round the tail runs (R135). -/
theorem loop4_zero (s : Clamped) (ps : List Int) : loop4 0 s ps = sumRef s ps := by rw [loop4]

/-- Fewer than four terms: only the tail runs (R135). -/
theorem sumRun4_tail (s : Clamped) {ps : List Int} (h : ps.length < 4) : sumRun4 s ps = sumRef s ps := by
  rw [sumRun4, Nat.div_eq_of_lt h, loop4_zero]

theorem products_length (h x : List Sample) : (products h x).length = min h.length x.length := by
  simp [products]

/-- A dot product is a W-bit value. -/
theorem dotRef_range (h x : List Sample) : -32768 ≤ (dotRef h x).val ∧ (dotRef h x).val ≤ 32767 :=
  narrow_range _

/-! BuildContext -/

@[simp] theorem zeroHist_length (L : Nat) : (zeroHist L).length = L := by simp [zeroHist]

@[simp] theorem phaseTaps_length (M L : Nat) (taps : List Sample) (p : Nat) :
    (phaseTaps M L taps p).length = L := by simp [phaseTaps]

/-- Tap k of phase p is tap `p + k*M` of the master vector (R190). -/
theorem phaseTaps_getElem? (M L : Nat) (taps : List Sample) (p : Nat) {k : Nat} (hk : k < L)
    (hi : p + k * M < taps.length) : (phaseTaps M L taps p)[k]? = taps[p + k * M]? := by
  simp [phaseTaps, hk, List.getElem?_eq_getElem hi]

@[simp] theorem buildInterp_M (M : Nat) (taps : List Sample) (kind : Kind) :
    (buildInterp M taps kind).M = M := rfl

@[simp] theorem buildInterp_L (M : Nat) (taps : List Sample) (kind : Kind) :
    (buildInterp M taps kind).L = taps.length / M := rfl

@[simp] theorem buildInterp_kind (M : Nat) (taps : List Sample) (kind : Kind) :
    (buildInterp M taps kind).kind = kind := rfl

@[simp] theorem buildInterp_gain (M : Nat) (taps : List Sample) (kind : Kind) :
    (buildInterp M taps kind).gain = unitGain := rfl

@[simp] theorem buildInterp_hist (M : Nat) (taps : List Sample) (kind : Kind) :
    (buildInterp M taps kind).hist = zeroHist (taps.length / M) := rfl

theorem buildInterp_sub (M : Nat) (taps : List Sample) (kind : Kind) {p : Nat} (hp : p < M) :
    (buildInterp M taps kind).sub[p]? = some (phaseTaps M (taps.length / M) taps p) := by
  simp [buildInterp, hp]

/-- The well-formedness of an object, field by field (10_state.md R33). -/
theorem Interp.wf_iff (o : Interp) :
    o.wf = true ↔ 1 ≤ o.M ∧ o.M ≤ 16 ∧ 1 ≤ o.L ∧ o.L ≤ 256 ∧ o.M * o.L ≤ 1024 ∧ o.sub.length = o.M ∧
      (∀ row ∈ o.sub, row.length = o.L) ∧ o.hist.length = o.L := by
  simp [Interp.wf, and_assoc]

/-- What the create commands build is well formed when their checks pass (R192). -/
theorem buildInterp_wf {M L : Nat} {taps : List Sample} (kind : Kind) (hM : 1 ≤ M) (hM' : M ≤ 16) (hL : 1 ≤ L)
    (hL' : L ≤ 256) (ht : M * L ≤ 1024) (h : taps.length = M * L) : (buildInterp M taps kind).wf = true := by
  have hd : taps.length / M = L := by rw [h, Nat.mul_div_cancel_left L (by omega)]
  rw [Interp.wf_iff]
  refine ⟨hM, hM', ?_, ?_, ?_, ?_, ?_, ?_⟩
  · simpa [hd] using hL
  · simpa [hd] using hL'
  · simpa [hd] using ht
  · simp [buildInterp]
  · intro row hrow
    simp only [buildInterp, List.mem_map] at hrow
    obtain ⟨p, -, rfl⟩ := hrow
    simp [hd]
  · simp [hd]

/-! Push and Step -/

@[simp] theorem push_M (o : Interp) (x : IQ) : (push o x).M = o.M := rfl
@[simp] theorem push_L (o : Interp) (x : IQ) : (push o x).L = o.L := rfl
@[simp] theorem push_kind (o : Interp) (x : IQ) : (push o x).kind = o.kind := rfl
@[simp] theorem push_sub (o : Interp) (x : IQ) : (push o x).sub = o.sub := rfl
@[simp] theorem push_gain (o : Interp) (x : IQ) : (push o x).gain = o.gain := rfl

/-- The new sample is in front, the oldest one is discarded (R193). -/
theorem push_hist {o : Interp} (x : IQ) (h : o.hist.length = o.L) (hL : 1 ≤ o.L) :
    (push o x).hist = x :: o.hist.dropLast := by
  obtain ⟨l, hl⟩ : ∃ l, o.L = l + 1 := ⟨o.L - 1, by omega⟩
  simp only [push, hl, List.take_succ_cons]
  rw [List.dropLast_eq_take, h, hl]
  rfl

/-- A push keeps an object well formed. -/
theorem push_wf {o : Interp} (x : IQ) (h : o.wf = true) : (push o x).wf = true := by
  rw [Interp.wf_iff] at h ⊢
  obtain ⟨h1, h2, h3, h4, h5, h6, h7, h8⟩ := h
  refine ⟨h1, h2, h3, h4, h5, h6, h7, ?_⟩
  simp only [push, List.length_take, List.length_cons, h8]
  omega

/-- A Step has 2M outputs (R194). -/
theorem phaseOutputs_length (o : Interp) : (phaseOutputs o).length = 2 * o.M := by
  simp [phaseOutputs, phaseOutput, List.length_flatMap, Nat.mul_comm]

/-- What one input sample does (R194, R202). -/
theorem runSample_ok {xa ya : Nat} {r r' : SampleRun} (h : runSample xa ya r = .ok r') :
    ∃ x, r.mem.readIQ xa = .ok x ∧ r'.obj = push r.obj x ∧
      r'.mem = r.mem.writeMany ya ((phaseOutputs (push r.obj x)).map fun c => toSample c.val) ∧
      r'.clipped = (r.clipped || (phaseOutputs (push r.obj x)).any Clamped.clipped) := by
  unfold runSample at h
  cases hx : r.mem.readIQ xa with
  | error i => simp [hx] at h
  | ok x =>
    simp only [hx, Except.ok.injEq] at h
    subst h
    exact ⟨x, rfl, rfl, rfl, rfl⟩

/-- Where one input sample stops: an unwritten word of its input (20_memory.md R56). -/
theorem runSample_error {xa ya i : Nat} {r : SampleRun} (h : runSample xa ya r = .error i) :
    (i = xa ∨ i = xa + 1) ∧ r.mem.read i = none := by
  unfold runSample at h
  cases hx : r.mem.readIQ xa with
  | ok x => simp [hx] at h
  | error k =>
    simp only [hx, Except.error.injEq] at h
    subst h
    exact Memory.readIQ_error hx

/-- One input sample writes only its 2M output words. -/
theorem runSample_frame {xa ya : Nat} {r r' : SampleRun} (h : runSample xa ya r = .ok r') {a : Nat}
    (ha : a < ya ∨ ya + 2 * r.obj.M ≤ a) : r'.mem.read a = r.mem.read a := by
  obtain ⟨x, -, -, hm, -⟩ := runSample_ok h
  rw [hm, Memory.read_writeMany_outside]
  simpa [phaseOutputs_length] using ha

/-- What a run of k samples keeps of the object: all but the history (R203). -/
theorem runSamples_obj {k xa ya : Nat} {r r' : SampleRun} (h : runSamples xa ya k r = .ok r') :
    ∃ hist, r'.obj = { r.obj with hist := hist } := by
  induction k generalizing xa ya r with
  | zero => simp only [runSamples, Except.ok.injEq] at h; subst h; exact ⟨r.obj.hist, rfl⟩
  | succ k ih =>
    simp only [runSamples] at h
    cases h1 : runSample xa ya r with
    | error i => simp [h1] at h
    | ok r1 =>
      simp only [h1] at h
      obtain ⟨hist, hr⟩ := ih h
      obtain ⟨x, -, ho, -, -⟩ := runSample_ok h1
      exact ⟨hist, by rw [hr, ho]; rfl⟩

/-- A run keeps the object well formed. -/
theorem runSamples_wf {k xa ya : Nat} {r r' : SampleRun} (h : runSamples xa ya k r = .ok r')
    (hw : r.obj.wf = true) : r'.obj.wf = true := by
  induction k generalizing xa ya r with
  | zero => simp only [runSamples, Except.ok.injEq] at h; subst h; exact hw
  | succ k ih =>
    simp only [runSamples] at h
    cases h1 : runSample xa ya r with
    | error i => simp [h1] at h
    | ok r1 =>
      simp only [h1] at h
      obtain ⟨x, -, ho, -, -⟩ := runSample_ok h1
      exact ih h (by rw [ho]; exact push_wf x hw)

/-- A run writes only its 2Mk output words. -/
theorem runSamples_frame {k xa ya : Nat} {r r' : SampleRun} (h : runSamples xa ya k r = .ok r') {a : Nat}
    (ha : a < ya ∨ ya + 2 * r.obj.M * k ≤ a) : r'.mem.read a = r.mem.read a := by
  induction k generalizing xa ya r with
  | zero => simp only [runSamples, Except.ok.injEq] at h; subst h; rfl
  | succ k ih =>
    simp only [runSamples] at h
    cases h1 : runSample xa ya r with
    | error i => simp [h1] at h
    | ok r1 =>
      simp only [h1] at h
      obtain ⟨x, -, ho, -, -⟩ := runSample_ok h1
      have hM : r1.obj.M = r.obj.M := by rw [ho]; rfl
      have he : 2 * r.obj.M * (k + 1) = 2 * r.obj.M + 2 * r.obj.M * k := by ring
      rw [he] at ha
      rw [ih h (by rw [hM]; omega), runSample_frame h1 (by omega)]

/-- A run inside DMEM keeps the canonical form. -/
theorem runSamples_mem_wf {k xa ya : Nat} {r r' : SampleRun} (h : runSamples xa ya k r = .ok r')
    (hw : r.mem.wf = true) (hr : 2 * r.obj.M * k = 0 ∨ ya + 2 * r.obj.M * k ≤ 4096) : r'.mem.wf = true := by
  induction k generalizing xa ya r with
  | zero => simp only [runSamples, Except.ok.injEq] at h; subst h; exact hw
  | succ k ih =>
    simp only [runSamples] at h
    cases h1 : runSample xa ya r with
    | error i => simp [h1] at h
    | ok r1 =>
      simp only [h1] at h
      obtain ⟨x, -, ho, hm, -⟩ := runSample_ok h1
      have hM : r1.obj.M = r.obj.M := by rw [ho]; rfl
      have he : 2 * r.obj.M * (k + 1) = 2 * r.obj.M + 2 * r.obj.M * k := by ring
      rw [he] at hr
      refine ih h ?_ (by rw [hM]; omega)
      rw [hm]
      apply Memory.wf_writeMany hw
      rcases hr with hr | hr
      · left
        apply List.eq_nil_of_length_eq_zero
        rw [List.length_map, phaseOutputs_length, push_M]; omega
      · right
        rw [List.length_map, phaseOutputs_length, push_M, Config.dmemWords]; omega

/-- A run stops at the first input word that is unwritten at its start, unless an earlier sample of the run wrote that
word (20_memory.md R56, R62; 43_interp.md R203). -/
theorem runSamples_unwritten {k xa ya j : Nat} {r : SampleRun} (hj : j < 2 * k) (hn : r.mem.read (xa + j) = none)
    (hw : ∀ j' < j, r.mem.read (xa + j') ≠ none) (ho : xa + j < ya ∨ ya + 2 * r.obj.M * (j / 2) ≤ xa + j) :
    runSamples xa ya k r = .error (xa + j) := by
  induction k generalizing xa ya j r with
  | zero => omega
  | succ k ih =>
    rw [runSamples]
    rcases Nat.lt_or_ge j 2 with hj2 | hj2
    · simp only [runSample, Memory.readIQ_unwritten hj2 hn hw]
    cases h1 : runSample xa ya r with
    | error i =>
      obtain ⟨hi, hu⟩ := runSample_error h1
      rcases hi with rfl | rfl
      · exact absurd hu (hw 0 (by omega))
      · exact absurd hu (hw 1 (by omega))
    | ok r1 =>
      obtain ⟨x, -, hobj, hm, -⟩ := runSample_ok h1
      have hM : r1.obj.M = r.obj.M := by rw [hobj]; rfl
      have hk : j / 2 = (j - 2) / 2 + 1 := by omega
      rw [hk, Nat.mul_add, Nat.mul_one] at ho
      have hx : xa + 2 + (j - 2) = xa + j := by omega
      rw [← hx]
      refine ih (by omega) ?_ (fun j' hj' hu => ?_) (by rw [hx, hM]; omega)
      · rw [hx, runSample_frame h1 (by omega)]; exact hn
      · refine hw (j' + 2) (by omega) ?_
        rw [hm] at hu
        have := Memory.writeMany_keeps_written _ _ _ _ hu
        rwa [Nat.add_right_comm, Nat.add_assoc] at this

/-- Where a run stops: an input word that is unwritten at the start of the run already. -/
theorem runSamples_error {k xa ya i : Nat} {r : SampleRun} (h : runSamples xa ya k r = .error i) :
    xa ≤ i ∧ i < xa + 2 * k ∧ r.mem.read i = none := by
  induction k generalizing xa ya r with
  | zero => cases h
  | succ k ih =>
    simp only [runSamples] at h
    cases h1 : runSample xa ya r with
    | error j =>
      simp only [h1, Except.error.injEq] at h
      subst h
      obtain ⟨hj, hn⟩ := runSample_error h1
      exact ⟨by omega, by omega, hn⟩
    | ok r1 =>
      simp only [h1] at h
      obtain ⟨h2, h3, h4⟩ := ih h
      obtain ⟨x, -, -, hm, -⟩ := runSample_ok h1
      rw [hm] at h4
      exact ⟨by omega, by omega, Memory.writeMany_keeps_written _ _ _ _ h4⟩

end Sys2Proof.Machine
end

