-- ==== Sys2Proof/Laws/Exec.lean ====
section
/-! SUPPORT. What each command can do: it fails with a code and leaves everything else, faults at an unwritten DMEM
word, or succeeds with its effect. One inversion lemma per meaning, cited instead of unfolding it. -/

namespace Sys2Proof.Machine

/-- The command ends with an error code and no other effect (60_exceptions.md R254). -/
def FailsWith (s : State) (r : Result) : Prop := ∃ code, code ≠ .ok ∧ r = fail code s

/-- The command faults at a word of DMEM that nothing has written (20_memory.md R56). -/
def FaultsUnwritten (s : State) (r : Result) : Prop :=
  ∃ a, a < 4096 ∧ s.mem.read a = none ∧ r = .fault (.unwrittenDmem a)

/-- A failing command answers a next state that differs in LAST_ERR and ERR only. -/
theorem FailsWith.next {s : State} {r : Result} (h : FailsWith s r) :
    ∃ code, code ≠ .ok ∧ r = .next { s with lastErr := code, err := true } := by
  obtain ⟨code, hc, rfl⟩ := h
  exact ⟨code, hc, fail_eq hc s⟩

theorem fail_failsWith {code : ErrCode} (h : code ≠ .ok) (s : State) : FailsWith s (fail code s) := ⟨code, h, rfl⟩

/-- A guarded command fails with one of its checks' codes or goes on with every check passed. -/
theorem guarded_inv {cs : List (Bool × ErrCode)} (hcs : ∀ c ∈ cs, c.2 ≠ .ok) (s : State) (k : Result) :
    FailsWith s (guarded cs s k) ∨ ((∀ c ∈ cs, c.1 = false) ∧ guarded cs s k = k) := by
  rcases guarded_cases cs s k with ⟨code, h1, h2⟩ | h
  · exact .inl ⟨code, hcs _ (firstError_mem h1), h2⟩
  · exact .inr h

/-- A MemRead inside DMEM faults at an unwritten word or gives its words (20_memory.md R56). -/
theorem readMany_inv {s : State} {a n : Nat} (hr : inRange a n = true) (k : List Sample → Result) :
    FaultsUnwritten s (orFault (s.mem.readMany a n) k) ∨
    (∃ v, v.length = n ∧ (∀ j < n, s.mem.read (a + j) = v[j]?) ∧ orFault (s.mem.readMany a n) k = k v) := by
  cases h : s.mem.readMany a n with
  | error i =>
    obtain ⟨h1, h2, h3, -⟩ := Memory.readMany_error _ _ _ _ h
    rcases (inRange_iff a n).1 hr with h0 | h0
    · omega
    · exact .inl ⟨i, by omega, h3, rfl⟩
  | ok v =>
    obtain ⟨h1, h2⟩ := (Memory.readMany_ok_iff _ _ _ _).1 h
    exact .inr ⟨v, h1, h2, rfl⟩

/-! Dot-product slots -/

theorem execDpLoad_cases (i : BitVec 2) (s : State) :
    FailsWith s (execDpLoad i s) ∨ FaultsUnwritten s (execDpLoad i s) ∨
    (∃ v : List Sample, i.toNat < 2 ∧ v.length = s.arg1.toNat ∧ 1 ≤ v.length ∧ v.length ≤ 256 ∧
      s.arg0.toNat + v.length ≤ 4096 ∧ (∀ j < v.length, s.mem.read (s.arg0.toNat + j) = v[j]?) ∧
      execDpLoad i s = succeed false (s.setSlot i.toNat (.ready ⟨v.length, v⟩))) := by
  unfold execDpLoad
  rcases withSlot_cases i s _ with ⟨-, h⟩ | ⟨x, hx, h⟩ <;> rw [h]
  · exact .inl (fail_failsWith (by decide) s)
  rcases guarded_inv (cs := dpLoadChecks (uint s.arg0) (uint s.arg1)) (by simp [dpLoadChecks]) s
      (orFault (s.mem.readMany (uint s.arg0) (uint s.arg1)) fun v =>
        succeed false (s.setSlot i.toNat (.ready ⟨uint s.arg1, v⟩))) with hf | ⟨hp, hg⟩
  · exact .inl hf
  rw [hg]
  simp only [dpLoadChecks, List.mem_cons, List.not_mem_nil, or_false, forall_eq_or_imp, forall_eq, beq_eq_false_iff_ne, ne_eq,
    decide_eq_false_iff_not, not_lt, Bool.not_eq_false'] at hp
  obtain ⟨h1, h2, h3⟩ := hp
  rcases readMany_inv h3 (fun v => succeed false (s.setSlot i.toNat (.ready ⟨uint s.arg1, v⟩))) with hf | ⟨v, hv, hr, hk⟩
  · exact .inr (.inl hf)
  · refine .inr (.inr ⟨v, Bank.get?_eq_some_lt hx, hv, by omega, ?_, ?_, ?_, ?_⟩)
    · rw [hv]; exact h2
    · rcases (inRange_iff _ _).1 h3 with h0 | h0
      · exact absurd h0 h1
      · rw [hv]; exact h0
    · rw [hv]; exact hr
    · rw [hk, hv]

theorem execDpExec_cases (u : Bool) (i : BitVec 2) (s : State) :
    FailsWith s (execDpExec u i s) ∨ FaultsUnwritten s (execDpExec u i s) ∨
    (∃ (d : DotProduct) (x : List Sample) (r : Clamped), s.slots.get? i.toNat = some (.ready d) ∧ x.length = d.n ∧
      (∀ j < d.n, s.mem.read (s.arg0.toNat + j) = x[j]?) ∧ r = (if u then dotRun4 d.h x else dotRef d.h x) ∧
      execDpExec u i s = succeed r.clipped (s.setRes (resWord r.val))) := by
  unfold execDpExec
  rcases withReadySlot_cases i s _ with ⟨-, h⟩ | ⟨-, h⟩ | ⟨d, hd, h⟩ <;> rw [h]
  · exact .inl (fail_failsWith (by decide) s)
  · exact .inl (fail_failsWith (by decide) s)
  rcases guarded_inv (cs := [(!inRange (uint s.arg0) d.n, .bounds)]) (by simp) s
      (orFault (s.mem.readMany (uint s.arg0) d.n) fun x =>
        let r := if u then dotRun4 d.h x else dotRef d.h x
        succeed r.clipped (s.setRes (resWord r.val))) with hf | ⟨hp, hg⟩
  · exact .inl hf
  rw [hg]
  have h3 : inRange (uint s.arg0) d.n = true := by simpa using hp
  rcases readMany_inv h3 (fun x =>
      let r := if u then dotRun4 d.h x else dotRef d.h x
      succeed r.clipped (s.setRes (resWord r.val))) with hf | ⟨x, hx, hr, hk⟩
  · exact .inr (.inl hf)
  · exact .inr (.inr ⟨d, x, _, hd, hx, hr, rfl, hk⟩)

theorem execDpFree_cases (i : BitVec 2) (s : State) :
    FailsWith s (execDpFree i s) ∨
    (∃ d, s.slots.get? i.toNat = some (.ready d) ∧
      execDpFree i s = succeed false (s.setSlot i.toNat .empty)) := by
  unfold execDpFree
  rcases withReadySlot_cases i s _ with ⟨-, h⟩ | ⟨-, h⟩ | ⟨d, hd, h⟩ <;> rw [h]
  · exact .inl (fail_failsWith (by decide) s)
  · exact .inl (fail_failsWith (by decide) s)
  · exact .inr ⟨d, hd, rfl⟩

/-! Interpolator contexts -/

theorem execIntCreate_cases (c : BitVec 2) (s : State) :
    FailsWith s (execIntCreate c s) ∨ FaultsUnwritten s (execIntCreate c s) ∨
    (∃ (L : Nat) (taps : List Sample), c.toNat < 2 ∧ 1 ≤ s.arg0.toNat ∧ s.arg0.toNat ≤ 16 ∧ 1 ≤ L ∧ L ≤ 256 ∧
      s.arg0.toNat * L ≤ 1024 ∧ taps.length = s.arg0.toNat * L ∧ s.arg2.toNat = taps.length ∧
      (∀ j < taps.length, s.mem.read (s.arg1.toNat + j) = taps[j]?) ∧
      execIntCreate c s =
        succeed false (s.setCtx c.toNat (.ready (buildInterp s.arg0.toNat taps .taps)))) := by
  unfold execIntCreate
  rcases withCtx_cases c s _ with ⟨-, h⟩ | ⟨x, hx, h⟩ <;> rw [h]
  · exact .inl (fail_failsWith (by decide) s)
  rcases guarded_inv (cs := intCreateChecks (uint s.arg0) (uint s.arg1) (uint s.arg2)) (by simp [intCreateChecks]) s
      (orFault (s.mem.readMany (uint s.arg1) (uint s.arg2)) fun taps =>
        succeed false (s.setCtx c.toNat (.ready (buildInterp (uint s.arg0) taps .taps)))) with hf | ⟨hp, hg⟩
  · exact .inl hf
  rw [hg]
  simp only [intCreateChecks, List.mem_cons, List.not_mem_nil, or_false, forall_eq_or_imp, forall_eq,
    beq_eq_false_iff_ne, ne_eq, bne_eq_false_iff_eq, decide_eq_false_iff_not, not_lt, Bool.not_eq_false'] at hp
  obtain ⟨h1, h2, h3, h4, h5, h6, h7⟩ := hp
  rcases readMany_inv h7 (fun taps =>
      succeed false (s.setCtx c.toNat (.ready (buildInterp (uint s.arg0) taps .taps)))) with hf | ⟨v, hv, hr, hk⟩
  · exact .inr (.inl hf)
  · have hml : uint s.arg0 * (uint s.arg2 / uint s.arg0) = uint s.arg2 := Nat.mul_div_cancel' (Nat.dvd_of_mod_eq_zero h3)
    refine .inr (.inr ⟨uint s.arg2 / uint s.arg0, v, Bank.get?_eq_some_lt hx, ?_, h4, ?_, h5, ?_, ?_, ?_, ?_, hk⟩)
    · exact Nat.one_le_iff_ne_zero.2 h1
    · rcases Nat.eq_zero_or_pos (uint s.arg2 / uint s.arg0) with h0 | h0
      · rw [h0, Nat.mul_zero] at hml; exact absurd hml.symm h2
      · exact h0
    · change uint s.arg0 * _ ≤ _; rw [hml]; exact h6
    · change _ = uint s.arg0 * _; rw [hml]; exact hv
    · exact hv.symm
    · rw [hv]; exact hr

theorem execIntKaiser_cases (c : BitVec 2) (s : State) :
    FailsWith s (execIntKaiser c s) ∨
    (c.toNat < 2 ∧ 1 ≤ s.arg0.toNat ∧ s.arg0.toNat ≤ 16 ∧ 1 ≤ s.arg1.toNat ∧ 2 * s.arg1.toNat ≤ 256 ∧
      2 * s.arg1.toNat * s.arg0.toNat ≤ 1024 ∧ (readF32 s.arg2).isFinitePositive = true ∧
      execIntKaiser c s = succeed (Config.kaiserClamps s.arg0.toNat s.arg1.toNat s.arg2)
        (s.setCtx c.toNat (.ready (buildInterp s.arg0.toNat
          ((kaiserFn s.arg0.toNat s.arg1.toNat s.arg2).take (2 * s.arg1.toNat * s.arg0.toNat)) .kaiser)))) := by
  unfold execIntKaiser
  rcases withCtx_cases c s _ with ⟨-, h⟩ | ⟨x, hx, h⟩ <;> rw [h]
  · exact .inl (fail_failsWith (by decide) s)
  rcases guarded_inv (cs := intKaiserChecks (uint s.arg0) (uint s.arg1) s.arg2) (by simp [intKaiserChecks]) s
      (succeed (Config.kaiserClamps (uint s.arg0) (uint s.arg1) s.arg2)
        (s.setCtx c.toNat (.ready (buildInterp (uint s.arg0)
          ((kaiserFn (uint s.arg0) (uint s.arg1) s.arg2).take (2 * uint s.arg1 * uint s.arg0)) .kaiser)))) with hf | ⟨hp, hg⟩
  · exact .inl hf
  simp only [intKaiserChecks, List.mem_cons, List.not_mem_nil, or_false, forall_eq_or_imp, forall_eq,
    beq_eq_false_iff_ne, ne_eq, decide_eq_false_iff_not, not_lt, Bool.not_eq_false'] at hp
  obtain ⟨h1, h2, h3, h4, h5, h6⟩ := hp
  exact .inr ⟨Bank.get?_eq_some_lt hx, Nat.one_le_iff_ne_zero.2 h1, h4, Nat.one_le_iff_ne_zero.2 h2, h5, h6, h3, hg⟩

theorem execIntReset_cases (c : BitVec 2) (s : State) :
    FailsWith s (execIntReset c s) ∨
    (∃ o, s.ctx.get? c.toNat = some (.ready o) ∧
      execIntReset c s = succeed false (s.setCtx c.toNat (.ready { o with hist := zeroHist o.L }))) := by
  unfold execIntReset
  rcases withReadyCtx_cases c s _ with ⟨-, h⟩ | ⟨-, -, h⟩ | ⟨o, ho, h⟩ <;> rw [h]
  · exact .inl (fail_failsWith (by decide) s)
  · exact .inl (fail_failsWith (by decide) s)
  · exact .inr ⟨o, ho, rfl⟩

theorem execIntExec_cases (c : BitVec 2) (s : State) :
    FailsWith s (execIntExec c s) ∨ FaultsUnwritten s (execIntExec c s) ∨
    (∃ o r, s.ctx.get? c.toNat = some (.ready o) ∧ inRange s.arg1.toNat (2 * o.M) = true ∧
      runSample s.arg0.toNat s.arg1.toNat ⟨o, s.mem, false⟩ = .ok r ∧ execIntExec c s = finishRun c s r) := by
  unfold execIntExec
  rcases withReadyCtx_cases c s _ with ⟨-, h⟩ | ⟨-, -, h⟩ | ⟨o, ho, h⟩ <;> rw [h]
  · exact .inl (fail_failsWith (by decide) s)
  · exact .inl (fail_failsWith (by decide) s)
  rcases guarded_inv (cs := [(!inRange (uint s.arg0) 2, .bounds), (!inRange (uint s.arg1) (2 * o.M), .bounds)]) (by simp) s
      (orFault (runSample (uint s.arg0) (uint s.arg1) ⟨o, s.mem, false⟩) (finishRun c s)) with hf | ⟨hp, hg⟩
  · exact .inl hf
  rw [hg]
  simp only [List.mem_cons, List.not_mem_nil, or_false, forall_eq_or_imp, forall_eq, Bool.not_eq_false'] at hp
  cases hr : runSample (uint s.arg0) (uint s.arg1) ⟨o, s.mem, false⟩ with
  | error i =>
    obtain ⟨h1, h2⟩ := runSample_error hr
    rcases (inRange_iff _ _).1 hp.1 with h0 | h0
    · omega
    · exact .inr (.inl ⟨i, by omega, h2, rfl⟩)
  | ok r => exact .inr (.inr ⟨o, r, ho, hp.2, hr, rfl⟩)

theorem execIntExecBlock_cases (c : BitVec 2) (s : State) :
    FailsWith s (execIntExecBlock c s) ∨ FaultsUnwritten s (execIntExecBlock c s) ∨
    (∃ o r, s.ctx.get? c.toNat = some (.ready o) ∧ inRange s.arg1.toNat (2 * o.M * s.arg2.toNat) = true ∧
      runSamples s.arg0.toNat s.arg1.toNat s.arg2.toNat ⟨o, s.mem, false⟩ = .ok r ∧
      execIntExecBlock c s = finishRun c s r) := by
  unfold execIntExecBlock
  rcases withReadyCtx_cases c s _ with ⟨-, h⟩ | ⟨-, -, h⟩ | ⟨o, ho, h⟩ <;> rw [h]
  · exact .inl (fail_failsWith (by decide) s)
  · exact .inl (fail_failsWith (by decide) s)
  rcases guarded_inv (cs := [(!inRange (uint s.arg0) (2 * uint s.arg2), .bounds),
      (!inRange (uint s.arg1) (2 * o.M * uint s.arg2), .bounds)]) (by simp) s
      (orFault (runSamples (uint s.arg0) (uint s.arg1) (uint s.arg2) ⟨o, s.mem, false⟩) (finishRun c s)) with hf | ⟨hp, hg⟩
  · exact .inl hf
  rw [hg]
  simp only [List.mem_cons, List.not_mem_nil, or_false, forall_eq_or_imp, forall_eq, Bool.not_eq_false'] at hp
  cases hr : runSamples (uint s.arg0) (uint s.arg1) (uint s.arg2) ⟨o, s.mem, false⟩ with
  | error i =>
    obtain ⟨h1, h2, h3⟩ := runSamples_error hr
    rcases (inRange_iff _ _).1 hp.1 with h0 | h0
    · omega
    · exact .inr (.inl ⟨i, by omega, h3, rfl⟩)
  | ok r => exact .inr (.inr ⟨o, r, ho, hp.2, hr, rfl⟩)

theorem execIntSetScale_cases (c : BitVec 2) (s : State) :
    FailsWith s (execIntSetScale c s) ∨
    (∃ o, s.ctx.get? c.toNat = some (.ready o) ∧
      execIntSetScale c s = succeed false (s.setCtx c.toNat (.ready { o with gain := qWord s.arg0 }))) := by
  unfold execIntSetScale
  rcases withReadyCtx_cases c s _ with ⟨-, h⟩ | ⟨-, -, h⟩ | ⟨o, ho, h⟩ <;> rw [h]
  · exact .inl (fail_failsWith (by decide) s)
  · exact .inl (fail_failsWith (by decide) s)
  · exact .inr ⟨o, ho, rfl⟩

theorem execIntCopy_cases (c : BitVec 2) (s : State) :
    FailsWith s (execIntCopy c s) ∨
    (∃ o, s.ctx.get? c.toNat = some (.ready o) ∧ s.arg0.toNat < 2 ∧
      execIntCopy c s =
        succeed false (if s.arg0.toNat = c.toNat then s else s.setCtx s.arg0.toNat (.ready o))) := by
  unfold execIntCopy
  rcases withReadyCtx_cases c s _ with ⟨-, h⟩ | ⟨-, -, h⟩ | ⟨o, ho, h⟩ <;> rw [h]
  · exact .inl (fail_failsWith (by decide) s)
  · exact .inl (fail_failsWith (by decide) s)
  rcases guarded_inv (cs := [(decide (Config.nCtx ≤ uint s.arg0), .config)]) (by simp) s
      (succeed false (if uint s.arg0 = c.toNat then s else s.setCtx (uint s.arg0) (.ready o))) with hf | ⟨hp, hg⟩
  · exact .inl hf
  · have h2 := hp _ (List.mem_singleton.2 rfl)
    have hlt : s.arg0.toNat < 2 := Nat.lt_of_not_le (of_decide_eq_false h2)
    exact .inr ⟨o, ho, hlt, hg⟩

theorem execIntDestroy_cases (c : BitVec 2) (s : State) :
    FailsWith s (execIntDestroy c s) ∨
    (∃ o, s.ctx.get? c.toNat = some (.ready o) ∧
      execIntDestroy c s = succeed false (s.setCtx c.toNat .destroyed)) := by
  unfold execIntDestroy
  rcases withReadyCtx_cases c s _ with ⟨-, h⟩ | ⟨-, -, h⟩ | ⟨o, ho, h⟩ <;> rw [h]
  · exact .inl (fail_failsWith (by decide) s)
  · exact .inl (fail_failsWith (by decide) s)
  · exact .inr ⟨o, ho, rfl⟩

end Sys2Proof.Machine
end

