-- ==== Sys2Proof/Laws/Host.lean ====
section
/-! SUPPORT. What a step can do, access by access (20_memory.md R52 to R62; 30_encoding.md R70). -/

namespace Sys2Proof.Machine

/-- With nothing left to do the block waits (70_reset_and_hazards.md R281). -/
theorem step_idle {s : State} (h : s.pending = []) : step s = .next s := by
  simp [step, hostStep, h]

/-- A step is the host's next event on the state without it. -/
theorem step_event {s : State} {e : HostEvent} {es : List HostEvent} (h : s.pending = e :: es) :
    step s = hostEvent e (s.setPending es) := by
  simp [step, hostStep, h]

/-- A step at a 32-bit aligned host write writes the port its offset names. -/
theorem step_write {s : State} {off : BitVec 17} {v : Word32} {es : List HostEvent}
    (h : s.pending = .write off 32 v :: es) (h4 : off.toNat % 4 = 0) :
    step s = writePort (s.setPending es) v (portOf off) := by
  rw [step_event h]
  simp [hostEvent, accessOk, h4]

/-- A step at a 32-bit aligned host read reads the port its offset names. -/
theorem step_read {s : State} {off : BitVec 17} {es : List HostEvent}
    (h : s.pending = .read off 32 :: es) (h4 : off.toNat % 4 = 0) :
    step s = orFault (readPort (s.setPending es) (portOf off)) fun v => .next ((s.setPending es).record v) := by
  rw [step_event h]
  simp [hostEvent, accessOk, h4]

/-- Everything a step can do: wait, reset, refuse an access without meaning (R54), read a port, or write one. -/
theorem step_cases (s : State) :
    (s.pending = [] ∧ step s = .next s) ∨
    (∃ es, s.pending = .reset :: es ∧ step s = .next (s.setPending es).blockReset) ∨
    (∃ e es off w, s.pending = e :: es ∧ accessOk off w = false ∧
      (e = .read off w ∨ ∃ v, e = .write off w v) ∧ step s = .refused .hostAccessShape) ∨
    (∃ off es, s.pending = .read off 32 :: es ∧ off.toNat % 4 = 0 ∧
      step s = orFault (readPort (s.setPending es) (portOf off)) fun v => .next ((s.setPending es).record v)) ∨
    (∃ off v es, s.pending = .write off 32 v :: es ∧ off.toNat % 4 = 0 ∧
      step s = writePort (s.setPending es) v (portOf off)) := by
  cases hp : s.pending with
  | nil => exact .inl ⟨rfl, step_idle hp⟩
  | cons e es =>
    have hs := step_event hp
    cases e with
    | reset => exact .inr (.inl ⟨es, rfl, hs⟩)
    | read off w =>
      cases ha : accessOk off w with
      | false =>
        exact .inr (.inr (.inl ⟨_, es, off, w, rfl, ha, .inl rfl, by rw [hs]; simp [hostEvent, ha]⟩))
      | true =>
        have hb := ha
        simp only [accessOk, Bool.and_eq_true, beq_iff_eq] at hb
        obtain ⟨rfl, h4⟩ := hb
        exact .inr (.inr (.inr (.inl ⟨off, es, rfl, h4, by rw [hs]; simp [hostEvent, ha]⟩)))
    | write off w v =>
      cases ha : accessOk off w with
      | false =>
        exact .inr (.inr (.inl ⟨_, es, off, w, rfl, ha, .inr ⟨v, rfl⟩, by rw [hs]; simp [hostEvent, ha]⟩))
      | true =>
        have hb := ha
        simp only [accessOk, Bool.and_eq_true, beq_iff_eq] at hb
        obtain ⟨rfl, h4⟩ := hb
        exact .inr (.inr (.inr (.inr ⟨off, v, es, rfl, h4, by rw [hs]; simp [hostEvent, ha]⟩)))

/-- CMD stands at 0x01C (10_state.md R29). -/
theorem portOf_cmd : portOf cmdOffset = .cmd := by decide

/-- The port of a DMEM word (20_memory.md R53). -/
theorem portOf_dmem {off : BitVec 17} {i : Nat} (hi : i < 4096) (h : off.toNat = 0x1000 + 4 * i) :
    portOf off = .dmem i := by
  simp only [portOf, h, Config.dmemWords]
  rw [if_neg (by omega), if_pos (by omega)]
  congr 1; omega

/-- No register at a fixed offset is a DMEM word (10_state.md R41). -/
theorem fixedPorts_ne_dmem (i : Nat) : ∀ c ∈ fixedPorts, c.2 ≠ .dmem i := by simp [fixedPorts]

/-- The register window, offsets below 0x1000, names no DMEM word (20_memory.md R50; 10_state.md R41). -/
theorem registerPort_ne_dmem (o i : Nat) : registerPort o ≠ .dmem i := by
  unfold registerPort ctxPort slotPort
  split_ifs <;> try exact Port.noConfusion
  intro hp
  cases hl : fixedPorts.lookup o with
  | none => rw [hl] at hp; cases hp
  | some q =>
    obtain ⟨before, rest, hf, -⟩ := List.lookup_eq_some_iff.1 hl
    have hq : q ≠ .dmem i := fixedPorts_ne_dmem i (o, q) (hf ▸ List.mem_append_right _ List.mem_cons_self)
    rw [hl] at hp
    exact hq hp

/-- The only DMEM word a port names exists. -/
theorem portOf_dmem_lt {off : BitVec 17} {i : Nat} (h : portOf off = .dmem i) : i < 4096 := by
  simp only [portOf, Config.dmemWords] at h
  split_ifs at h with hr hd
  · exact absurd h (registerPort_ne_dmem _ _)
  · injection h with hi
    omega

/-- A command word that decodes runs its command, with CMD holding the word (30_encoding.md R70). -/
theorem issue_ok {v : Word32} {i : Instr} (h : decode v = .ok i) (s : State) : issue v s = exec i (s.setCmd v) := by
  simp [issue, h]

/-- A command word that does not decode ends with ILLEGAL (R70). -/
theorem issue_error {v : Word32} {e : DecodeError} (h : decode v = .error e) (s : State) :
    issue v s = fail .illegal (s.setCmd v) := by
  simp [issue, h]

/-- A write of a read-only register or a reserved offset changes nothing (10_state.md R22 to R41, U23). -/
def Port.writeIgnored : Port → Bool
  | .id | .param0 | .param1 | .param2 | .param3 | .accLo | .accHi | .res | .reserved => true
  | .ctxInfo _ | .ctxGain _ | .dpInfo _ => true
  | .cmd | .ctrl | .status | .arg0 | .arg1 | .arg2 | .dmem _ => false

theorem writePort_ignored {p : Port} (h : p.writeIgnored = true) (s : State) (v : Word32) :
    writePort s v p = .next s := by
  cases p <;> first | rfl | cases h

/-- A host read stops only at an unwritten DMEM word (20_memory.md R56). -/
theorem readPort_error {s : State} {p : Port} {a : Nat} (h : readPort s p = .error a) :
    p = .dmem a ∧ s.mem.read a = none := by
  cases p with
  | dmem i =>
    simp only [readPort] at h
    cases hr : s.mem.read i with
    | none => simp only [hr, Except.error.injEq] at h; subst h; exact ⟨rfl, hr⟩
    | some v => simp [hr] at h
  | _ => cases h

end Sys2Proof.Machine
end

