-- ==== Sys2Proof/Laws/PerInstr.lean ====
section
/-! SUPPORT. What holds of the words of every command, one lemma per constructor: the encoded word matches the
mask and the pattern of its own row of spec/opcode_table.json (30_encoding.md R72, R73). -/

namespace Sys2Proof.Laws.EncodeMatchesRow

/-- Mask of the command's row in spec/opcode_table.json. -/
def mask : Instr → Word32
  | .dpExec _ _ => 0xFFFFFEFC
  | .nop | .fxFromf | .fxTof | .fxMul | .macClr | .macAcc | .macRd => 0xFFFFFFFF
  | .dpLoad _ | .dpFree _ | .intCreate _ | .intKaiser _ | .intReset _ | .intExec _ | .intExecBlock _
  | .intSetScale _ | .intCopy _ | .intDestroy _ => 0xFFFFFFFC

/-- Match value of the command's row in spec/opcode_table.json. -/
def pattern : Instr → Word32
  | .nop => 0x00000000
  | .fxFromf => 0x01000000
  | .fxTof => 0x02000000
  | .fxMul => 0x03000000
  | .macClr => 0x04000000
  | .macAcc => 0x05000000
  | .macRd => 0x06000000
  | .dpLoad _ => 0x10000000
  | .dpExec _ _ => 0x11000000
  | .dpFree _ => 0x12000000
  | .intCreate _ => 0x20000000
  | .intKaiser _ => 0x21000000
  | .intReset _ => 0x23000000
  | .intExec _ => 0x24000000
  | .intExecBlock _ => 0x25000000
  | .intSetScale _ => 0x26000000
  | .intCopy _ => 0x27000000
  | .intDestroy _ => 0x28000000

/-- The encoded word lies in the command's own row and in no other (R72, R73). -/
def Statement (i : Instr) : Prop := encode i &&& mask i = pattern i ∧ (encode i).extractLsb' 24 8 = (pattern i).extractLsb' 24 8

theorem nop : Statement .nop := by unfold Statement; decide
theorem fxFromf : Statement .fxFromf := by unfold Statement; decide
theorem fxTof : Statement .fxTof := by unfold Statement; decide
theorem fxMul : Statement .fxMul := by unfold Statement; decide
theorem macClr : Statement .macClr := by unfold Statement; decide
theorem macAcc : Statement .macAcc := by unfold Statement; decide
theorem macRd : Statement .macRd := by unfold Statement; decide
theorem dpLoad (s : BitVec 2) : Statement (.dpLoad s) := by unfold Statement; revert s; decide
theorem dpExec (u : Bool) (s : BitVec 2) : Statement (.dpExec u s) := by unfold Statement; revert u s; decide
theorem dpFree (s : BitVec 2) : Statement (.dpFree s) := by unfold Statement; revert s; decide
theorem intCreate (c : BitVec 2) : Statement (.intCreate c) := by unfold Statement; revert c; decide
theorem intKaiser (c : BitVec 2) : Statement (.intKaiser c) := by unfold Statement; revert c; decide
theorem intReset (c : BitVec 2) : Statement (.intReset c) := by unfold Statement; revert c; decide
theorem intExec (c : BitVec 2) : Statement (.intExec c) := by unfold Statement; revert c; decide
theorem intExecBlock (c : BitVec 2) : Statement (.intExecBlock c) := by unfold Statement; revert c; decide
theorem intSetScale (c : BitVec 2) : Statement (.intSetScale c) := by unfold Statement; revert c; decide
theorem intCopy (c : BitVec 2) : Statement (.intCopy c) := by unfold Statement; revert c; decide
theorem intDestroy (c : BitVec 2) : Statement (.intDestroy c) := by unfold Statement; revert c; decide

end Sys2Proof.Laws.EncodeMatchesRow
end

