-- ==== Sys2Proof/Tests/Slice0.lean ====
section
/-! SUPPORT. Tests on single steps, with the expected results of spec/95_test_vectors.md and of the examples of the
rules, and one witness for each obligation that has hypotheses. -/

namespace Sys2Proof.Tests

open Sys2Proof.Machine

/-! Helpers -/

/-- A field of the next state, none when a step stops. -/
def after {α : Type} (r : Result) (f : State → α) : Option α :=
  match r with
  | .next t => some (f t)
  | .fault _ => none
  | .refused _ => none

/-- RES and SAT. -/
def resSat (r : Result) : Option (Word32 × Bool) := after r fun t => (t.res, t.sat)

/-- STATUS as the host reads it. -/
def status (r : Result) : Option Word32 := after r statusWord

/-- The reset state with the three ARG registers. -/
def args (a b c : Word32) : State := { State.reset with arg0 := a, arg1 := b, arg2 := c }

/-- DMEM holding `v` from index `a` up. -/
def dmem (a : Nat) (v : List Sample) : Memory := Memory.writeMany [] a v

/-- A state whose host does these things next. -/
def doing (es : List HostEvent) : State := { State.reset with pending := es }

/-- A state whose host issues this word next. -/
def issuing (v : Word32) : State := doing [.write 0x01C 32 v]

/-- The context of 43_interp.md R200: H = [1, 2, 3, 4], M = 2. -/
def obj : Interp := buildInterp 2 [1, 2, 3, 4] .taps

/-- Context 0 READY with `obj`, the input (4096, 0) at DMEM[10..12), operands xa = 10, ya = 20, k = 1. -/
def bankState : State :=
  { args 10 20 1 with ctx := ⟨.ready obj, .uninit⟩, mem := dmem 10 [0x1000, 0] }

/-- Slot 0 READY with [4096, 2048, -1024] and DMEM[16..19) = [4096, 4096, 4096]; ARG0 = 16. -/
def slotState : State :=
  { args 16 0 0 with
    slots := ⟨.ready ⟨3, [0x1000, 0x0800, 0xFC00]⟩, .empty⟩
    mem := dmem 16 [0x1000, 0x1000, 0x1000] }

/-! WellFormed: every index check refuses 2 and 3, and lets 0 and 1 through (30_encoding.md R75) -/

/-- Every command with an index, at index `k`. -/
def indexed (k : BitVec 2) : List Instr :=
  [.dpLoad k, .dpExec false k, .dpExec true k, .dpFree k, .intCreate k, .intKaiser k, .intReset k, .intExec k,
    .intExecBlock k, .intSetScale k, .intCopy k, .intDestroy k]

theorem test_ill_formed_refused : ∀ i ∈ indexed 2 ++ indexed 3, i.wellFormed = false := by decide
theorem test_well_formed_accepted : ∀ i ∈ indexed 0 ++ indexed 1, i.wellFormed = true := by decide

/-! Decoding, words written out from 30_encoding.md R71 and R73: OP 31:24, zeros 23:9, U 8, zeros 7:2, IDX 1:0 -/

theorem test_decode_nop : decode 0b00000000_00000000_00000000_00000000 = .ok .nop := by rfl
theorem test_decode_fx_fromf : decode 0b00000001_00000000_00000000_00000000 = .ok .fxFromf := by rfl
theorem test_decode_fx_tof : decode 0b00000010_00000000_00000000_00000000 = .ok .fxTof := by rfl
theorem test_decode_fx_mul : decode 0b00000011_00000000_00000000_00000000 = .ok .fxMul := by rfl
theorem test_decode_mac_clr : decode 0b00000100_00000000_00000000_00000000 = .ok .macClr := by rfl
theorem test_decode_mac_acc : decode 0b00000101_00000000_00000000_00000000 = .ok .macAcc := by rfl
theorem test_decode_mac_rd : decode 0b00000110_00000000_00000000_00000000 = .ok .macRd := by rfl
theorem test_decode_dp_load : decode 0b00010000_00000000_00000000_00000001 = .ok (.dpLoad 1) := by rfl
theorem test_decode_dp_exec : decode 0b00010001_00000000_00000000_00000001 = .ok (.dpExec false 1) := by rfl
theorem test_decode_dp_exec4 : decode 0b00010001_00000000_00000001_00000000 = .ok (.dpExec true 0) := by rfl
theorem test_decode_dp_free : decode 0b00010010_00000000_00000000_00000001 = .ok (.dpFree 1) := by rfl
theorem test_decode_int_create : decode 0b00100000_00000000_00000000_00000001 = .ok (.intCreate 1) := by rfl
theorem test_decode_int_kaiser : decode 0b00100001_00000000_00000000_00000001 = .ok (.intKaiser 1) := by rfl
theorem test_decode_int_reset : decode 0b00100011_00000000_00000000_00000001 = .ok (.intReset 1) := by rfl
theorem test_decode_int_exec : decode 0b00100100_00000000_00000000_00000001 = .ok (.intExec 1) := by rfl
theorem test_decode_int_exec_block : decode 0b00100101_00000000_00000000_00000001 = .ok (.intExecBlock 1) := by rfl
theorem test_decode_int_set_scale : decode 0b00100110_00000000_00000000_00000001 = .ok (.intSetScale 1) := by rfl
theorem test_decode_int_copy : decode 0b00100111_00000000_00000000_00000001 = .ok (.intCopy 1) := by rfl
theorem test_decode_int_destroy : decode 0b00101000_00000000_00000000_00000001 = .ok (.intDestroy 1) := by rfl

/-- The illegal words of 95_test_vectors.md section 2.10: all end with ILLEGAL and ERR. -/
theorem test_illegal_words :
    [0x00000001, 0x00000100, 0x00800000, 0x07000000, 0x0F000000, 0x13000000, 0x22000000, 0x22000001, 0x29000000,
      0xFF000000, 0x11000102, 0x11000103, 0x11000200, 0x10000100, 0x10000004, 0x24000003, 0x24000002, 0x24800000,
      0x06000004].map (fun v => status (step (issuing v))) = List.replicate 19 (some 0x00000101) := by
  decide +kernel

/-- The fixed interface: a placed word is the first command after reset. -/
theorem test_with_fetch_word :
    after (step (State.reset.withFetchWord 32 0x24000000)) (fun t => (t.cmd, t.lastErr)) =
      some (0x24000000, .misuse) := by decide
theorem test_decode_table_word : decodeTableWord 32 0x11000101 = some (.dpExec true 1) := by rfl

/-! The scalar unit (95_test_vectors.md sections 2.1 to 2.4) -/

/-- NOP from STATUS = 0x00000305 leaves 0x00000300. -/
theorem test_nop :
    status (exec .nop { State.reset with lastErr := .bounds, err := true, sat := true }) = some 0x00000300 := by decide
theorem test_fromf_tie : resSat (exec .fxFromf (args 0xB9000000 0 0)) = some (0xFFFFFFFF, false) := by decide
theorem test_fromf_tie_clamps : resSat (exec .fxFromf (args 0x40FFFF00 0 0)) = some (0x00007FFF, true) := by decide
theorem test_tof_fraction : resSat (exec .fxTof (args 0x00000203 0 0)) = some (0x3E00C000, false) := by decide
theorem test_tof_minimum : resSat (exec .fxTof (args 0x00008000 0 0)) = some (0xC1000000, false) := by decide
theorem test_mul_floor : resSat (exec .fxMul (args 3 0xFFFFF800 0)) = some (0xFFFFFFFE, false) := by decide
theorem test_mul_bound : resSat (exec .fxMul (args 8192 16384 0)) = some (0x00007FFF, true) := by decide
theorem test_mac_clr :
    after (exec .macClr { State.reset with acc := 0x7FFFFFFFFF, sat := true }) (fun t => (t.acc, t.sat)) =
      some (0, true) := by decide
/-- The second step of `mac.acc 6144, 410; mac.acc -4096, 100`. -/
theorem test_mac_acc :
    after (exec .macAcc { args 0xFFFFF000 100 0 with acc := 2519040 }) (fun t => (t.acc, t.sat)) =
      some (2109440, false) := by decide
/-- The 512th `mac.acc -32768, -32768`. -/
theorem test_mac_acc_clamps :
    after (exec .macAcc { args 0xFFFF8000 0xFFFF8000 0 with acc := 0x7FC0000000 }) (fun t => (t.acc, t.sat)) =
      some (0x7FFFFFFFFF, true) := by decide
theorem test_mac_rd_floor :
    resSat (exec .macRd { State.reset with acc := BitVec.ofInt 40 (-4097) }) = some (0xFFFFFFFE, false) := by decide
theorem test_mac_rd_clamps :
    resSat (exec .macRd { State.reset with acc := BitVec.ofInt 40 (-134221824) }) = some (0xFFFF8000, true) := by decide

/-! Dot-product slots (95_test_vectors.md section 2.5) -/

theorem test_dp_load :
    after (exec (.dpLoad 0) { args 1 2 0 with mem := dmem 0 [0x1000, 0x0800, 0xFC00] }) (fun t => t.slots.at0) =
      some (.ready ⟨2, [0x0800, 0xFC00]⟩) := by decide
/-- `dp.load s0, 5000, 300`: RESOURCE before BOUNDS. -/
theorem test_dp_load_order : status (exec (.dpLoad 0) (args 5000 300 0)) = some 0x00000104 := by decide
theorem test_dp_exec : resSat (exec (.dpExec false 0) slotState) = some (0x00001400, false) := by decide
/-- P2 step 5: five terms on the unrolled path, one round and a tail of one. -/
theorem test_dp_exec4 :
    resSat (exec (.dpExec true 1) { args 16 0 0 with
      slots := ⟨.empty, .ready ⟨5, [0x1000, 0x0800, 0xFC00, 1, 0xFFFF]⟩⟩
      mem := dmem 16 [0x1000, 0x1000, 0x1000, 0xF000, 0x2000] }) = some (0x000013FD, false) := by decide
theorem test_dp_free : after (exec (.dpFree 0) slotState) (fun t => t.slots.at0) = some .empty := by decide
theorem test_dp_free_empty : status (exec (.dpFree 1) slotState) = some 0x00000102 := by decide

/-! The designer (95_test_vectors.md section 2.6); the taps are free, so the object's shape is all a test can see -/

theorem test_int_kaiser :
    after (exec (.intKaiser 0) (args 2 1 0x42700000)) (fun t => (ctxInfoWord t.ctx.at0, ctxGainWord t.ctx.at0)) =
      some (0x00020205, 0x00001000) := by rfl
/-- CONFIG (m = 0) before RESOURCE (M > 16). -/
theorem test_int_kaiser_order : status (exec (.intKaiser 0) (args 17 0 0x42700000)) = some 0x00000103 := by decide

/-! The interpolator bank (95_test_vectors.md sections 2.7, 2.8 and P3) -/

/-- SUB of the three-phase bank of section 2.8. -/
theorem test_int_create :
    after (exec (.intCreate 1) { args 3 0 6 with mem := dmem 0 [0x1000, 0, 0xF000, 0x0800, 0x0400, 0x0200] })
      (fun t => t.ctx.at1) =
      some (.ready ⟨3, 2, .taps, [[0x1000, 0x0800], [0, 0x0400], [0xF000, 0x0200]], [⟨0, 0⟩, ⟨0, 0⟩], 0x1000⟩) := by
  decide
theorem test_int_create_no_wrap : status (exec (.intCreate 0) (args 2 0xFFFFFFFF 2)) = some 0x00000105 := by decide
theorem test_int_reset :
    after (exec (.intReset 0) { bankState with ctx := ⟨.ready { obj with hist := [⟨1, 2⟩, ⟨3, 4⟩], gain := 5 }, .uninit⟩ })
      (fun t => t.ctx.at0) = some (.ready { obj with gain := 5 }) := by decide
/-- P3 step 7: both phases, a history of two samples, gain 0.5. -/
theorem test_int_exec :
    after (exec (.intExec 0) { args 8 16 0 with
      ctx := ⟨.ready ⟨2, 2, .taps, [[0x1000, 0x0400], [0x0800, 0xFC00]], [⟨0x1000, 0xF800⟩, ⟨0, 0⟩], 0x0800⟩, .uninit⟩
      mem := dmem 8 [0x0800, 0] }) (fun t => (t.mem.readMany 16 4).toOption) =
      some (some [1536, BitVec.ofInt 16 (-256), 0, 256]) := by decide
theorem test_int_exec_bounds : status (exec (.intExec 0) { bankState with arg1 := 4093 }) = some 0x00000105 := by decide
/-- The in-place block of section 2.8: the second sample read is the first one's output. -/
theorem test_int_exec_block_in_place :
    after (exec (.intExecBlock 0) { args 100 100 2 with
      ctx := ⟨.ready ⟨2, 1, .taps, [[0x1000], [0x1000]], [⟨0, 0⟩], 0x1000⟩, .uninit⟩
      mem := dmem 100 [1, 2, 3, 4] }) (fun t => (t.mem.readMany 100 8).toOption) =
      some (some [1, 2, 1, 2, 1, 2, 1, 2]) := by decide
theorem test_int_exec_block_empty :
    exec (.intExecBlock 0) { bankState with arg0 := 5000, arg1 := 5000, arg2 := 0 } =
      .next { bankState with arg0 := 5000, arg1 := 5000, arg2 := 0 } := by rfl
theorem test_int_set_scale :
    after (exec (.intSetScale 0) { bankState with arg0 := 0x00018000 }) (fun t => ctxGainWord t.ctx.at0) =
      some 0xFFFF8000 := by decide
theorem test_int_copy :
    after (exec (.intCopy 0) { bankState with arg0 := 1 }) (fun t => t.ctx) = some ⟨.ready obj, .ready obj⟩ := by decide
theorem test_int_copy_absent : status (exec (.intCopy 0) { bankState with arg0 := 2 }) = some 0x00000103 := by decide
theorem test_int_destroy :
    after (exec (.intDestroy 0) bankState) (fun t => ctxInfoWord t.ctx.at0) = some 0x00000002 := by decide
theorem test_int_destroy_uninit : status (exec (.intDestroy 1) bankState) = some 0x00000102 := by decide

/-! The scaling function (95_test_vectors.md section 2.9) -/

theorem test_scale_rows :
    [scale 2048 5, scale (-2048) 5, scale 8192 20000, scale (-4096) (-32768), scale (-32768) 4096] =
      [⟨2, false⟩, ⟨-3, false⟩, ⟨32767, true⟩, ⟨32767, true⟩, ⟨-32768, false⟩] := by decide

/-! The host interface (95_test_vectors.md section 2.12) -/

/-- What a host read of an offset returns. -/
def rd (s : State) (off : BitVec 17) : Option Word32 := (readPort s (portOf off)).toOption

theorem test_constants :
    [0x000, 0x004, 0x008, 0x00C, 0x010].map (rd State.reset) =
      [some 0x4C510001, some 0x00280C10, some 0x01000010, some 0x00220400, some 0x00001000] := by decide +kernel
theorem test_reserved_reads :
    [0x02C, 0x030, 0x040, 0x0FFC, 0x120, 0x108, 0x1A0, 0x5000].map (rd State.reset) = List.replicate 8 (some 0) := by
  decide +kernel
theorem test_ctrl_write : after (step (doing [.write 0x014 32 0xFFFFFFFF])) ctrlWord = some 0x00000003 := by decide
theorem test_dmem_write :
    after (step (doing [.write 0x101C 32 0x1234F000])) (fun t => rd t 0x101C) = some (some 0xFFFFF000) := by decide
theorem test_status_write :
    after (step { doing [.write 0x018 32 0x00000100] with lastErr := .illegal, err := true }) statusWord =
      some 0x00000001 := by decide
theorem test_acc_windows :
    (fun s => (accHiWord s, accLoWord s)) { State.reset with acc := BitVec.ofInt 40 (-549739036672) } =
      (0xFFFFFF80, 0x01000000) := by decide
theorem test_reset_event :
    step { bankState with pending := [.reset], reads := [7] } = .next { State.reset with reads := [7] } := by rfl

/-! Witnesses: for each obligation with hypotheses, a state and operands that meet them all, one per clause and at the
boundary of the clause's range -/

theorem witness_StepRunsTheIssuedCommand :
    (issuing 0x11000101).pending = [.write 0x01C 32 0x11000101] ∧ decode 0x11000101 = .ok (.dpExec true 1) :=
  ⟨rfl, rfl⟩

/-- The issued words of the three obligations about illegal words: every word can be pending. -/
theorem witness_any_word_pending (v : Word32) : (issuing v).pending = [.write 0x01C 32 v] := rfl

theorem witness_UnassignedOpcodesAreIllegal :
    [0x07, 0x0F, 0x13, 0x1F, 0x29, 0xFF, 0x22].all (fun op : Nat =>
      let v : Word32 := BitVec.ofNat 32 (op * 2 ^ 24)
      decide (0x07 ≤ v.toNat / 2 ^ 24 ∧ v.toNat / 2 ^ 24 ≤ 0x0F ∨ 0x13 ≤ v.toNat / 2 ^ 24 ∧ v.toNat / 2 ^ 24 ≤ 0x1F ∨
        0x29 ≤ v.toNat / 2 ^ 24 ∨ v.toNat / 2 ^ 24 = 0x22)) = true := by decide +kernel

theorem witness_ReservedBitsAreIllegal_c0 :
    ([0x00000001, 0x00800000, 0x06000100] : List Word32).all (fun v =>
      decide (v.toNat / 2 ^ 24 ≤ 0x06 ∧ v.toNat % 2 ^ 24 ≠ 0)) = true := by decide +kernel
theorem witness_ReservedBitsAreIllegal_ci :
    ([0x10000004, 0x10000100, 0x28800003] : List Word32).all (fun v =>
      decide (v.toNat / 2 ^ 24 ∈ [0x10, 0x12, 0x20, 0x21, 0x23, 0x24, 0x25, 0x26, 0x27, 0x28] ∧
        v.toNat % 2 ^ 24 / 4 ≠ 0)) = true := by decide +kernel
theorem witness_ReservedBitsAreIllegal_ciu :
    ([0x11000004, 0x11000080, 0x11000200, 0x11800101] : List Word32).all (fun v =>
      decide (v.toNat / 2 ^ 24 = 0x11 ∧ (v.toNat % 2 ^ 24 / 2 ^ 9 ≠ 0 ∨ v.toNat % 2 ^ 8 / 4 ≠ 0))) = true := by
  decide +kernel

theorem witness_IndexOutOfRangeIsIllegal :
    ([0x10000002, 0x11000103, 0x28000003] : List Word32).all (fun v =>
      decide (v.toNat / 2 ^ 24 ∈ [0x10, 0x11, 0x12, 0x20, 0x21, 0x23, 0x24, 0x25, 0x26, 0x27, 0x28] ∧
        2 ≤ v.toNat % 4)) = true := by decide +kernel
theorem witness_IllFormedCommandsEndIllegal : (Instr.dpExec true 2).wellFormed = false := by decide

/-- Exponent and fraction fields of 2^-126, the greatest finite value, the smallest subnormal, infinity and a NaN. -/
theorem witness_Binary32PatternsReadAsSpecified :
    ([0x00800000, 0x7F7FFFFF, 0x80000001, 0x7F800000, 0xFF800001] : List Word32).map
      (fun v => (v.toNat / 2 ^ 23 % 2 ^ 8, v.toNat % 2 ^ 23)) =
      [(1, 0), (254, 0x7FFFFF), (0, 1), (255, 0), (255, 1)] := by decide +kernel

theorem witness_FromFloatRoundsAndSaturates_stops :
    readF32 (args 0x7FC00000 0 0).arg0 = .nan ∧ readF32 (args 0x7F800000 0 0).arg0 = .inf false ∧
      readF32 (args 0xFF800000 0 0).arg0 = .inf true := by decide
theorem witness_FromFloatRoundsAndSaturates_value : (readF32 (args 0xB9000000 0 0).arg0).value = some (-1 / 8192) := by
  have h : readF32 (args 0xB9000000 0 0).arg0 = .finite true (2 ^ 23) (-36) := by decide
  rw [h]
  norm_num [F32.value]

theorem witness_FixedFloatRoundTrip :
    ∃ t1 t2 t3 : State, exec .fxFromf (args 0x41000000 0 0) = .next t1 ∧
      exec .fxTof { t1 with arg0 := t1.res } = .next t2 ∧ exec .fxFromf { t2 with arg0 := t2.res } = .next t3 :=
  ⟨_, _, _, rfl, rfl, rfl⟩

/-- A command answers a next state: the hypothesis of the rules over all commands. -/
theorem witness_every_command_rule :
    exec .fxMul State.reset = .next State.reset ∧
      exec (.intReset 0) State.reset = .next { State.reset with lastErr := .misuse, err := true } := ⟨rfl, rfl⟩

theorem witness_AccBelongsToTheScalarUnit :
    Instr.fxMul ∈ [Instr.fxMul, .macClr, .macAcc, .macRd] ∧
      Instr.intExec 0 ∉ [Instr.nop, .fxFromf, .fxTof, .fxMul, .macClr, .macAcc, .macRd] := by decide

/-- A command that fails when it is issued. -/
theorem witness_ErrorsAreAllOrNothing :
    (issuing 0x23000000).pending = [.write 0x01C 32 0x23000000] ∧
      after (step (issuing 0x23000000)) (fun t => t.lastErr) = some .misuse := ⟨rfl, by decide⟩

theorem witness_OnlyNamedCommandsWriteResults :
    (∃ t, exec (.intSetScale 0) bankState = .next t) ∧
      Instr.intSetScale 0 ∉ [Instr.fxFromf, .fxMul, .macRd, .fxTof] ∧ (∀ u k, Instr.intSetScale 0 ≠ .dpExec u k) ∧
      Instr.intSetScale 0 ∉ [Instr.macClr, .macAcc] ∧ (∀ c, Instr.intSetScale 0 ≠ .intExec c) ∧
      ∀ c, Instr.intSetScale 0 ≠ .intExecBlock c :=
  ⟨⟨_, rfl⟩, by decide, by decide, by decide, by decide, by decide⟩

/-- MISUSE: a context that is UNINIT, one that is DESTROYED, and a slot that is EMPTY. -/
theorem witness_MisuseWhenNotReady :
    (1 : BitVec 2).toNat < 2 ∧ (∀ o, State.reset.ctx.get? (1 : BitVec 2).toNat ≠ some (.ready o)) ∧
      (∀ o, { State.reset with ctx := ⟨.uninit, .destroyed⟩ }.ctx.get? (1 : BitVec 2).toNat ≠ some (.ready o)) ∧
      State.reset.slots.get? (1 : BitVec 2).toNat = some .empty := by
  refine ⟨by decide, fun o h => ?_, fun o h => ?_, rfl⟩ <;> cases h

theorem witness_RangesThatLeaveDmemAreBounds_slot :
    { slotState with arg0 := 4094 }.slots.get? (0 : BitVec 2).toNat = some (.ready ⟨3, [0x1000, 0x0800, 0xFC00]⟩) ∧
      1 ≤ 3 ∧ 4096 < { slotState with arg0 := 4094 }.arg0.toNat + 3 := ⟨rfl, by decide, by decide⟩
theorem witness_RangesThatLeaveDmemAreBounds_exec :
    { bankState with arg1 := 4093 }.ctx.get? (0 : BitVec 2).toNat = some (.ready obj) ∧ 1 ≤ obj.M ∧
      (4096 < { bankState with arg0 := 4095 }.arg0.toNat + 2) ∧
      4096 < { bankState with arg1 := 4093 }.arg1.toNat + 2 * obj.M := ⟨rfl, by decide, by decide, by decide⟩
theorem witness_RangesThatLeaveDmemAreBounds_block :
    { bankState with arg0 := 4093, arg2 := 2 }.ctx.get? (0 : BitVec 2).toNat = some (.ready obj) ∧ 1 ≤ obj.M ∧
      1 ≤ { bankState with arg2 := 1 }.arg2.toNat ∧
      (4096 < { bankState with arg0 := 4093, arg2 := 2 }.arg0.toNat + 2 * (2 : Word32).toNat) ∧
      4096 < { bankState with arg1 := 4089, arg2 := 2 }.arg1.toNat + 2 * obj.M * (2 : Word32).toNat :=
  ⟨rfl, by decide, by decide, by decide, by decide⟩

/-- INT_COPY of context 0 to 1 names no other context than 1, and no slot. -/
theorem witness_OnlyNamedObjectsChange :
    (∃ t, exec (.intCopy 0) { bankState with arg0 := 1 } = .next t) ∧
      (∀ c, Instr.intCopy 0 ∈ [Instr.intCreate c, .intKaiser c, .intReset c, .intExec c, .intExecBlock c, .intSetScale c,
        .intDestroy c] → (0 : Nat) ≠ c.toNat) ∧
      (∀ c, Instr.intCopy 0 = .intCopy c → (0 : Nat) ≠ { bankState with arg0 := 1 }.arg0.toNat) ∧
      ∀ k, Instr.intCopy 0 ∈ [Instr.dpLoad k, .dpFree k] → (0 : Nat) ≠ k.toNat :=
  ⟨⟨_, rfl⟩, by decide, by decide, by decide⟩

/-- STATUS with each error code, as 60_exceptions.md R251 numbers them. -/
theorem test_error_codes :
    [ErrCode.ok, .illegal, .misuse, .config, .resource, .bounds].map
      (fun e => statusWord { State.reset with lastErr := e }) = [0, 1, 2, 3, 4, 5] := by decide

/-- The interrupt rows of 95_test_vectors.md section 2.12: ERR under ERR_IE, SAT under SAT_IE, each masked alone. -/
theorem test_irq_rows :
    [irq { State.reset with err := true, sat := true }, irq { State.reset with errIe := true, err := true },
      irq { State.reset with errIe := true, sat := true }, irq { State.reset with satIe := true, sat := true },
      irq { State.reset with satIe := true, err := true }] = [false, true, false, true, false] := by decide

/-- The last words of DMEM loaded into slot 1. -/
theorem witness_DpLoadCopiesTaps :
    let s : State := { args 4094 2 0 with mem := dmem 4094 [5, 6] }
    (1 : BitVec 2).toNat < 2 ∧ s.arg1.toNat = [(5 : Sample), 6].length ∧ 1 ≤ [(5 : Sample), 6].length ∧
      [(5 : Sample), 6].length ≤ 256 ∧ s.arg0.toNat + [(5 : Sample), 6].length ≤ 4096 ∧
      ∀ j < [(5 : Sample), 6].length, s.mem.read (s.arg0.toNat + j) = [(5 : Sample), 6][j]? := by
  decide

theorem witness_DpLoadErrorOrder :
    (0 : BitVec 2).toNat < 2 ∧ (args 5000 0 0).arg1.toNat = 0 ∧ 256 < (args 5000 257 0).arg1.toNat ∧
      1 ≤ (args 3841 256 0).arg1.toNat ∧ (args 3841 256 0).arg1.toNat ≤ 256 ∧
      4096 < (args 3841 256 0).arg0.toNat + (args 3841 256 0).arg1.toNat := by decide

theorem witness_DpExecGivesExactSum :
    let d : DotProduct := ⟨3, [0x1000, 0x0800, 0xFC00]⟩
    let x : List Sample := [0x1000, 0x1000, 0x1000]
    slotState.slots.get? (0 : BitVec 2).toNat = some (.ready d) ∧ d.wf = true ∧ x.length = d.n ∧
      slotState.arg0.toNat + d.n ≤ 4096 ∧ ∀ j < d.n, slotState.mem.read (slotState.arg0.toNat + j) = x[j]? := by
  decide

theorem witness_DpFreeEmptiesSlot :
    (1 : BitVec 2).toNat < 2 ∧ slotState.slots.get? (0 : BitVec 2).toNat = some (.ready ⟨3, [0x1000, 0x0800, 0xFC00]⟩) ∧
      slotState.slots.get? (1 : BitVec 2).toNat = some .empty := ⟨by decide, rfl, rfl⟩

theorem witness_KaiserTapsAreSymmetric : 0 ≤ 2 * 1 * 2 ∧ 2 * 1 * 2 ≤ 2 * 1 * 2 := by decide

/-- As = 60.0 (0x42700000). -/
theorem as_is_sixty : (readF32 0x42700000).value = some 60 := by
  have h : readF32 0x42700000 = .finite false 0xF00000 (-18) := by decide
  rw [h]
  norm_num [F32.value]

/-- The largest design: M = 16, m = 32, 2mM = 1024. -/
theorem witness_IntKaiserBuildsContext :
    (1 : BitVec 2).toNat < 2 ∧ (args 16 32 0x42700000).arg0.toNat = 16 ∧ (args 16 32 0x42700000).arg1.toNat = 32 ∧
      1 ≤ 16 ∧ 16 ≤ 16 ∧ 1 ≤ 32 ∧ 2 * 32 ≤ 256 ∧ 2 * 32 * 16 ≤ 1024 ∧
      ∃ x : ℚ, (readF32 (args 16 32 0x42700000).arg2).value = some x ∧ 0 < x :=
  ⟨by decide, by decide, by decide, by decide, by decide, by decide, by decide, by decide, 60, as_is_sixty, by norm_num⟩

theorem witness_IntKaiserErrorOrder_config :
    (args 0 1 0x42700000).arg0.toNat = 0 ∧ (args 17 0 0x42700000).arg1.toNat = 0 ∧
      ∀ x : ℚ, (readF32 (args 2 1 0x7F800000).arg2).value = some x → x ≤ 0 := by
  refine ⟨by decide, by decide, fun x h => ?_⟩
  have e : readF32 (args 2 1 0x7F800000).arg2 = .inf false := by decide
  rw [e] at h
  cases h
theorem witness_IntKaiserErrorOrder_resource :
    1 ≤ (args 17 1 0x42700000).arg0.toNat ∧ 1 ≤ (args 17 1 0x42700000).arg1.toNat ∧
      (∃ x : ℚ, (readF32 (args 17 1 0x42700000).arg2).value = some x ∧ 0 < x) ∧
      16 < (args 17 1 0x42700000).arg0.toNat ∧ 256 < 2 * (args 1 129 0x42700000).arg1.toNat ∧
      1024 < 2 * (args 16 33 0x42700000).arg1.toNat * (args 16 33 0x42700000).arg0.toNat :=
  ⟨by decide, by decide, ⟨60, as_is_sixty, by norm_num⟩, by decide, by decide, by decide⟩

theorem witness_ReferenceDesignProperties : 1 ≤ 2 ∧ 1 ≤ 1 ∧ 0 ≤ 2 * 1 ∧ 0 ≠ 1 ∧ 2 * 1 * 2 ≤ 2 * 1 * 2 := by decide

/-- Two phases of two taps at the top of DMEM. -/
theorem witness_IntCreateBuildsPolyphaseBank :
    let taps : List Sample := [1, 2, 3, 4]
    let s : State := { args 2 4092 4 with mem := dmem 4092 taps }
    (0 : BitVec 2).toNat < 2 ∧ s.arg0.toNat = 2 ∧ s.arg2.toNat = taps.length ∧ taps.length = 2 * 2 ∧ 1 ≤ 2 ∧ 2 ≤ 16 ∧
      2 ≤ 256 ∧ 2 * 2 ≤ 1024 ∧ s.arg1.toNat + taps.length ≤ 4096 ∧
      ∀ j < taps.length, s.mem.read (s.arg1.toNat + j) = taps[j]? := by
  decide

/-- One (M, n) for each alternative of the three clauses; the address of the last one is 4093. -/
theorem witness_IntCreateErrorOrder :
    (0 : BitVec 2).toNat < 2 ∧ (args 2 4093 4).arg0.toNat = 2 ∧ (args 2 4093 4).arg2.toNat = 4 ∧
      (3 % 2 ≠ 0) ∧ (17 % 17 = 0 ∧ 16 < 17) ∧ (257 % 1 = 0 ∧ 256 < 257 / 1) ∧ (1040 % 16 = 0 ∧ 1024 < 1040) ∧
      4 % 2 = 0 ∧ 4 / 2 ≤ 256 ∧ 4096 < (args 2 4093 4).arg1.toNat + 4 := by decide

/-- A READY context, and one that is not: the hypotheses of IntResetClearsHistory, IntDestroyEndsObject and
SetScaleStoresGain. -/
theorem witness_ready_context :
    (1 : BitVec 2).toNat < 2 ∧ bankState.ctx.get? (0 : BitVec 2).toNat = some (.ready obj) ∧
      ∀ o, bankState.ctx.get? (1 : BitVec 2).toNat ≠ some (.ready o) := by
  refine ⟨by decide, rfl, fun o h => ?_⟩
  cases h

theorem witness_ResetEqualsFreshObject :
    { bankState with ctx := ⟨.ready { buildInterp 2 [1, 2, 3, 4] .taps with hist := [⟨1, 2⟩], gain := 5 }, .uninit⟩
      }.ctx.get? (0 : BitVec 2).toNat =
      some (.ready { buildInterp 2 [1, 2, 3, 4] .taps with hist := [⟨1, 2⟩], gain := 5 }) := rfl

theorem witness_IntExecComputesPhases :
    bankState.ctx.get? (0 : BitVec 2).toNat = some (.ready obj) ∧ obj.wf = true ∧ bankState.arg0.toNat + 2 ≤ 4096 ∧
      bankState.arg1.toNat + 2 * obj.M ≤ 4096 ∧ bankState.mem.read bankState.arg0.toNat = some 0x1000 ∧
      bankState.mem.read (bankState.arg0.toNat + 1) = some 0 := by decide

theorem witness_BlockEqualsRepeatedExec :
    bankState.ctx.get? (0 : BitVec 2).toNat = some (.ready obj) ∧ 1 ≤ bankState.arg2.toNat ∧
      bankState.arg0.toNat + 2 * bankState.arg2.toNat ≤ 4096 ∧
      bankState.arg1.toNat + 2 * obj.M * bankState.arg2.toNat ≤ 4096 := by decide

/-- One sample, and the empty block at addresses outside DMEM. -/
theorem witness_BlockCompletesAndFrames :
    bankState.ctx.get? (0 : BitVec 2).toNat = some (.ready obj) ∧
      bankState.arg0.toNat + 2 * bankState.arg2.toNat ≤ 4096 ∧
      bankState.arg1.toNat + 2 * obj.M * bankState.arg2.toNat ≤ 4096 ∧
      (∀ a, bankState.arg0.toNat ≤ a → a < bankState.arg0.toNat + 2 * bankState.arg2.toNat →
        bankState.mem.read a ≠ none) ∧
      { bankState with arg0 := 5000, arg2 := 0 }.arg2.toNat = 0 := by decide

/-- Three input samples, so that the three zero samples outlast the two taps of each phase. -/
theorem witness_ImpulseResponseIsTheTaps :
    let s : State := { bankState with arg2 := 3, mem := dmem 10 [0x1000, 0, 0, 0, 0, 0] }
    s.ctx.get? (0 : BitVec 2).toNat = some (.ready obj) ∧ obj.wf = true ∧ obj.hist = List.replicate obj.L ⟨0, 0⟩ ∧
      obj.gain = 0x1000 ∧ 1 ≤ s.arg2.toNat ∧ s.arg0.toNat + 2 * s.arg2.toNat ≤ 4096 ∧
      s.arg1.toNat + 2 * obj.M * s.arg2.toNat ≤ 4096 ∧ s.arg0.toNat + 2 * s.arg2.toNat ≤ s.arg1.toNat ∧
      s.mem.read s.arg0.toNat = some 0x1000 ∧
      ∀ a, s.arg0.toNat + 1 ≤ a → a < s.arg0.toNat + 2 * s.arg2.toNat → s.mem.read a = some 0 := by decide

/-- The three destinations of INT_COPY: the other context, itself, none. -/
theorem witness_IntCopyClones :
    bankState.ctx.get? (0 : BitVec 2).toNat = some (.ready obj) ∧
      ({ bankState with arg0 := 1 }.arg0.toNat < 2 ∧ { bankState with arg0 := 1 }.arg0.toNat ≠ (0 : BitVec 2).toNat) ∧
      { bankState with arg0 := 0 }.arg0.toNat = (0 : BitVec 2).toNat ∧ 2 ≤ { bankState with arg0 := 2 }.arg0.toNat := by
  decide

theorem witness_GainReadsBack :
    let es : List HostEvent := [.write 0x01C 32 (BitVec.ofNat 32 (0x26000000 + (0 : BitVec 2).toNat)),
      .read (BitVec.ofNat 17 (0x104 + 0x10 * (0 : BitVec 2).toNat)) 32]
    { bankState with pending := es }.ctx.get? (0 : BitVec 2).toNat = some (.ready obj) ∧
      { bankState with pending := es }.pending = es := ⟨rfl, rfl⟩

/-- g1 = 1.0, and g1 = 0.5 with g2 = 0.75 on the sub-filter result -5 (44_scaler.md R238). -/
theorem witness_ScaleLinearityBound :
    (1536 : Int) * 4096 = 2048 * 3072 ∧ (scale 1536 (-5)).clipped = false ∧ (scale 2048 (-5)).clipped = false ∧
      (scale 3072 (scale 2048 (-5)).val).clipped = false ∧ (3072 : Int) * 4096 = 4096 * 3072 ∧
      (scale 3072 (scale 4096 (-5)).val).clipped = false := by decide

theorem witness_BlockResetValues : (doing [.reset]).pending = [.reset] := rfl

/-- A register and the last DMEM word, unwritten. -/
theorem witness_HostReadsHaveNoSideEffect :
    (doing [.read 0x018 32]).pending = [.read 0x018 32] ∧ (0x018 : BitVec 17).toNat % 4 = 0 ∧
      (doing [.read 0x4FFC 32]).pending = [.read 0x4FFC 32] ∧ (0x4FFC : BitVec 17).toNat % 4 = 0 :=
  ⟨rfl, by decide, rfl, by decide⟩

theorem witness_DmemWindowWriteThenRead :
    4095 < 4096 ∧ (dmem 4095 [0x8000]).read 4095 = some 0x8000 ∧
      (doing [.write (BitVec.ofNat 17 (0x1000 + 4 * 4095)) 32 0x8000, .read (BitVec.ofNat 17 (0x1000 + 4 * 4095)) 32]).pending =
        [.write (BitVec.ofNat 17 (0x1000 + 4 * 4095)) 32 0x8000, .read (BitVec.ofNat 17 (0x1000 + 4 * 4095)) 32] :=
  ⟨by decide, by decide, rfl⟩

theorem witness_UnwrittenReadsFault_host :
    4095 < 4096 ∧ (doing [.read (BitVec.ofNat 17 (0x1000 + 4 * 4095)) 32]).mem.read 4095 = none ∧
      (doing [.read (BitVec.ofNat 17 (0x1000 + 4 * 4095)) 32]).pending =
        [.read (BitVec.ofNat 17 (0x1000 + 4 * 4095)) 32] := ⟨by decide, rfl, rfl⟩
/-- The second of three words is the first unwritten one. -/
theorem witness_UnwrittenReadsFault_load :
    let s : State := { args 8 3 0 with mem := dmem 8 [7] }
    (0 : BitVec 2).toNat < 2 ∧ 1 < s.arg1.toNat ∧ s.arg1.toNat ≤ 256 ∧ s.arg0.toNat + s.arg1.toNat ≤ 4096 ∧
      s.mem.read (s.arg0.toNat + 1) = none ∧ ∀ j' < 1, s.mem.read (s.arg0.toNat + j') ≠ none := by decide
/-- The last of three words is the first unwritten one. -/
theorem witness_UnwrittenReadsFault_dp_exec :
    let s : State := { slotState with mem := dmem 16 [0x1000, 0x1000] }
    s.slots.get? (0 : BitVec 2).toNat = some (.ready ⟨3, [0x1000, 0x0800, 0xFC00]⟩) ∧ 2 < 3 ∧ s.arg0.toNat + 3 ≤ 4096 ∧
      s.mem.read (s.arg0.toNat + 2) = none ∧ ∀ j' < 2, s.mem.read (s.arg0.toNat + j') ≠ none := by decide
theorem witness_UnwrittenReadsFault_create :
    let s : State := { args 2 4092 4 with mem := dmem 4092 [1, 2, 3] }
    (0 : BitVec 2).toNat < 2 ∧ s.arg0.toNat = 2 ∧ s.arg2.toNat = 4 ∧ 1 ≤ 2 ∧ 2 ≤ 16 ∧ 4 % 2 = 0 ∧ 4 / 2 ≤ 256 ∧
      4 ≤ 1024 ∧ s.arg1.toNat + 4 ≤ 4096 ∧ 3 < 4 ∧ s.mem.read (s.arg1.toNat + 3) = none ∧
      ∀ j' < 3, s.mem.read (s.arg1.toNat + j') ≠ none := by decide
/-- The I word unwritten, and the Q word alone. -/
theorem witness_UnwrittenReadsFault_exec :
    let s : State := { bankState with mem := [] }
    let t : State := { bankState with mem := dmem 10 [0x1000] }
    s.ctx.get? (0 : BitVec 2).toNat = some (.ready obj) ∧ t.ctx.get? (0 : BitVec 2).toNat = some (.ready obj) ∧
      s.arg0.toNat + 2 ≤ 4096 ∧ s.arg1.toNat + 2 * obj.M ≤ 4096 ∧ s.mem.read (s.arg0.toNat + 0) = none ∧
      t.mem.read (t.arg0.toNat + 1) = none ∧ ∀ j' < 1, t.mem.read (t.arg0.toNat + j') ≠ none := by decide
/-- The Q word of the second sample; sample 0 writes DMEM[20..24), away from it. -/
theorem witness_UnwrittenReadsFault_block :
    let s : State := { bankState with arg2 := 2, mem := dmem 10 [0x1000, 0, 5] }
    s.ctx.get? (0 : BitVec 2).toNat = some (.ready obj) ∧ 3 < 2 * s.arg2.toNat ∧
      s.arg0.toNat + 2 * s.arg2.toNat ≤ 4096 ∧ s.arg1.toNat + 2 * obj.M * s.arg2.toNat ≤ 4096 ∧
      s.mem.read (s.arg0.toNat + 3) = none ∧ (∀ j' < 3, s.mem.read (s.arg0.toNat + j') ≠ none) ∧
      s.arg0.toNat + 3 < s.arg1.toNat := by decide

theorem witness_OddShapedAccessesAreRefused :
    ((16 ≠ 32) ∨ (0x018 : BitVec 17).toNat % 4 ≠ 0) ∧ (32 ≠ 32 ∨ (0x01A : BitVec 17).toNat % 4 ≠ 0) ∧
      (doing [.read 0x01A 32]).pending = [.read 0x01A 32] ∧
      (doing [.write 0x018 16 5]).pending = [.write 0x018 16 5] := ⟨by decide, by decide, rfl, rfl⟩

/-- The first and the last offset of each reserved range. -/
theorem witness_ReservedOffsetsAreInert :
    ([0x02C, 0x030, 0x040, 0x0FC, 0x108, 0x11C, 0x120, 0x17C, 0x184, 0x19C, 0x1A0, 0xFFC, 0x5000, 0x1FFFC] :
      List (BitVec 17)).all (fun off =>
        decide (off.toNat % 4 = 0 ∧
          (off.toNat = 0x02C ∨ off.toNat = 0x030 ∨ 0x040 ≤ off.toNat ∧ off.toNat < 0x100 ∨
            0x100 ≤ off.toNat ∧ off.toNat < 0x120 ∧ 8 ≤ off.toNat % 16 ∨ 0x120 ≤ off.toNat ∧ off.toNat < 0x180 ∨
            0x180 ≤ off.toNat ∧ off.toNat < 0x1A0 ∧ off.toNat % 16 ≠ 0 ∨ 0x1A0 ≤ off.toNat ∧ off.toNat < 0x1000 ∨
            0x5000 ≤ off.toNat))) = true ∧
      (doing [.read 0x5000 32]).pending = [.read 0x5000 32] ∧
      (doing [.write 0x5000 32 1]).pending = [.write 0x5000 32 1] := ⟨by decide +kernel, rfl, rfl⟩

theorem witness_HostWritesOfPlainRegisters :
    (doing [.write 0x190 32 5]).pending = [.write 0x190 32 5] ∧
      (0x190 : BitVec 17) ∈ ([0x000, 0x004, 0x008, 0x00C, 0x010, 0x034, 0x038, 0x03C, 0x100, 0x104, 0x110, 0x114, 0x180,
        0x190] : List (BitVec 17)) ∧
      (doing [.write 0x020 32 5]).pending = [.write 0x020 32 5] ∧ (doing [.write 0x024 32 5]).pending = [.write 0x024 32 5] ∧
      (doing [.write 0x028 32 5]).pending = [.write 0x028 32 5] := ⟨rfl, by decide, rfl, rfl, rfl⟩

theorem witness_StatusAndCtrlRegisters :
    (doing [.write 0x018 32 0x100]).pending = [.write 0x018 32 0x100] ∧
      (doing [.write 0x014 32 3]).pending = [.write 0x014 32 3] := ⟨rfl, rfl⟩

theorem witness_ReadOnlyWindowsShowState :
    bankState.ctx.get? 0 = some (.ready obj) ∧ obj.wf = true ∧
      slotState.slots.get? 0 = some (.ready ⟨3, [0x1000, 0x0800, 0xFC00]⟩) ∧
      (⟨3, [0x1000, 0x0800, 0xFC00]⟩ : DotProduct).wf = true ∧ bankState.ctx.get? 1 = some .uninit ∧
      { State.reset with ctx := ⟨.uninit, .destroyed⟩ }.ctx.get? 1 = some .destroyed ∧
      slotState.slots.get? 1 = some .empty := by decide

theorem witness_InterruptFollowsStickyBits :
    (∃ t, exec (.intReset 0) { State.reset with errIe := true } = .next t ∧ t.lastErr ≠ .ok) ∧
      (∃ t, exec .fxFromf { args 0x7FC00000 0 0 with satIe := true } = .next t ∧ t.sat = true) ∧
      State.reset.errIe = false ∧ State.reset.satIe = false ∧
      (doing [.write 0x018 32 0x300]).pending = [.write 0x018 32 0x300] ∧
      (0x300 : Word32).getLsbD 8 = true ∧ (0x300 : Word32).getLsbD 9 = true ∧
      (doing [.write 0x014 32 0]).pending = [.write 0x014 32 0] ∧
      (0 : Word32).getLsbD 0 = false ∧ (0 : Word32).getLsbD 1 = false :=
  ⟨⟨_, rfl, by decide⟩, ⟨_, rfl, rfl⟩, rfl, rfl, rfl, rfl, rfl, rfl, rfl, rfl⟩

theorem witness_StepKeepsInvariant :
    bankState.inv = true ∧ slotState.inv = true ∧ ∃ t, step { bankState with pending := [issueEvent 0x24000000] } = .next t :=
  ⟨by decide, by decide, ⟨_, rfl⟩⟩

end Sys2Proof.Tests
end

/-! What a command can change, said once over all commands: an error changes LAST_ERR and ERR only, and a success
changes one register, one slot, one context, or one context with DMEM (60_exceptions.md R252, R254). -/

namespace Sys2Proof.Machine

/-! The invariant and the updates of the state -/

theorem State.inv_iff (s : State) :
    s.inv = true ↔ s.mem.wf = true ∧ (s.ctx.at0.wf = true ∧ s.ctx.at1.wf = true) ∧
      (s.slots.at0.wf = true ∧ s.slots.at1.wf = true) := by
  simp [State.inv, and_assoc]

@[simp] theorem State.inv_setRes (s : State) (v : Word32) : (s.setRes v).inv = s.inv := rfl
@[simp] theorem State.inv_setAcc (s : State) (v : AccWord) : (s.setAcc v).inv = s.inv := rfl
@[simp] theorem State.inv_setCmd (s : State) (v : Word32) : (s.setCmd v).inv = s.inv := rfl
@[simp] theorem State.inv_noteSat (s : State) (b : Bool) : (s.noteSat b).inv = s.inv := rfl
@[simp] theorem State.inv_finish (s : State) (code : ErrCode) : (s.finish code).inv = s.inv := rfl
@[simp] theorem State.inv_setArg0 (s : State) (v : Word32) : (s.setArg0 v).inv = s.inv := rfl
@[simp] theorem State.inv_setArg1 (s : State) (v : Word32) : (s.setArg1 v).inv = s.inv := rfl
@[simp] theorem State.inv_setArg2 (s : State) (v : Word32) : (s.setArg2 v).inv = s.inv := rfl
@[simp] theorem State.inv_writeCtrl (s : State) (v : Word32) : (s.writeCtrl v).inv = s.inv := rfl
@[simp] theorem State.inv_writeStatus (s : State) (v : Word32) : (s.writeStatus v).inv = s.inv := rfl
@[simp] theorem State.inv_record (s : State) (v : Word32) : (s.record v).inv = s.inv := rfl
@[simp] theorem State.inv_setPending (s : State) (es : List HostEvent) : (s.setPending es).inv = s.inv := rfl

/-- After a block reset nothing is written and nothing is READY (70_reset_and_hazards.md R280). -/
@[simp] theorem State.inv_blockReset (s : State) : s.blockReset.inv = true := rfl

theorem State.inv_setMem {s : State} {m : Memory} (h : s.inv = true) (hm : m.wf = true) :
    (s.setMem m).inv = true := by
  rw [State.inv_iff] at h ⊢
  exact ⟨hm, h.2⟩

theorem State.inv_setCtx {s : State} {x : Context} (c : Nat) (h : s.inv = true) (hx : x.wf = true) :
    (s.setCtx c x).inv = true := by
  rw [State.inv_iff] at h ⊢
  obtain ⟨hmem, hctx, hslots⟩ := h
  exact ⟨hmem, Bank.set_all (p := fun y : Context => y.wf = true) hx hctx, hslots⟩

theorem State.inv_setSlot {s : State} {x : Slot} (k : Nat) (h : s.inv = true) (hx : x.wf = true) :
    (s.setSlot k x).inv = true := by
  rw [State.inv_iff] at h ⊢
  obtain ⟨hmem, hctx, hslots⟩ := h
  exact ⟨hmem, hctx, Bank.set_all (p := fun y : Slot => y.wf = true) hx hslots⟩

/-- The object of a READY context is well formed under the invariant (10_state.md R33). -/
theorem State.inv_ready_wf {s : State} {c : Nat} {o : Interp} (h : s.inv = true)
    (ho : s.ctx.get? c = some (.ready o)) : o.wf = true := by
  obtain ⟨-, hctx, -⟩ := (State.inv_iff s).1 h
  exact Bank.get?_all (p := fun y : Context => y.wf = true) hctx ho

/-- INT_RESET's object stays well formed: its history keeps its length (43_interp.md R201). -/
theorem Interp.wf_zeroHist {o : Interp} (h : o.wf = true) : ({ o with hist := zeroHist o.L } : Interp).wf = true := by
  rw [Interp.wf_iff] at h ⊢
  obtain ⟨hM, hM', hL, hL', ht, hsub, hrows, -⟩ := h
  exact ⟨hM, hM', hL, hL', ht, hsub, hrows, zeroHist_length o.L⟩

/-- Any gain is legal (44_scaler.md R233). -/
theorem Interp.wf_gain (o : Interp) (g : Sample) : ({ o with gain := g } : Interp).wf = o.wf := rfl

/-- INT_KAISER's object is well formed when its checks pass (42_designer.md R162, R166). -/
theorem kaiserInterp_wf {M m : Nat} (as : Word32) (hM : 1 ≤ M) (hM' : M ≤ 16) (hm : 1 ≤ m) (hm' : 2 * m ≤ 256)
    (ht : 2 * m * M ≤ 1024) : (buildInterp M ((kaiserFn M m as).take (2 * m * M)) .kaiser).wf = true := by
  have hcomm : M * (2 * m) = 2 * m * M := Nat.mul_comm _ _
  refine buildInterp_wf (L := 2 * m) .kaiser hM hM' (by omega) hm' (by omega) ?_
  simp [kaiserFn, hcomm]

/-- A run of one sample is that sample: INT_EXEC does what a block of one does (43_interp.md R206). -/
theorem runSamples_one (xa ya : Nat) (r : SampleRun) : runSamples xa ya 1 r = runSample xa ya r := by
  simp only [runSamples]
  cases runSample xa ya r <;> rfl

/-! What a success can change -/

/-- The commands that name a context and, when they succeed, write that context only. -/
def contextCommands (c : BitVec 2) : List Instr :=
  [.intCreate c, .intKaiser c, .intReset c, .intSetScale c, .intDestroy c]

/-- `Effect s i u`: a success of command `i` on `s` may leave `u`, up to SAT and LAST_ERR. What it writes is well
formed, given the invariant. -/
inductive Effect (s : State) : Instr → State → Prop
  | unchanged (i : Instr) : Effect s i s
  | writeRes {i : Instr} (hi : i ∈ [.fxFromf, .fxMul, .macRd, .fxTof] ∨ ∃ u k, i = .dpExec u k) (v : Word32) :
      Effect s i (s.setRes v)
  | writeAcc {i : Instr} (hi : i ∈ [.macClr, .macAcc]) (v : AccWord) : Effect s i (s.setAcc v)
  | writeSlot {i : Instr} (k : BitVec 2) (hi : i ∈ [.dpLoad k, .dpFree k]) (x : Slot) (hx : x.wf = true) :
      Effect s i (s.setSlot k.toNat x)
  | writeCtx {i : Instr} (c : BitVec 2) (hi : i ∈ contextCommands c) (x : Context)
      (hx : s.inv = true → x.wf = true) : Effect s i (s.setCtx c.toNat x)
  | copyCtx (c : BitVec 2) (x : Context) (hx : s.inv = true → x.wf = true) :
      Effect s (.intCopy c) (s.setCtx s.arg0.toNat x)
  | runCtx {i : Instr} (c : BitVec 2) (hi : i ∈ [.intExec c, .intExecBlock c]) (m : Memory) (x : Context)
      (hm : s.inv = true → m.wf = true) (hx : s.inv = true → x.wf = true) :
      Effect s i ((s.setMem m).setCtx c.toNat x)

/-- What an answer of command `i` can be when it is a next state: an error with no other effect, or a success with one
of the command's effects (60_exceptions.md R252, R254). -/
def Ends (s : State) (i : Instr) (r : Result) : Prop :=
  ∀ t, r = .next t → (∃ code, code ≠ .ok ∧ t = s.finish code) ∨
    ∃ u b, Effect s i u ∧ t = (u.noteSat b).finish .ok

theorem FailsWith.ends {s : State} {r : Result} (h : FailsWith s r) (i : Instr) : Ends s i r := by
  obtain ⟨code, hc, rfl⟩ := h
  rintro t ⟨⟩
  exact .inl ⟨code, hc, rfl⟩

theorem FaultsUnwritten.ends {s : State} {r : Result} (h : FaultsUnwritten s r) (i : Instr) : Ends s i r := by
  obtain ⟨a, -, -, rfl⟩ := h
  rintro t ⟨⟩

theorem Effect.ends {s u : State} {i : Instr} {b : Bool} {r : Result} (h : Effect s i u) (hr : r = succeed b u) :
    Ends s i r := by
  subst hr
  rintro t ⟨⟩
  exact .inr ⟨u, b, h, rfl⟩

/-- A run of samples whose outputs stay inside DMEM writes a canonical DMEM and a well-formed context. -/
theorem finishRun_ends {s : State} {i : Instr} {c : BitVec 2} (hi : i ∈ [.intExec c, .intExecBlock c]) {o : Interp}
    (ho : s.ctx.get? c.toNat = some (.ready o)) {xa ya k : Nat} (hy : inRange ya (2 * o.M * k) = true) {r : SampleRun}
    (hr : runSamples xa ya k ⟨o, s.mem, false⟩ = .ok r) : Ends s i (finishRun c s r) := by
  refine (Effect.runCtx c hi r.mem (.ready r.obj) (fun hs => ?_) (fun hs => ?_)).ends (b := r.clipped) rfl
  · exact runSamples_mem_wf hr ((State.inv_iff s).1 hs).1 ((inRange_iff _ _).1 hy)
  · exact runSamples_wf hr (State.inv_ready_wf hs ho)

theorem execIntExec_ends (c : BitVec 2) (s : State) : Ends s (.intExec c) (execIntExec c s) := by
  rcases execIntExec_cases c s with hf | hf | ⟨o, r, ho, hy, hr, he⟩
  · exact hf.ends _
  · exact hf.ends _
  · rw [he]
    rw [← runSamples_one] at hr
    exact finishRun_ends (by simp) ho (by rwa [Nat.mul_one]) hr

theorem execIntExecBlock_ends (c : BitVec 2) (s : State) : Ends s (.intExecBlock c) (execIntExecBlock c s) := by
  rcases execIntExecBlock_cases c s with hf | hf | ⟨o, r, ho, hy, hr, he⟩
  · exact hf.ends _
  · exact hf.ends _
  · rw [he]
    exact finishRun_ends (by simp) ho hy hr

theorem execDpLoad_ends (k : BitVec 2) (s : State) : Ends s (.dpLoad k) (execDpLoad k s) := by
  rcases execDpLoad_cases k s with hf | hf | ⟨v, -, -, h1, h256, -, -, he⟩
  · exact hf.ends _
  · exact hf.ends _
  · exact (Effect.writeSlot k (by simp) _ (by simp [Slot.wf, DotProduct.wf, h1, h256])).ends he

theorem execDpExec_ends (u : Bool) (k : BitVec 2) (s : State) : Ends s (.dpExec u k) (execDpExec u k s) := by
  rcases execDpExec_cases u k s with hf | hf | ⟨d, x, r, -, -, -, -, he⟩
  · exact hf.ends _
  · exact hf.ends _
  · exact (Effect.writeRes (.inr ⟨u, k, rfl⟩) _).ends he

theorem execDpFree_ends (k : BitVec 2) (s : State) : Ends s (.dpFree k) (execDpFree k s) := by
  rcases execDpFree_cases k s with hf | ⟨d, -, he⟩
  · exact hf.ends _
  · exact (Effect.writeSlot k (by simp) .empty rfl).ends he

theorem execIntCreate_ends (c : BitVec 2) (s : State) : Ends s (.intCreate c) (execIntCreate c s) := by
  rcases execIntCreate_cases c s with hf | hf | ⟨L, taps, -, hM, hM', hL, hL', ht, hlen, -, -, he⟩
  · exact hf.ends _
  · exact hf.ends _
  · exact (Effect.writeCtx c (by simp [contextCommands]) (.ready _)
      fun _ => buildInterp_wf .taps hM hM' hL hL' ht hlen).ends he

theorem execIntKaiser_ends (c : BitVec 2) (s : State) : Ends s (.intKaiser c) (execIntKaiser c s) := by
  rcases execIntKaiser_cases c s with hf | ⟨-, hM, hM', hm, hm', ht, -, he⟩
  · exact hf.ends _
  · exact (Effect.writeCtx c (by simp [contextCommands]) (.ready _)
      fun _ => kaiserInterp_wf s.arg2 hM hM' hm hm' ht).ends he

theorem execIntReset_ends (c : BitVec 2) (s : State) : Ends s (.intReset c) (execIntReset c s) := by
  rcases execIntReset_cases c s with hf | ⟨o, ho, he⟩
  · exact hf.ends _
  · exact (Effect.writeCtx c (by simp [contextCommands]) (.ready _)
      fun hs => Interp.wf_zeroHist (State.inv_ready_wf hs ho)).ends he

theorem execIntSetScale_ends (c : BitVec 2) (s : State) : Ends s (.intSetScale c) (execIntSetScale c s) := by
  rcases execIntSetScale_cases c s with hf | ⟨o, ho, he⟩
  · exact hf.ends _
  · exact (Effect.writeCtx c (by simp [contextCommands]) (.ready { o with gain := qWord s.arg0 })
      fun hs => (Interp.wf_gain o _).trans (State.inv_ready_wf hs ho)).ends he

theorem execIntCopy_ends (c : BitVec 2) (s : State) : Ends s (.intCopy c) (execIntCopy c s) := by
  rcases execIntCopy_cases c s with hf | ⟨o, ho, -, he⟩
  · exact hf.ends _
  · split at he
    · exact (Effect.unchanged _).ends he
    · exact (Effect.copyCtx c (.ready o) fun hs => State.inv_ready_wf hs ho).ends he

theorem execIntDestroy_ends (c : BitVec 2) (s : State) : Ends s (.intDestroy c) (execIntDestroy c s) := by
  rcases execIntDestroy_cases c s with hf | ⟨o, -, he⟩
  · exact hf.ends _
  · exact (Effect.writeCtx c (by simp [contextCommands]) .destroyed fun _ => rfl).ends he

/-- Every command ends with an error and no other effect, or with success and one of its effects. -/
theorem exec_ends (i : Instr) (s : State) : Ends s i (exec i s) := by
  cases i with
  | nop => exact (Effect.unchanged _).ends (b := false) rfl
  | fxFromf => exact (Effect.writeRes (by simp) _).ends (b := (fromFloat (readF32 s.arg0)).clipped) rfl
  | fxTof => exact (Effect.writeRes (by simp) _).ends (b := false) rfl
  | fxMul => exact (Effect.writeRes (by simp) _).ends (b := (narrow (qVal s.arg0 * qVal s.arg1)).clipped) rfl
  | macClr => exact (Effect.writeAcc (by simp) _).ends (b := false) rfl
  | macAcc =>
    exact (Effect.writeAcc (by simp) _).ends
      (b := (accumulate ⟨s.acc.toInt, false⟩ (qVal s.arg0 * qVal s.arg1)).clipped) rfl
  | macRd => exact (Effect.writeRes (by simp) _).ends (b := (narrow s.acc.toInt).clipped) rfl
  | dpLoad k => exact execDpLoad_ends k s
  | dpExec u k => exact execDpExec_ends u k s
  | dpFree k => exact execDpFree_ends k s
  | intCreate c => exact execIntCreate_ends c s
  | intKaiser c => exact execIntKaiser_ends c s
  | intReset c => exact execIntReset_ends c s
  | intExec c => exact execIntExec_ends c s
  | intExecBlock c => exact execIntExecBlock_ends c s
  | intSetScale c => exact execIntSetScale_ends c s
  | intCopy c => exact execIntCopy_ends c s
  | intDestroy c => exact execIntDestroy_ends c s

end Sys2Proof.Machine

/-! Every step keeps the block's invariant (10_state.md R33, R35; 20_memory.md R50). -/

namespace Sys2Proof.Machine

theorem Effect.keeps_inv {s u : State} {i : Instr} (h : Effect s i u) (hs : s.inv = true) : u.inv = true := by
  cases h with
  | unchanged => exact hs
  | writeRes _ v => rwa [State.inv_setRes]
  | writeAcc _ v => rwa [State.inv_setAcc]
  | writeSlot k _ x hx => exact State.inv_setSlot _ hs hx
  | writeCtx c _ x hx => exact State.inv_setCtx _ hs (hx hs)
  | copyCtx c x hx => exact State.inv_setCtx _ hs (hx hs)
  | runCtx c _ m x hm hx => exact State.inv_setCtx _ (State.inv_setMem hs (hm hs)) (hx hs)

/-- Every command keeps the invariant. -/
theorem exec_keeps_inv {i : Instr} {s t : State} (hs : s.inv = true) (h : exec i s = .next t) : t.inv = true := by
  rcases exec_ends i s t h with ⟨code, -, rfl⟩ | ⟨u, b, he, rfl⟩
  · rwa [State.inv_finish]
  · rw [State.inv_finish, State.inv_noteSat]
    exact he.keeps_inv hs

/-- Issuing a command word keeps the invariant, whether or not the word decodes (30_encoding.md R70). -/
theorem issue_keeps_inv {v : Word32} {s t : State} (hs : s.inv = true) (h : issue v s = .next t) : t.inv = true := by
  have hcmd : (s.setCmd v).inv = true := by rwa [State.inv_setCmd]
  cases hd : decode v with
  | ok i =>
    rw [issue_ok hd] at h
    exact exec_keeps_inv hcmd h
  | error e =>
    rw [issue_error hd] at h
    cases h
    rwa [State.inv_finish]

/-- A host write of a port keeps the invariant; the DMEM words that ports name exist (20_memory.md R50). -/
theorem writePort_keeps_inv {s t : State} {v : Word32} {p : Port} (hp : ∀ i, p = .dmem i → i < 4096)
    (hs : s.inv = true) (h : writePort s v p = .next t) : t.inv = true := by
  cases p with
  | cmd => exact issue_keeps_inv hs h
  | dmem i =>
    cases h
    exact State.inv_setMem hs (Memory.wf_write _ ((State.inv_iff s).1 hs).1 (hp i rfl))
  | _ => cases h; simpa using hs

/-- Settles O59: by cases on the host's next event; a command keeps the invariant because every effect writes
well-formed data. -/
theorem stepKeepsInvariant : Obligations.StepKeepsInvariant := by
  intro s t hs h
  rcases step_cases s with ⟨-, hst⟩ | ⟨es, -, hst⟩ | ⟨_, _, _, _, -, -, -, hst⟩ | ⟨off, es, -, -, hst⟩ |
    ⟨off, v, es, -, -, hst⟩ <;> rw [hst] at h
  · cases h; exact hs
  · cases h; exact State.inv_blockReset _
  · cases h
  · cases hr : readPort (s.setPending es) (portOf off) with
    | error a => rw [hr] at h; cases h
    | ok v => rw [hr] at h; cases h; simpa using hs
  · exact writePort_keeps_inv (fun _ => portOf_dmem_lt) (by rwa [State.inv_setPending]) h

end Sys2Proof.Machine

/-! What commands leave unchanged: the host's registers, the results, and the objects they do not name (10_state.md R21
to R37). -/

namespace Sys2Proof.Machine

/-- No effect reaches the registers that only the host writes (10_state.md R21, R25, R29). -/
theorem Effect.keeps_host_registers {s u : State} {i : Instr} (h : Effect s i u) :
    u.arg0 = s.arg0 ∧ u.arg1 = s.arg1 ∧ u.arg2 = s.arg2 ∧ u.errIe = s.errIe ∧ u.satIe = s.satIe ∧
      u.cmd = s.cmd ∧ u.pending = s.pending ∧ u.reads = s.reads := by
  cases h <;> simp

/-- Settles O18: neither an effect nor the end of a command writes a register of the host. -/
theorem commandsKeepHostRegisters : Obligations.CommandsKeepHostRegisters := by
  intro i s t h
  rcases exec_ends i s t h with ⟨code, -, rfl⟩ | ⟨u, b, he, rfl⟩
  · simp
  · simpa using he.keeps_host_registers

/-- RES is written by FX_FROMF, FX_MUL, MAC_RD, FX_TOF and DP_EXEC only (10_state.md R22). -/
theorem Effect.keeps_res {s u : State} {i : Instr} (h : Effect s i u)
    (hi : i ∉ [.fxFromf, .fxMul, .macRd, .fxTof]) (hd : ∀ v k, i ≠ .dpExec v k) : u.res = s.res := by
  cases h with
  | writeRes hw v =>
    rcases hw with hw | ⟨v, k, hw⟩
    · exact absurd hw hi
    · exact absurd hw (hd v k)
  | _ => simp

/-- ACC is written by MAC_CLR and MAC_ACC only (10_state.md R30). -/
theorem Effect.keeps_acc {s u : State} {i : Instr} (h : Effect s i u) (hi : i ∉ [.macClr, .macAcc]) :
    u.acc = s.acc := by
  cases h with
  | writeAcc hw v => exact absurd hw hi
  | _ => simp

/-- DMEM is written by INT_EXEC and INT_EXEC_BLOCK only (10_state.md R37). -/
theorem Effect.keeps_mem {s u : State} {i : Instr} (h : Effect s i u) (he : ∀ c, i ≠ .intExec c)
    (hb : ∀ c, i ≠ .intExecBlock c) : u.mem = s.mem := by
  cases h with
  | runCtx c hw m x =>
    rcases List.mem_pair.1 hw with hw | hw
    · exact absurd hw (he c)
    · exact absurd hw (hb c)
  | _ => simp

/-- Settles O19: an error changes LAST_ERR and ERR only, and each effect has its own register. -/
theorem onlyNamedCommandsWriteResults : Obligations.OnlyNamedCommandsWriteResults := by
  intro i s t h
  rcases exec_ends i s t h with ⟨code, -, rfl⟩ | ⟨u, b, he, rfl⟩
  · simp
  · refine ⟨fun hi hd => ?_, fun hok => absurd rfl hok, fun hi => ?_, fun hx hb => ?_⟩
    · simpa using he.keeps_res hi hd
    · simpa using he.keeps_acc hi
    · simpa using he.keeps_mem hx hb

/-- A context that the command does not name keeps its contents; INT_COPY names its destination (10_state.md R33;
43_interp.md R204). -/
theorem Effect.keeps_other_ctx {s u : State} {i : Instr} (h : Effect s i u) {d : Nat}
    (hn : ∀ c, i ∈ [.intCreate c, .intKaiser c, .intReset c, .intExec c, .intExecBlock c, .intSetScale c,
      .intDestroy c] → d ≠ c.toNat)
    (hcopy : ∀ c, i = .intCopy c → d ≠ s.arg0.toNat) : u.ctx.get? d = s.ctx.get? d := by
  cases h with
  | writeCtx c hi x =>
    have hd : d ≠ c.toNat := hn c (by simp only [contextCommands, List.mem_cons] at hi ⊢; tauto)
    exact Bank.get?_set_ne _ _ hd
  | copyCtx c x => exact Bank.get?_set_ne _ _ (hcopy c rfl)
  | runCtx c hi m x =>
    have hd : d ≠ c.toNat := hn c (by simp only [List.mem_cons] at hi ⊢; tauto)
    exact Bank.get?_set_ne _ _ hd
  | _ => simp

/-- A slot that DP_LOAD or DP_FREE does not name keeps its contents (10_state.md R35). -/
theorem Effect.keeps_other_slots {s u : State} {i : Instr} (h : Effect s i u) {d : Nat}
    (hn : ∀ k, i ∈ [.dpLoad k, .dpFree k] → d ≠ k.toNat) : u.slots.get? d = s.slots.get? d := by
  cases h with
  | writeSlot k hi x => exact Bank.get?_set_ne _ _ (hn k hi)
  | _ => simp

/-- Settles O25: an effect sets at most one element of a bank, the one its command names. -/
theorem onlyNamedObjectsChange : Obligations.OnlyNamedObjectsChange := by
  intro i s t h
  rcases exec_ends i s t h with ⟨code, -, rfl⟩ | ⟨u, b, he, rfl⟩
  · simp
  · refine ⟨fun d hn hcopy => ?_, fun d hn => ?_⟩
    · simpa using he.keeps_other_ctx hn hcopy
    · simpa using he.keeps_other_slots hn

end Sys2Proof.Machine

/-! The register window: where its registers stand, what their words are, and what a host write of one does (10_state.md
R21 to R36). -/

namespace Sys2Proof.Machine

/-! Where the registers stand -/

/-- Offsets below 0x1000 are the register window (10_state.md R41). -/
theorem portOf_register {o : Nat} (h : o < 0x1000) : portOf (BitVec.ofNat 17 o) = registerPort o := by
  have ho : (BitVec.ofNat 17 o).toNat = o := by rw [BitVec.toNat_ofNat]; omega
  rw [portOf, ho, if_pos h]

/-- CTX_INFO of a context that exists stands at 0x100 + 0x10*c (10_state.md R31). -/
theorem portOf_ctxInfo {c : Nat} (hc : c < 2) : portOf (BitVec.ofNat 17 (0x100 + 0x10 * c)) = .ctxInfo c := by
  rw [portOf_register (by omega)]
  interval_cases c <;> rfl

/-- CTX_GAIN of a context that exists stands at 0x104 + 0x10*c (10_state.md R32). -/
theorem portOf_ctxGain {c : Nat} (hc : c < 2) : portOf (BitVec.ofNat 17 (0x104 + 0x10 * c)) = .ctxGain c := by
  rw [portOf_register (by omega)]
  interval_cases c <;> rfl

/-- DP_INFO of a slot that exists stands at 0x180 + 0x10*k (10_state.md R36). -/
theorem portOf_dpInfo {k : Nat} (hk : k < 2) : portOf (BitVec.ofNat 17 (0x180 + 0x10 * k)) = .dpInfo k := by
  rw [portOf_register (by omega)]
  interval_cases k <;> rfl

/-! What a host read of a window register returns -/

theorem readPort_ctxInfo {s : State} {c : Nat} {x : Context} (h : s.ctx.get? c = some x) :
    readPort s (portOf (BitVec.ofNat 17 (0x100 + 0x10 * c))) = .ok (ctxInfoWord x) := by
  rw [portOf_ctxInfo (Bank.get?_eq_some_lt h)]
  simp [readPort, readCtx, h]

theorem readPort_ctxGain {s : State} {c : Nat} {x : Context} (h : s.ctx.get? c = some x) :
    readPort s (portOf (BitVec.ofNat 17 (0x104 + 0x10 * c))) = .ok (ctxGainWord x) := by
  rw [portOf_ctxGain (Bank.get?_eq_some_lt h)]
  simp [readPort, readCtx, h]

theorem readPort_dpInfo {s : State} {k : Nat} {x : Slot} (h : s.slots.get? k = some x) :
    readPort s (portOf (BitVec.ofNat 17 (0x180 + 0x10 * k))) = .ok (dpInfoWord x) := by
  rw [portOf_dpInfo (Bank.get?_eq_some_lt h)]
  simp [readPort, readSlot, h]

/-! The words as numbers -/

/-- Two fields side by side, as a number. -/
theorem toNat_append_add {m n : Nat} (x : BitVec m) (y : BitVec n) : (x ++ y).toNat = x.toNat * 2 ^ n + y.toNat := by
  rw [BitVec.toNat_append, ← Nat.shiftLeft_add_eq_or_of_lt y.isLt, Nat.shiftLeft_eq]

/-- STATUS: LAST_ERR in bits 3:0, ERR in bit 8, SAT in bit 9 (10_state.md R26 to R28). -/
theorem statusWord_toNat (s : State) :
    (statusWord s).toNat = s.lastErr.toBits.toNat + (if s.err then 2 ^ 8 else 0) + (if s.sat then 2 ^ 9 else 0) := by
  simp only [statusWord, toNat_append_add]
  cases s.err <;> cases s.sat <;> simp <;> omega

/-- CTRL: ERR_IE in bit 0, SAT_IE in bit 1 (10_state.md R25). -/
theorem ctrlWord_toNat (s : State) :
    (ctrlWord s).toNat = (if s.errIe then 1 else 0) + (if s.satIe then 2 else 0) := by
  simp only [ctrlWord, toNat_append_add]
  cases s.errIe <;> cases s.satIe <;> simp

/-- ACC_HI and ACC_LO together are ACC (10_state.md R30). -/
theorem accHi_accLo (s : State) : (accHiWord s).toInt * 2 ^ 32 + (accLoWord s).toNat = s.acc.toInt := by
  have hsplit : s.acc.extractLsb' 32 8 ++ s.acc.extractLsb' 0 32 = s.acc :=
    (BitVec.extractLsb'_append_extractLsb'_eq_extractLsb' (by rfl)).trans BitVec.extractLsb'_eq_self
  have hhi : (accHiWord s).toInt = (s.acc.extractLsb' 32 8).toInt := BitVec.toInt_signExtend_of_le (by decide)
  calc (accHiWord s).toInt * 2 ^ 32 + (accLoWord s).toNat
      = 2 ^ 32 * (s.acc.extractLsb' 32 8).toInt + (s.acc.extractLsb' 0 32).toNat := by
        rw [hhi, accLoWord, Int.mul_comm]
    _ = (s.acc.extractLsb' 32 8 ++ s.acc.extractLsb' 0 32).toInt := by
        rw [BitVec.toInt_append, if_neg (by decide)]
    _ = s.acc.toInt := by rw [hsplit]

/-- CTX_INFO of a well-formed object: STATE, KIND, M and L (10_state.md R31). -/
theorem ctxInfoWord_ready_toNat {o : Interp} (h : o.wf = true) :
    (ctxInfoWord (.ready o)).toNat = 1 + (if o.kind = .kaiser then 4 else 0) + 2 ^ 8 * o.M + 2 ^ 16 * o.L := by
  obtain ⟨-, hM, -, hL, -⟩ := (Interp.wf_iff o).1 h
  have hM' : o.M % 256 = o.M := Nat.mod_eq_of_lt (by omega)
  have hL' : o.L % 65536 = o.L := Nat.mod_eq_of_lt (by omega)
  simp only [ctxInfoWord, toNat_append_add]
  cases o.kind <;> simp [Kind.toBit, hM', hL'] <;> omega

/-- CTX_GAIN is the gain sign-extended (10_state.md R32). -/
theorem ctxGainWord_ready_toInt (o : Interp) : (ctxGainWord (.ready o)).toInt = o.gain.toInt :=
  BitVec.toInt_signExtend_of_le (by decide)

/-- DP_INFO of a well-formed vector: STATE and N (10_state.md R36). -/
theorem dpInfoWord_ready_toNat {d : DotProduct} (h : d.wf = true) :
    (dpInfoWord (.ready d)).toNat = 1 + 2 ^ 16 * d.n := by
  simp only [DotProduct.wf, Bool.and_eq_true, decide_eq_true_eq] at h
  obtain ⟨⟨-, hn : d.n ≤ 256⟩, -⟩ := h
  have hn' : d.n % 65536 = d.n := Nat.mod_eq_of_lt (by omega)
  simp only [dpInfoWord, toNat_append_add]
  simp [hn']
  omega

/-! The obligations -/

/-- The offsets of the read-only registers. -/
def readOnlyOffsets : List (BitVec 17) :=
  [0x000, 0x004, 0x008, 0x00C, 0x010, 0x034, 0x038, 0x03C, 0x100, 0x104, 0x110, 0x114, 0x180, 0x190]

theorem readOnlyOffsets_ignore_writes :
    ∀ off ∈ readOnlyOffsets, off.toNat % 4 = 0 ∧ (portOf off).writeIgnored = true := by
  intro off hoff
  fin_cases hoff <;> exact ⟨rfl, rfl⟩

/-- Settles O55: the offset names its register, and the register's write is the statement's. -/
theorem hostWritesOfPlainRegisters : Obligations.HostWritesOfPlainRegisters := by
  intro s off v es h
  refine ⟨fun hoff => ?_, ?_, ?_, ?_⟩
  · obtain ⟨h4, hp⟩ := readOnlyOffsets_ignore_writes off hoff
    rw [step_write h h4, writePort_ignored hp]
    rfl
  all_goals
    rintro rfl
    rw [step_write h (by decide)]
    rfl

/-- Settles O56: the two words as numbers, and the writes of the two registers. -/
theorem statusAndCtrlRegisters : Obligations.StatusAndCtrlRegisters := by
  refine ⟨fun s => ⟨statusWord s, s.lastErr.toBits.toNat, rfl, statusWord_toNat s, ?_⟩,
    fun s => ⟨ctrlWord s, rfl, ctrlWord_toNat s⟩, fun s v es h => ?_, fun s v es h => ?_⟩
  · cases s.lastErr <;> decide
  · rw [step_write h (by decide)]; rfl
  · rw [step_write h (by decide)]; rfl

/-- Settles O57: each offset names its register, whose word is the state's. -/
theorem readOnlyWindowsShowState : Obligations.ReadOnlyWindowsShowState := by
  refine ⟨fun s => ⟨rfl, rfl, rfl, rfl, rfl⟩, fun s => ⟨rfl, rfl, rfl, rfl, rfl⟩,
    fun s => ⟨accLoWord s, accHiWord s, rfl, rfl, accHi_accLo s⟩,
    fun s c o ho hw => ⟨_, _, readPort_ctxInfo ho, ctxInfoWord_ready_toNat hw, readPort_ctxGain ho,
      ctxGainWord_ready_toInt o⟩,
    fun s k d hd hw => ⟨_, readPort_dpInfo hd, dpInfoWord_ready_toNat hw⟩, ?_,
    fun s k hk => readPort_dpInfo hk⟩
  rintro s c (hc | hc)
  · exact ⟨by simp [readPort_ctxInfo hc, hc, ctxInfoWord], readPort_ctxGain hc⟩
  · exact ⟨by simp [readPort_ctxInfo hc, hc, ctxInfoWord], readPort_ctxGain hc⟩

end Sys2Proof.Machine

/-! The host's view of DMEM: refused accesses, reads and writes of the DMEM window, and the reserved offsets
(20_memory.md R52 to R61). -/

namespace Sys2Proof.Machine

/-! Accesses without meaning -/

theorem accessOk_eq_false {off : BitVec 17} {w : Nat} (h : w ≠ 32 ∨ off.toNat % 4 ≠ 0) : accessOk off w = false := by
  rcases h with h | h <;> simp [accessOk, h]

/-- Settles O53: an access of another shape fails the check that both kinds of access make first. -/
theorem oddShapedAccessesAreRefused : Obligations.OddShapedAccessesAreRefused := by
  intro s off w v es hodd
  have hshape := accessOk_eq_false hodd
  constructor
  · intro h
    simp [step_event h, hostEvent, hshape]
  · intro h
    simp [step_event h, hostEvent, hshape]

/-! Reads -/

/-- What a port reads does not depend on the host's accesses to come. -/
@[simp] theorem readPort_setPending (s : State) (es : List HostEvent) (p : Port) :
    readPort (s.setPending es) p = readPort s p := by
  cases p <;> rfl

/-- A host read that returns a value adds it to the host's record and changes nothing else (20_memory.md R61). -/
theorem step_read_ok {s : State} {off : BitVec 17} {es : List HostEvent} {v : Word32}
    (h : s.pending = .read off 32 :: es) (h4 : off.toNat % 4 = 0) (hv : readPort s (portOf off) = .ok v) :
    step s = .next { s with pending := es, reads := v :: s.reads } := by
  rw [step_read h h4, readPort_setPending, hv]
  rfl

/-- A host read of an unwritten word faults (20_memory.md R56). -/
theorem step_read_error {s : State} {off : BitVec 17} {es : List HostEvent} {i : Nat}
    (h : s.pending = .read off 32 :: es) (h4 : off.toNat % 4 = 0) (hi : readPort s (portOf off) = .error i) :
    step s = .fault (.unwrittenDmem i) := by
  rw [step_read h h4, readPort_setPending, hi]
  rfl

/-- The aligned offset that names a DMEM word (20_memory.md R53). -/
theorem offset_of_portOf_dmem {off : BitVec 17} {i : Nat} (h4 : off.toNat % 4 = 0) (h : portOf off = .dmem i) :
    off.toNat = 0x1000 + 4 * i := by
  simp only [portOf] at h
  split_ifs at h with hr hd
  · exact absurd h (registerPort_ne_dmem _ _)
  · injection h with hi
    omega

/-- Settles O50: the read returns a value, or its port is an unwritten DMEM word. -/
theorem hostReadsHaveNoSideEffect : Obligations.HostReadsHaveNoSideEffect := by
  intro s off es h h4
  cases hp : readPort s (portOf off) with
  | ok v => exact .inl ⟨v, rfl, step_read_ok h h4 hp⟩
  | error i =>
    obtain ⟨hport, hunwritten⟩ := readPort_error hp
    exact .inr ⟨i, portOf_dmem_lt hport, offset_of_portOf_dmem h4 hport, hunwritten, step_read_error h h4 hp⟩

/-! The DMEM window -/

theorem dmemOffset_toNat {i : Nat} (hi : i < 4096) : (BitVec.ofNat 17 (0x1000 + 4 * i)).toNat = 0x1000 + 4 * i := by
  rw [BitVec.toNat_ofNat]
  omega

theorem dmemOffset_aligned {i : Nat} (hi : i < 4096) : (BitVec.ofNat 17 (0x1000 + 4 * i)).toNat % 4 = 0 := by
  rw [dmemOffset_toNat hi]
  omega

theorem portOf_dmemOffset {i : Nat} (hi : i < 4096) : portOf (BitVec.ofNat 17 (0x1000 + 4 * i)) = .dmem i :=
  portOf_dmem hi (dmemOffset_toNat hi)

theorem readPort_dmem_written {s : State} {i : Nat} {x : Sample} (h : s.mem.read i = some x) :
    readPort s (.dmem i) = .ok (BitVec.ofInt 32 x.toInt) := by
  simp only [readPort, h]
  rfl

theorem readPort_dmem_unwritten {s : State} {i : Nat} (h : s.mem.read i = none) :
    readPort s (.dmem i) = .error i := by
  simp only [readPort, h]

/-- A host read of a written DMEM word returns its sign extension (20_memory.md R53). -/
theorem step_read_dmem {s : State} {i : Nat} {x : Sample} {es : List HostEvent} (hi : i < 4096)
    (hx : s.mem.read i = some x) (h : s.pending = .read (BitVec.ofNat 17 (0x1000 + 4 * i)) 32 :: es) :
    step s = .next { s with pending := es, reads := BitVec.ofInt 32 x.toInt :: s.reads } :=
  step_read_ok h (dmemOffset_aligned hi) (by rw [portOf_dmemOffset hi, readPort_dmem_written hx])

/-- A host read of an unwritten DMEM word faults with its index (20_memory.md R56). -/
theorem step_read_dmem_unwritten {s : State} {i : Nat} {es : List HostEvent} (hi : i < 4096)
    (hn : s.mem.read i = none) (h : s.pending = .read (BitVec.ofNat 17 (0x1000 + 4 * i)) 32 :: es) :
    step s = .fault (.unwrittenDmem i) :=
  step_read_error h (dmemOffset_aligned hi) (by rw [portOf_dmemOffset hi, readPort_dmem_unwritten hn])

/-- A host write of a DMEM word stores bits 15:0 of the data (20_memory.md R53). -/
theorem step_write_dmem {s : State} {i : Nat} {v : Word32} {es : List HostEvent} (hi : i < 4096)
    (h : s.pending = .write (BitVec.ofNat 17 (0x1000 + 4 * i)) 32 v :: es) :
    step s = .next { s with pending := es, mem := s.mem.write i (qWord v) } := by
  rw [step_write h (dmemOffset_aligned hi), portOf_dmemOffset hi]
  rfl

/-- The word of `Q(v)` is the one that `low16` reads as a number (30_encoding.md R77). -/
theorem qWord_toInt (v : Word32) : (qWord v).toInt = low16 v := rfl

theorem ofInt_low16 (v : Word32) : BitVec.ofInt 16 (low16 v) = qWord v := by
  rw [← qWord_toInt, BitVec.ofInt_toInt]

/-- A run goes on from where its first step leads. -/
theorem run_succ {k : Nat} {s t : State} (h : step s = .next t) : run (k + 1) s = run k t := by
  simp only [run, Host.Core.run]
  have hs : core.step s = .next t := h
  rw [hs]

/-- Settles O51: the write leaves the word's low half in DMEM, and the read returns what stands there. -/
theorem dmemWindowWriteThenRead : Obligations.DmemWindowWriteThenRead := by
  refine ⟨fun s i x es hi hx h => step_read_dmem hi hx h, fun s i v es hi h => ?_⟩
  have hread : (s.mem.write i (qWord v)).read i = some (qWord v) := Memory.read_write_same s.mem i (qWord v)
  refine ⟨{ s with mem := s.mem.write i (qWord v), pending := es, reads := BitVec.ofInt 32 (low16 v) :: s.reads },
    ?_, rfl, ?_, fun a ha => Memory.read_write_ne s.mem (qWord v) ha⟩
  · rw [run_succ (step_write_dmem hi h), run_succ (step_read_dmem hi hread rfl), qWord_toInt]
    rfl
  · rw [ofInt_low16]
    exact hread

/-! Reserved offsets -/

theorem registerPort_ctx {o : Nat} (h : 0x100 ≤ o ∧ o < 0x120) :
    registerPort o = ctxPort ((o - 0x100) / 0x10) ((o - 0x100) % 0x10) := if_pos h

theorem registerPort_slot {o : Nat} (h : 0x180 ≤ o ∧ o < 0x1A0) :
    registerPort o = slotPort ((o - 0x180) / 0x10) ((o - 0x180) % 0x10) := by
  have hc : ¬(0x100 ≤ o ∧ o < 0x120) := by omega
  exact (if_neg hc).trans (if_pos h)

/-- Outside the context and the slot blocks only the fixed offsets hold registers (10_state.md R41). -/
theorem registerPort_reserved {o : Nat} (hc : ¬(0x100 ≤ o ∧ o < 0x120)) (hs : ¬(0x180 ≤ o ∧ o < 0x1A0))
    (hf : ∀ c ∈ fixedPorts, o ≠ c.1) : registerPort o = .reserved := by
  have hl : fixedPorts.lookup o = none := List.lookup_eq_none_iff.2 (by simpa using hf)
  calc registerPort o
      = (fixedPorts.lookup o).getD .reserved := (if_neg hc).trans (if_neg hs)
    _ = .reserved := by rw [hl]; rfl

theorem ctxPort_reserved {r : Nat} (c : Nat) (h : 8 ≤ r) : ctxPort c r = .reserved := by
  rw [ctxPort, if_neg (by omega), if_neg (by omega)]

theorem slotPort_reserved {r : Nat} (k : Nat) (h : r ≠ 0) : slotPort k r = .reserved := if_neg h

/-- The fixed registers stand below 0x040 and leave out 0x02C and 0x030 (10_state.md R41). -/
theorem fixedPorts_offset : ∀ c ∈ fixedPorts, c.1 < 0x040 ∧ c.1 ≠ 0x02C ∧ c.1 ≠ 0x030 := by decide

theorem portOf_of_lt {off : BitVec 17} (h : off.toNat < 0x1000) : portOf off = registerPort off.toNat := if_pos h

theorem portOf_above {off : BitVec 17} (h : 0x5000 ≤ off.toNat) : portOf off = .reserved := by
  simp only [portOf, Config.dmemWords]
  rw [if_neg (by omega), if_neg (by omega)]

/-- The reserved offsets of the host window (10_state.md R41; 20_memory.md R55). -/
def ReservedOffset (o : Nat) : Prop :=
  o = 0x02C ∨ o = 0x030 ∨ 0x040 ≤ o ∧ o < 0x100 ∨ 0x100 ≤ o ∧ o < 0x120 ∧ 8 ≤ o % 16 ∨ 0x120 ≤ o ∧ o < 0x180 ∨
    0x180 ≤ o ∧ o < 0x1A0 ∧ o % 16 ≠ 0 ∨ 0x1A0 ≤ o ∧ o < 0x1000 ∨ 0x5000 ≤ o

theorem portOf_reserved {off : BitVec 17} (h : ReservedOffset off.toNat) : portOf off = .reserved := by
  unfold ReservedOffset at h
  by_cases hhi : 0x5000 ≤ off.toNat
  · exact portOf_above hhi
  rw [portOf_of_lt (by omega)]
  by_cases hc : 0x100 ≤ off.toNat ∧ off.toNat < 0x120
  · rw [registerPort_ctx hc, ctxPort_reserved _ (by omega)]
  by_cases hs : 0x180 ≤ off.toNat ∧ off.toNat < 0x1A0
  · rw [registerPort_slot hs, slotPort_reserved _ (by omega)]
  refine registerPort_reserved hc hs fun c hmem => ?_
  obtain ⟨hlt, h2c, h30⟩ := fixedPorts_offset c hmem
  omega

/-- Settles O54: a reserved offset names the port that reads 0 and ignores writes. -/
theorem reservedOffsetsAreInert : Obligations.ReservedOffsetsAreInert := by
  intro s off v es h4 hoff
  have hp : portOf off = .reserved := portOf_reserved hoff
  refine ⟨fun h => step_read_ok h h4 (by rw [hp]; rfl), fun h => ?_⟩
  rw [step_write h h4, hp]
  rfl

end Sys2Proof.Machine

/-! Reads of unwritten DMEM words: every MemRead faults at the first one of its range (20_memory.md R56, R62). -/

namespace Sys2Proof.Machine

/-- With every check passed, a MemRead that stops at a word is the command's fault (20_memory.md R56). -/
theorem guarded_orFault_error {α : Type} {cs : List (Bool × ErrCode)} {r : Except Nat α} {i : Nat}
    (hcs : ∀ c ∈ cs, c.1 = false) (hr : r = .error i) (s : State) (k : α → Result) :
    guarded cs s (orFault r k) = .fault (.unwrittenDmem i) := by
  rw [guarded_pass hcs, hr, orFault_error]

theorem withSlot_of_lt {i : BitVec 2} (h : i.toNat < 2) (s : State) (k : Slot → Result) :
    ∃ x, withSlot i s k = k x := by
  rcases withSlot_cases i s k with ⟨hge, -⟩ | ⟨x, -, hx⟩
  · omega
  · exact ⟨x, hx⟩

theorem withCtx_of_lt {c : BitVec 2} (h : c.toNat < 2) (s : State) (k : Context → Result) :
    ∃ x, withCtx c s k = k x := by
  rcases withCtx_cases c s k with ⟨hge, -⟩ | ⟨x, -, hx⟩
  · omega
  · exact ⟨x, hx⟩

theorem inRange_of_le {a n : Nat} (h : a + n ≤ 4096) : inRange a n = true := (inRange_iff a n).2 (.inr h)

/-- The checks of DP_LOAD that pass (41_dotprod.md R140). -/
theorem dpLoadChecks_pass {ha n : Nat} (h1 : 1 ≤ n) (h2 : n ≤ 256) (h3 : ha + n ≤ 4096) :
    ∀ c ∈ dpLoadChecks ha n, c.1 = false := by
  simp [dpLoadChecks, inRange_of_le h3, h2, Nat.ne_of_gt h1]

/-- The checks of INT_CREATE that pass (43_interp.md R200). -/
theorem intCreateChecks_pass {M ha n : Nat} (hM : 1 ≤ M) (hM' : M ≤ 16) (hn : 1 ≤ n) (hd : n % M = 0)
    (hL : n / M ≤ 256) (hn' : n ≤ 1024) (hr : ha + n ≤ 4096) : ∀ c ∈ intCreateChecks M ha n, c.1 = false := by
  simp [intCreateChecks, inRange_of_le hr, hd, hM', hL, hn', Nat.ne_of_gt hM, Nat.ne_of_gt hn]

theorem execDpLoad_unwritten {s : State} {k : BitVec 2} {j : Nat} (hk : k.toNat < 2) (hj : j < s.arg1.toNat)
    (hn : s.arg1.toNat ≤ 256) (hr : s.arg0.toNat + s.arg1.toNat ≤ 4096) (hu : s.mem.read (s.arg0.toNat + j) = none)
    (hw : ∀ j' < j, s.mem.read (s.arg0.toNat + j') ≠ none) :
    execDpLoad k s = .fault (.unwrittenDmem (s.arg0.toNat + j)) := by
  obtain ⟨x, hx⟩ := withSlot_of_lt hk s _
  rw [execDpLoad, hx]
  exact guarded_orFault_error (dpLoadChecks_pass (by omega) hn hr) (Memory.readMany_unwritten hj hu hw) s _

theorem execDpExec_unwritten {s : State} {k : BitVec 2} {d : DotProduct} {j : Nat} (u : Bool)
    (hd : s.slots.get? k.toNat = some (.ready d)) (hj : j < d.n) (hr : s.arg0.toNat + d.n ≤ 4096)
    (hu : s.mem.read (s.arg0.toNat + j) = none) (hw : ∀ j' < j, s.mem.read (s.arg0.toNat + j') ≠ none) :
    execDpExec u k s = .fault (.unwrittenDmem (s.arg0.toNat + j)) := by
  rw [execDpExec, withReadySlot_ready hd]
  exact guarded_orFault_error (by simp [uint, inRange_of_le hr]) (Memory.readMany_unwritten hj hu hw) s _

theorem execIntCreate_unwritten {s : State} {c : BitVec 2} {j : Nat} (hc : c.toNat < 2) (hM : 1 ≤ s.arg0.toNat)
    (hM' : s.arg0.toNat ≤ 16) (hd : s.arg2.toNat % s.arg0.toNat = 0) (hL : s.arg2.toNat / s.arg0.toNat ≤ 256)
    (hn : s.arg2.toNat ≤ 1024) (hr : s.arg1.toNat + s.arg2.toNat ≤ 4096) (hj : j < s.arg2.toNat)
    (hu : s.mem.read (s.arg1.toNat + j) = none) (hw : ∀ j' < j, s.mem.read (s.arg1.toNat + j') ≠ none) :
    execIntCreate c s = .fault (.unwrittenDmem (s.arg1.toNat + j)) := by
  obtain ⟨x, hx⟩ := withCtx_of_lt hc s _
  rw [execIntCreate, hx]
  exact guarded_orFault_error (intCreateChecks_pass hM hM' (by omega) hd hL hn hr)
    (Memory.readMany_unwritten hj hu hw) s _

/-- One input sample stops at its first unwritten word (43_interp.md R202). -/
theorem runSample_unwritten {xa ya j : Nat} {r : SampleRun} (hj : j < 2) (hu : r.mem.read (xa + j) = none)
    (hw : ∀ j' < j, r.mem.read (xa + j') ≠ none) : runSample xa ya r = .error (xa + j) := by
  simp only [runSample, Memory.readIQ_unwritten hj hu hw]

theorem execIntExec_unwritten {s : State} {c : BitVec 2} {o : Interp} {j : Nat}
    (ho : s.ctx.get? c.toNat = some (.ready o)) (hj : j < 2) (hx : s.arg0.toNat + 2 ≤ 4096)
    (hy : s.arg1.toNat + 2 * o.M ≤ 4096) (hu : s.mem.read (s.arg0.toNat + j) = none)
    (hw : ∀ j' < j, s.mem.read (s.arg0.toNat + j') ≠ none) :
    execIntExec c s = .fault (.unwrittenDmem (s.arg0.toNat + j)) := by
  rw [execIntExec, withReadyCtx_ready ho]
  exact guarded_orFault_error (by simp [uint, inRange_of_le hx, inRange_of_le hy]) (runSample_unwritten hj hu hw) s _

/-- A block stops at the first input word that neither DMEM nor an earlier sample's output holds (43_interp.md R203). -/
theorem execIntExecBlock_unwritten {s : State} {c : BitVec 2} {o : Interp} {j : Nat}
    (ho : s.ctx.get? c.toNat = some (.ready o)) (hj : j < 2 * s.arg2.toNat)
    (hx : s.arg0.toNat + 2 * s.arg2.toNat ≤ 4096) (hy : s.arg1.toNat + 2 * o.M * s.arg2.toNat ≤ 4096)
    (hu : s.mem.read (s.arg0.toNat + j) = none) (hw : ∀ j' < j, s.mem.read (s.arg0.toNat + j') ≠ none)
    (hout : s.arg0.toNat + j < s.arg1.toNat ∨ s.arg1.toNat + 2 * o.M * (j / 2) ≤ s.arg0.toNat + j) :
    execIntExecBlock c s = .fault (.unwrittenDmem (s.arg0.toNat + j)) := by
  rw [execIntExecBlock, withReadyCtx_ready ho]
  exact guarded_orFault_error (by simp [uint, inRange_of_le hx, inRange_of_le hy])
    (runSamples_unwritten hj hu hw hout) s _

/-- Settles O52: a host read names the word, and each command passes its checks and stops in its MemRead. -/
theorem unwrittenReadsFault : Obligations.UnwrittenReadsFault := by
  refine ⟨?host, ?dpLoad, ?dpExec, ?intCreate, ?intExec, ?intExecBlock⟩
  case host => exact fun s i es hi hu h => step_read_dmem_unwritten hi hu h
  case dpLoad => exact fun s k j hk hj hn hr hu hw => execDpLoad_unwritten hk hj hn hr hu hw
  case dpExec => exact fun s u k d j hd hj hr hu hw => execDpExec_unwritten u hd hj hr hu hw
  case intCreate =>
    rintro s c _ _ j hc rfl rfl hM hM' hd hL hn hr hj hu hw
    exact execIntCreate_unwritten hc hM hM' hd hL hn hr hj hu hw
  case intExec => exact fun s c o j ho hj hx hy hu hw => execIntExec_unwritten ho hj hx hy hu hw
  case intExecBlock => exact fun s c o j ho hj hx hy hu hw hout => execIntExecBlock_unwritten ho hj hx hy hu hw hout

end Sys2Proof.Machine

/-! The decoder row by row: a word decodes exactly when it is a row's command word, with the operands that the row's
format has and an index below the row's limit (30_encoding.md R71 to R75, R82 to R84, R87). -/

namespace Sys2Proof

/-! The fields of a word as numbers -/

theorem extractLsb'_toNat_eq_div {w : Nat} (x : BitVec w) (lo len : Nat) :
    (x.extractLsb' lo len).toNat = x.toNat / 2 ^ lo % 2 ^ len := by
  rw [BitVec.extractLsb'_toNat, Nat.shiftRight_eq_div_pow]

theorem opField_toNat (v : Word32) : (opField v).toNat = v.toNat / 2 ^ 24 := by
  rw [opField, extractLsb'_toNat_eq_div]
  omega

theorem uField_toNat (v : Word32) : (uField v).toNat = v.toNat / 2 ^ 8 % 2 := by
  rw [uField, BitVec.getLsbD, Nat.toNat_testBit]

theorem idxField_toNat (v : Word32) : (idxField v).toNat = v.toNat % 4 := by
  rw [idxField, extractLsb'_toNat_eq_div]
  omega

/-- The word of R87 as a number, `OP << 24 | U << 8 | n`. -/
theorem commandWord_toNat (op : BitVec 8) (u : Bool) (k : BitVec 2) :
    (commandWord op u k).toNat = op.toNat * 2 ^ 24 + u.toNat * 2 ^ 8 + k.toNat := by
  simp only [commandWord, Machine.toNat_append_add, BitVec.toNat_ofBool, BitVec.toNat_ofNat]
  omega

/-! What a match with a row's mask and pattern says -/

/-- The operands that a format has: U in CIU only, IDX not in C0 (R72). -/
def Format.Allows (f : Format) (u : Bool) (k : BitVec 2) : Prop := (f ≠ .ciu → u = false) ∧ (f = .c0 → k = 0)

/-- The bits below OP that the format fixes are 0 in a word that matches (R72, R82). -/
theorem Format.fixed_bits_zero {f : Format} {op : BitVec 8} {v : Word32} (h : v &&& f.mask = op ++ 0#24) {lo len : Nat}
    (hlen : lo + len ≤ 24) (hmask : f.mask.extractLsb' lo len = BitVec.allOnes len) :
    v.toNat / 2 ^ lo % 2 ^ len = 0 := by
  have hfield : v.extractLsb' lo len = 0#len := by
    have := congrArg (BitVec.extractLsb' lo len) h
    rwa [BitVec.extractLsb'_and, hmask, BitVec.and_allOnes, BitVec.extractLsb'_append_eq_of_add_le hlen,
      BitVec.extractLsb'_zero] at this
  rw [← extractLsb'_toNat_eq_div, hfield, BitVec.toNat_zero]

/-- A word that matches a format is the command word of its fields. -/
theorem Format.commandWord_of_match {f : Format} {v : Word32} (h : v &&& f.mask = opField v ++ 0#24) :
    commandWord (opField v) (uField v) (idxField v) = v := by
  have hhigh : v.toNat / 2 ^ 9 % 2 ^ 15 = 0 := Format.fixed_bits_zero h (by decide) (by cases f <;> decide)
  have hlow : v.toNat / 2 ^ 2 % 2 ^ 6 = 0 := Format.fixed_bits_zero h (by decide) (by cases f <;> decide)
  apply BitVec.eq_of_toNat_eq
  rw [commandWord_toNat, opField_toNat, uField_toNat, idxField_toNat]
  omega

/-- A word that matches a format has no operand but those of the format. -/
theorem Format.allows_of_match {f : Format} {op : BitVec 8} {v : Word32} (h : v &&& f.mask = op ++ 0#24) :
    f.Allows (uField v) (idxField v) := by
  constructor
  · intro hf
    have hu : v.toNat / 2 ^ 8 % 2 ^ 1 = 0 :=
      Format.fixed_bits_zero h (by decide) (by cases f with | ciu => exact absurd rfl hf | c0 | ci => decide)
    have := uField_toNat v
    exact Bool.toNat_eq_zero.1 (by omega)
  · rintro rfl
    have hk : v.toNat / 2 ^ 0 % 2 ^ 2 = 0 := Format.fixed_bits_zero h (by decide) (by decide)
    exact BitVec.eq_of_toNat_eq (by rw [idxField_toNat]; simpa using hk)

/-! The rows -/

/-- A decoded word is the command word of a row, with operands of the row's format and an index below its limit. -/
theorem decode_ok_row {v : Word32} {i : Instr} (h : decode v = .ok i) :
    ∃ r ∈ opcodeRows, ∃ u k, v = commandWord r.op u k ∧ r.format.Allows u k ∧
      (r.format ≠ .c0 → k.toNat < r.limit) ∧ i = r.build u k := by
  unfold decode at h
  split at h
  · split at h <;> cases h
  next r hfind =>
    have hop : r.op = opField v := by simpa using List.find?_some hfind
    split_ifs at h with hmatch hidx
    rw [ne_eq, not_not, OpcodeRow.pattern] at hmatch
    refine ⟨r, List.mem_of_find?_eq_some hfind, uField v, idxField v, ?_, Format.allows_of_match hmatch, ?_, ?_⟩
    · rw [hop] at hmatch ⊢
      exact (Format.commandWord_of_match hmatch).symm
    · intro hf
      by_contra hge
      exact hidx ⟨hf, by omega⟩
    · exact (Except.ok.inj h).symm

/-- The encoder gives back the word of a row's command (R73, R87). -/
theorem encode_build {r : OpcodeRow} (hr : r ∈ opcodeRows) {u : Bool} {k : BitVec 2} (h : r.format.Allows u k) :
    encode (r.build u k) = commandWord r.op u k := by
  revert r
  simp +contextual [opcodeRows, rowC0, rowSlot, rowCtx, encode, Format.Allows]

/-- A row's command is well formed when its index is below the row's limit (R75). -/
theorem wellFormed_build {r : OpcodeRow} (hr : r ∈ opcodeRows) (u : Bool) {k : BitVec 2}
    (h : r.format ≠ .c0 → k.toNat < r.limit) : (r.build u k).wellFormed = true := by
  revert r
  simp [opcodeRows, rowC0, rowSlot, rowCtx, Instr.wellFormed]

/-- The encoder's word of a well-formed command decodes to it. -/
theorem decode_encode {i : Instr} (h : i.wellFormed = true) : decode (encode i) = .ok i := by
  revert h
  cases i with
  | nop | fxFromf | fxTof | fxMul | macClr | macAcc | macRd => exact fun _ => rfl
  | dpExec u k => revert u k; decide
  | dpLoad k | dpFree k | intCreate k | intKaiser k | intReset k | intExec k | intExecBlock k | intSetScale k
  | intCopy k | intDestroy k => revert k; decide

/-- Settles O1: a decoded word is the command word of its row, which is what the encoder writes. -/
theorem decodeExactlyInvertsEncode : Obligations.DecodeExactlyInvertsEncode := by
  intro v i
  constructor
  · intro h
    obtain ⟨r, hr, u, k, rfl, hallows, hidx, rfl⟩ := decode_ok_row h
    exact ⟨wellFormed_build hr u hidx, encode_build hr hallows⟩
  · rintro ⟨hwf, rfl⟩
    exact decode_encode hwf

/-- Settles O2: the decoder evaluated on each word. -/
theorem decodeReadsTheSpecsWords : Obligations.DecodeReadsTheSpecsWords :=
  ⟨rfl, rfl, rfl, rfl, rfl, rfl, rfl, rfl, rfl, rfl, rfl, rfl, rfl, rfl, rfl, rfl, rfl⟩

end Sys2Proof

/-! Issue: a step at a host write of CMD runs the decoded command, or ends with ILLEGAL on a word that decodes to none
(30_encoding.md R70, R74, R75, R82 to R84). -/

namespace Sys2Proof.Machine

/-- A host write of CMD issues its word (30_encoding.md R70). -/
theorem step_issue {s : State} {v : Word32} {es : List HostEvent} (h : s.pending = .write 0x01C 32 v :: es) :
    step s = issue v (s.setPending es) := by
  rw [step_write h (by decide)]
  exact congrArg (writePort _ v) portOf_cmd

/-- Settles O3: the write issues its word, and the word decodes. -/
theorem stepRunsTheIssuedCommand : Obligations.StepRunsTheIssuedCommand := by
  intro s v i es h hi
  rw [step_issue h, issue_ok hi]
  rfl

/-- A word that decodes to no command changes CMD, LAST_ERR and ERR only when it is issued (30_encoding.md R74). -/
theorem illegal_of_not_decoded {s : State} {v : Word32} {es : List HostEvent}
    (h : s.pending = .write 0x01C 32 v :: es) (hv : ∀ i, decode v ≠ .ok i) :
    (∀ i, decode v ≠ .ok i) ∧ step s = .next { s with cmd := v, pending := es, lastErr := .illegal, err := true } := by
  refine ⟨hv, ?_⟩
  cases hd : decode v with
  | ok i => exact absurd hd (hv i)
  | error e =>
    rw [step_issue h, issue_error hd, fail_eq (by decide)]
    rfl

/-- The opcode map R73: the opcodes of each format, and the limit 2 of every index (R75). -/
theorem opcodeRows_table : ∀ r ∈ opcodeRows,
    r.op.toNat ≤ 0x06 ∧ r.format = .c0 ∨
    r.op.toNat ∈ [0x10, 0x12, 0x20, 0x21, 0x23, 0x24, 0x25, 0x26, 0x27, 0x28] ∧ r.format = .ci ∧ r.limit = 2 ∨
    r.op.toNat = 0x11 ∧ r.format = .ciu ∧ r.limit = 2 := by
  decide

/-- The numbers of a word that decodes: OP, U and IDX of one of the three formats and nothing else (R71 to R75). -/
theorem decode_ok_numbers {v : Word32} {i : Instr} (h : decode v = .ok i) :
    ∃ op u k : Nat, v.toNat = op * 2 ^ 24 + u * 2 ^ 8 + k ∧
      (op ≤ 0x06 ∧ u = 0 ∧ k = 0 ∨
        op ∈ [0x10, 0x12, 0x20, 0x21, 0x23, 0x24, 0x25, 0x26, 0x27, 0x28] ∧ u = 0 ∧ k < 2 ∨
        op = 0x11 ∧ u < 2 ∧ k < 2) := by
  obtain ⟨r, hr, u, k, rfl, ⟨hu, hk⟩, hidx, -⟩ := decode_ok_row h
  refine ⟨r.op.toNat, u.toNat, k.toNat, commandWord_toNat r.op u k, ?_⟩
  rcases opcodeRows_table r hr with ⟨hop, hf⟩ | ⟨hop, hf, hl⟩ | ⟨hop, hf, hl⟩
  · exact .inl ⟨hop, by simp [hu (by simp [hf])], by simp [hk hf]⟩
  · exact .inr (.inl ⟨hop, by simp [hu (by simp [hf])], by simpa [hl] using hidx (by simp [hf])⟩)
  · exact .inr (.inr ⟨hop, u.toNat_lt, by simpa [hl] using hidx (by simp [hf])⟩)

/-- Settles O4: no format has such an opcode. -/
theorem unassignedOpcodesAreIllegal : Obligations.UnassignedOpcodesAreIllegal := by
  intro s v es h hop
  refine illegal_of_not_decoded h fun i hi => ?_
  obtain ⟨op, u, k, hnum, hfmt⟩ := decode_ok_numbers hi
  simp only [List.mem_cons, List.not_mem_nil, or_false] at hfmt
  omega

/-- Settles O5: in a word that decodes, the opcode fixes the format, and OP, U and IDX leave the other bits 0. -/
theorem reservedBitsAreIllegal : Obligations.ReservedBitsAreIllegal := by
  intro s v es h hbits
  refine illegal_of_not_decoded h fun i hi => ?_
  obtain ⟨op, u, k, hnum, hfmt⟩ := decode_ok_numbers hi
  simp only [List.mem_cons, List.not_mem_nil, or_false] at hfmt hbits
  omega

/-- Settles O6: whatever its opcode, a word that decodes has an IDX field below 2. -/
theorem indexOutOfRangeIsIllegal : Obligations.IndexOutOfRangeIsIllegal := by
  intro s v es h _ hidx
  refine illegal_of_not_decoded h fun i hi => ?_
  obtain ⟨op, u, k, hnum, hfmt⟩ := decode_ok_numbers hi
  have hk : k < 2 := by
    rcases hfmt with ⟨-, -, rfl⟩ | ⟨-, -, hk⟩ | ⟨-, -, hk⟩
    · decide
    · exact hk
    · exact hk
  omega

end Sys2Proof.Machine

/-! The binary32 reading of a pattern, field by field (30_encoding.md R81). -/

namespace Sys2Proof.Machine

theorem signBit_eq (v : Word32) : v.getLsbD 31 = decide (2 ^ 31 ≤ v.toNat) :=
  (BitVec.msb_eq_getLsbD_last v).symm.trans (BitVec.msb_eq_decide v)

/-- `readF32` in the fields of the pattern as numbers: sign 31, exponent 30:23, fraction 22:0 (R81). -/
theorem readF32_eq (v : Word32) : readF32 v =
    if v.toNat / 2 ^ 23 % 2 ^ 8 = 255 then
      if v.toNat % 2 ^ 23 = 0 then .inf (decide (2 ^ 31 ≤ v.toNat)) else .nan
    else if v.toNat / 2 ^ 23 % 2 ^ 8 = 0 then .finite (decide (2 ^ 31 ≤ v.toNat)) (v.toNat % 2 ^ 23) (-149)
    else
      .finite (decide (2 ^ 31 ≤ v.toNat)) (2 ^ 23 + v.toNat % 2 ^ 23)
        (((v.toNat / 2 ^ 23 % 2 ^ 8 : Nat) : Int) - 150) := by
  simp only [readF32, signBit_eq, extractLsb'_toNat_eq_div, pow_zero, Nat.div_one]

/-- The 23 places between the exponent of the integer `2^23 + f` and that of the fraction `1 + f/2^23`. -/
theorem two_zpow_add_23 (a : Int) : (2 : ℚ) ^ (a + 23) = 2 ^ a * 2 ^ 23 := by
  rw [zpow_add₀ two_ne_zero]
  rfl

/-- A normal number: `(2^23 + f) * 2^(e-150)` is `(1 + f/2^23) * 2^(e-127)` (R81). -/
theorem F32.value_normal (neg : Bool) (f : Nat) (e : Int) :
    (F32.finite neg (2 ^ 23 + f) (e - 150)).value =
      some ((if neg then -1 else 1) * (1 + (f : ℚ) / 2 ^ 23) * (2 : ℚ) ^ (e - 127)) := by
  rw [F32.value, show e - 127 = e - 150 + 23 by ring, two_zpow_add_23]
  refine congrArg some ?_
  push_cast
  ring

/-- Zero and the subnormals: `f * 2^(-149)` is `f/2^23 * 2^(-126)` (R81). -/
theorem F32.value_subnormal (neg : Bool) (f : Nat) :
    (F32.finite neg f (-149)).value = some ((if neg then -1 else 1) * ((f : ℚ) / 2 ^ 23) * (2 : ℚ) ^ (-126 : Int)) := by
  rw [F32.value, show (-126 : Int) = -149 + 23 by rfl, two_zpow_add_23]
  exact congrArg some (by ring)

/-- Settles O9: one branch of the reading for each case of the exponent and fraction. -/
theorem binary32PatternsReadAsSpecified : Obligations.Binary32PatternsReadAsSpecified := by
  intro v
  dsimp only
  rw [readF32_eq]
  refine ⟨?normal, ?subnormal, ?infinity, ?nan⟩
  case normal =>
    intro h0 h255
    rw [if_neg (by omega), if_neg (by omega)]
    exact F32.value_normal _ _ _
  case subnormal =>
    intro h0
    rw [if_neg (by omega), if_pos h0]
    exact F32.value_subnormal _ _
  case infinity =>
    intro h255 hf
    rw [if_pos h255, if_pos hf]
  case nan =>
    intro h255 hf
    rw [if_pos h255, if_neg hf]

end Sys2Proof.Machine

/-! DMEM ranges that leave DMEM: the range checks come before any effect (30_encoding.md R79; 60_exceptions.md R253). -/

namespace Sys2Proof.Machine

/-- A range of at least one word that ends above DMEM is not InRange (00_scope.md R9). -/
theorem inRange_eq_false {a n : Nat} (h1 : 1 ≤ n) (h : 4096 < a + n) : inRange a n = false := by
  rw [Bool.eq_false_iff, ne_eq, inRange_iff]
  omega

/-- A command whose input or output range leaves DMEM ends with BOUNDS and no other effect (R79, R253, R254). -/
theorem guarded_ranges_bounds {xa n ya m : Nat} (hn : 1 ≤ n) (hm : 1 ≤ m) (h : 4096 < xa + n ∨ 4096 < ya + m)
    (s : State) (k : Result) :
    guarded [(!inRange xa n, .bounds), (!inRange ya m, .bounds)] s k =
      .next { s with lastErr := .bounds, err := true } := by
  have hfirst : firstError [(!inRange xa n, .bounds), (!inRange ya m, .bounds)] = some .bounds := by
    rcases h with h | h
    · simp [firstError, inRange_eq_false hn h]
    · simp [firstError, inRange_eq_false hm h]
  rw [guarded_stop hfirst, fail_eq (by decide)]

theorem execDpExec_bounds {s : State} {i : BitVec 2} {d : DotProduct} (u : Bool)
    (hd : s.slots.get? i.toNat = some (.ready d)) (hn : 1 ≤ d.n) (h : 4096 < s.arg0.toNat + d.n) :
    execDpExec u i s = .next { s with lastErr := .bounds, err := true } := by
  have hfirst : firstError [(!inRange (uint s.arg0) d.n, .bounds)] = some .bounds := by
    simp [firstError, uint, inRange_eq_false hn h]
  rw [execDpExec, withReadySlot_ready hd]
  exact (guarded_stop hfirst _ _).trans (fail_eq (by decide) s)

theorem execIntExec_bounds {s : State} {c : BitVec 2} {o : Interp} (ho : s.ctx.get? c.toNat = some (.ready o))
    (hM : 1 ≤ o.M) (h : 4096 < s.arg0.toNat + 2 ∨ 4096 < s.arg1.toNat + 2 * o.M) :
    execIntExec c s = .next { s with lastErr := .bounds, err := true } := by
  rw [execIntExec, withReadyCtx_ready ho]
  exact guarded_ranges_bounds (by omega) (by omega) h s _

theorem execIntExecBlock_bounds {s : State} {c : BitVec 2} {o : Interp} (ho : s.ctx.get? c.toNat = some (.ready o))
    (hM : 1 ≤ o.M) (hk : 1 ≤ s.arg2.toNat)
    (h : 4096 < s.arg0.toNat + 2 * s.arg2.toNat ∨ 4096 < s.arg1.toNat + 2 * o.M * s.arg2.toNat) :
    execIntExecBlock c s = .next { s with lastErr := .bounds, err := true } := by
  have hout : 1 ≤ 2 * o.M * s.arg2.toNat := Nat.mul_pos (by omega) hk
  rw [execIntExecBlock, withReadyCtx_ready ho]
  exact guarded_ranges_bounds (by omega) hout h s _

/-- Settles O24: each command's range check fails before its MemRead. -/
theorem rangesThatLeaveDmemAreBounds : Obligations.RangesThatLeaveDmemAreBounds :=
  ⟨fun _ u _ _ hd hn h => execDpExec_bounds u hd hn h, fun _ _ _ ho hM h => execIntExec_bounds ho hM h,
    fun _ _ _ ho hM hk h => execIntExecBlock_bounds ho hM hk h⟩

end Sys2Proof.Machine

/-! The scalar unit's commands that clamp, in plain integers (40_fixedpoint.md R100, R101 to R104, R112 to R115). -/

namespace Sys2Proof.Machine

/-- The value of the clamp to W bits (00_scope.md R9). -/
theorem satN_w_val (v : Int) : (satN Config.W v).val = clamp16 v := by
  rw [satN_val (by decide), satMin_w, satMax_w, clamp16]

/-- The clamp to W bits flags the values outside the range. -/
theorem satN_w_clipped (v : Int) : (satN Config.W v).clipped = outside16 v := by
  rw [satN_clipped, satMin_w, satMax_w, outside16, Bool.decide_or]

theorem clamp16_range (v : Int) : -32768 ≤ clamp16 v ∧ clamp16 v ≤ 32767 := by
  unfold clamp16
  omega

/-- A value in range is neither changed by the clamp nor flagged. -/
theorem clamp16_of_range {v : Int} (lo : -32768 ≤ v) (hi : v ≤ 32767) : clamp16 v = v ∧ outside16 v = false := by
  simp only [clamp16, outside16, Bool.or_eq_false_iff, decide_eq_false_iff_not]
  omega

/-- The end of a command that clamps a value to W bits into RES: SAT exactly when the clamp changes it (R101). -/
theorem succeed_satN_w (v : Int) (s : State) :
    succeed (satN Config.W v).clipped (s.setRes (resWord (satN Config.W v).val)) =
      .next { s with res := BitVec.ofInt 32 (clamp16 v), sat := s.sat || outside16 v, lastErr := .ok } := by
  obtain ⟨lo, hi⟩ := clamp16_range v
  rw [succeed_eq, satN_w_val, satN_w_clipped, resWord_eq lo hi]
  rfl

/-- FX_MUL clamps the product shifted by F (R112). -/
theorem exec_fxMul (s : State) : exec .fxMul s = .next { s with
    res := BitVec.ofInt 32 (clamp16 (low16 s.arg0 * low16 s.arg1 / 4096))
    sat := s.sat || outside16 (low16 s.arg0 * low16 s.arg1 / 4096)
    lastErr := .ok } :=
  succeed_satN_w _ s

/-- MAC_RD clamps ACC shifted by F (R115). -/
theorem exec_macRd (s : State) : exec .macRd s = .next { s with
    res := BitVec.ofInt 32 (clamp16 (s.acc.toInt / 4096))
    sat := s.sat || outside16 (s.acc.toInt / 4096)
    lastErr := .ok } :=
  succeed_satN_w _ s

/-- MAC_ACC accumulates the product into ACC (R114). -/
theorem exec_macAcc (s : State) : exec .macAcc s = .next { s with
    acc := BitVec.ofInt 40 (accumulate ⟨s.acc.toInt, false⟩ (low16 s.arg0 * low16 s.arg1)).val
    sat := s.sat || (accumulate ⟨s.acc.toInt, false⟩ (low16 s.arg0 * low16 s.arg1)).clipped
    lastErr := .ok } :=
  succeed_eq _ _

/-- MAC_CLR writes 0 to ACC (R113). -/
theorem exec_macClr (s : State) : exec .macClr s = .next { s with acc := 0, lastErr := .ok } := succeed_false _

/-- An A-bit value survives its word (10_state.md R30). -/
theorem accWord_toInt {v : Int} (lo : -549755813888 ≤ v) (hi : v ≤ 549755813887) : (BitVec.ofInt 40 v).toInt = v := by
  rw [BitVec.toInt_ofInt, Int.bmod_eq_of_le (by simp; omega) (by simp; omega)]

/-- Settles O8: NOP is a success with no effect. -/
theorem nopOnlyClearsLastErr : Obligations.NopOnlyClearsLastErr := ⟨rfl, succeed_false⟩

/-- Settles O14: MAC_CLR writes 0 to ACC and is a success. -/
theorem macClrClearsAcc : Obligations.MacClrClearsAcc := ⟨rfl, fun s => ⟨_, exec_macClr s, rfl, rfl⟩⟩

/-- A value shifted by F leaves the W-bit range exactly when it is outside `[-2^27, 2^27)` (R112). -/
theorem outside16_div_4096 (p : Int) : outside16 (p / 4096) = decide (2 ^ 27 ≤ p ∨ p < -2 ^ 27) := by
  rw [outside16, ← Bool.decide_or, decide_eq_decide]
  omega

/-- Settles O13: FX_MUL's clamp, with the clamp's condition on the product itself. -/
theorem mulNarrowsExactProduct : Obligations.MulNarrowsExactProduct :=
  ⟨rfl, fun s => by rw [exec_fxMul, outside16_div_4096]⟩

/-- Settles O15: the clamped sum fits the 40-bit word that holds it. -/
theorem macAccSaturates : Obligations.MacAccSaturates := by
  refine ⟨rfl, fun s => ⟨_, exec_macAcc s, ?_, ?_, rfl⟩⟩
  · dsimp only
    rw [accumulate_val, accWord_toInt (by omega) (by omega)]
    norm_num
  · dsimp only
    rw [accumulate_clipped, Bool.false_or]
    norm_num

/-- Settles O16: MAC_RD's clamp of the shifted ACC. -/
theorem macRdReducesAcc : Obligations.MacRdReducesAcc := ⟨rfl, exec_macRd⟩

end Sys2Proof.Machine

/-! ACC and the units that do not use it: a change of ACC passes through the shared operations, and so through every
DP_* and INT_* command (10_state.md R42; 40_fixedpoint.md R116). -/

namespace Sys2Proof.Machine

/-- `CarriesAcc a r' r`: `r'` is the answer `r` with `a` in ACC. -/
def CarriesAcc (a : AccWord) (r' r : Result) : Prop := r' = mapNext (fun t => { t with acc := a }) r

section
variable {a : AccWord} {s : State}

/-- An error of a command passes ACC through. -/
theorem fail_carriesAcc (code : ErrCode) : CarriesAcc a (fail code { s with acc := a }) (fail code s) := rfl

theorem guarded_carriesAcc (cs : List (Bool × ErrCode)) {k' k : Result} (h : CarriesAcc a k' k) :
    CarriesAcc a (guarded cs { s with acc := a } k') (guarded cs s k) := by
  unfold guarded
  cases firstError cs with
  | some code => exact fail_carriesAcc code
  | none => exact h

theorem orFault_carriesAcc {α : Type} (r : Except Nat α) {k' k : α → Result} (h : ∀ x, CarriesAcc a (k' x) (k x)) :
    CarriesAcc a (orFault r k') (orFault r k) := by
  cases r with
  | error i => rfl
  | ok x => exact h x

theorem withSlot_carriesAcc (i : BitVec 2) {k' k : Slot → Result} (h : ∀ x, CarriesAcc a (k' x) (k x)) :
    CarriesAcc a (withSlot i { s with acc := a } k') (withSlot i s k) := by
  unfold withSlot
  dsimp only
  cases s.slots.get? i.toNat with
  | none => exact fail_carriesAcc .illegal
  | some x => exact h x

theorem withCtx_carriesAcc (c : BitVec 2) {k' k : Context → Result} (h : ∀ x, CarriesAcc a (k' x) (k x)) :
    CarriesAcc a (withCtx c { s with acc := a } k') (withCtx c s k) := by
  unfold withCtx
  dsimp only
  cases s.ctx.get? c.toNat with
  | none => exact fail_carriesAcc .illegal
  | some x => exact h x

theorem withReadySlot_carriesAcc (i : BitVec 2) {k' k : DotProduct → Result} (h : ∀ d, CarriesAcc a (k' d) (k d)) :
    CarriesAcc a (withReadySlot i { s with acc := a } k') (withReadySlot i s k) :=
  withSlot_carriesAcc i fun x => match x with
    | .ready d => h d
    | .empty => fail_carriesAcc .misuse

theorem withReadyCtx_carriesAcc (c : BitVec 2) {k' k : Interp → Result} (h : ∀ o, CarriesAcc a (k' o) (k o)) :
    CarriesAcc a (withReadyCtx c { s with acc := a } k') (withReadyCtx c s k) :=
  withCtx_carriesAcc c fun x => match x with
    | .ready o => h o
    | .uninit => fail_carriesAcc .misuse
    | .destroyed => fail_carriesAcc .misuse

end

/-- Every command outside the scalar unit gives the same answer whatever ACC holds, with that ACC in it: each is built
of the shared operations, and its success writes neither ACC nor anything computed from it (R116). -/
theorem exec_carriesAcc {i : Instr} (hi : i ∉ [.nop, .fxFromf, .fxTof, .fxMul, .macClr, .macAcc, .macRd]) (s : State)
    (a : AccWord) : CarriesAcc a (exec i { s with acc := a }) (exec i s) := by
  cases i with
  | dpLoad k => exact withSlot_carriesAcc k fun _ => guarded_carriesAcc _ (orFault_carriesAcc _ fun _ => rfl)
  | dpExec u k => exact withReadySlot_carriesAcc k fun _ => guarded_carriesAcc _ (orFault_carriesAcc _ fun _ => rfl)
  | dpFree k => exact withReadySlot_carriesAcc k fun _ => rfl
  | intCreate c => exact withCtx_carriesAcc c fun _ => guarded_carriesAcc _ (orFault_carriesAcc _ fun _ => rfl)
  | intKaiser c => exact withCtx_carriesAcc c fun _ => guarded_carriesAcc _ rfl
  | intReset c => exact withReadyCtx_carriesAcc c fun _ => rfl
  | intExec c => exact withReadyCtx_carriesAcc c fun _ => guarded_carriesAcc _ (orFault_carriesAcc _ fun _ => rfl)
  | intExecBlock c => exact withReadyCtx_carriesAcc c fun _ => guarded_carriesAcc _ (orFault_carriesAcc _ fun _ => rfl)
  | intSetScale c => exact withReadyCtx_carriesAcc c fun _ => rfl
  | intCopy c =>
    refine withReadyCtx_carriesAcc c fun o => guarded_carriesAcc _ ?_
    dsimp only
    split
    · rfl
    · rfl
  | intDestroy c => exact withReadyCtx_carriesAcc c fun _ => rfl
  | _ => simp at hi

/-- Settles O17: the four scalar commands by what each writes, the others by `exec_carriesAcc`. -/
theorem accBelongsToTheScalarUnit : Obligations.AccBelongsToTheScalarUnit := by
  refine ⟨fun i s t hi h => ?_, fun i s a hi => exec_carriesAcc hi s a⟩
  simp only [List.mem_cons, List.not_mem_nil, or_false] at hi
  rcases hi with rfl | rfl | rfl | rfl
  · rw [exec_fxMul] at h; cases h; rfl
  · rw [exec_macClr] at h; cases h; rfl
  · rw [exec_macAcc] at h; cases h; rfl
  · rw [exec_macRd] at h; cases h; rfl

end Sys2Proof.Machine

/-! Conversion between binary32 and Q4.12: rounding to nearest with ties away from zero, the exact conversion back, and
their round trip (40_fixedpoint.md R107 to R111). -/

namespace Sys2Proof.Machine

/-! From binary32 to Q -/

/-- Rounding to the nearest integer, a tie away from zero: `sign(r) * floor(|r| + 1/2)` (R107). -/
def roundHalfAway (r : ℚ) : Int := if r < 0 then -⌊|r| + 1 / 2⌋ else ⌊|r| + 1 / 2⌋

/-- `roundMagnitude` is the floor of the scaled magnitude plus one half (R107). -/
theorem roundMagnitude_eq_floor (m : Nat) (k : Int) : (roundMagnitude m k : Int) = ⌊(m : ℚ) * 2 ^ k + 1 / 2⌋ := by
  cases k with
  | ofNat k =>
    have hsum : (m : ℚ) * 2 ^ Int.ofNat k + 1 / 2 = ((m * 2 ^ k : Nat) : ℚ) + 1 / 2 := by simp
    rw [hsum, Int.floor_natCast_add, Int.floor_eq_zero_iff.2 (by norm_num), add_zero]
    rfl
  | negSucc j =>
    have hsum : (m : ℚ) * 2 ^ Int.negSucc j + 1 / 2 = ((m + 2 ^ j : Nat) : ℚ) / ((2 ^ (j + 1) : Nat) : ℚ) := by
      rw [zpow_negSucc]
      push_cast
      field_simp
      ring
    rw [hsum, Rat.floor_natCast_div_natCast]
    rfl

/-- A sign and a rounded magnitude are the rounding of the signed number (R107). -/
theorem signed_floor (neg : Bool) {y : ℚ} (hy : 0 ≤ y) {n : Nat} (hn : (n : Int) = ⌊y + 1 / 2⌋) :
    signed neg n = roundHalfAway ((if neg then -1 else 1) * y) := by
  cases neg with
  | false => simp [signed, roundHalfAway, hn, abs_of_nonneg hy, not_lt.2 hy]
  | true =>
    rcases hy.eq_or_lt with rfl | hpos
    · have h0 : n = 0 := by exact_mod_cast hn.trans (Int.floor_eq_zero_iff.2 (by norm_num))
      norm_num [signed, roundHalfAway, h0]
    · simp [signed, roundHalfAway, hn, abs_of_nonneg hy, hpos]

/-- `from_float` of a finite value rounds `x * 2^12` and clamps it (R107). -/
theorem fromFloat_of_value {f : F32} {x : ℚ} (h : f.value = some x) :
    fromFloat f = satN Config.W (roundHalfAway (x * 2 ^ 12)) := by
  cases f with
  | nan => cases h
  | inf neg => cases h
  | finite neg mant exp =>
    have hscale : (mant : ℚ) * 2 ^ (exp + 12) = mant * 2 ^ exp * 2 ^ 12 := by
      rw [zpow_add₀ two_ne_zero, mul_assoc]
      rfl
    simp only [F32.value, Option.some.injEq] at h
    rw [← h, fromFloat, signed_floor neg (by positivity) (roundMagnitude_eq_floor mant _), Nat.cast_ofNat, hscale]
    simp only [mul_assoc]

/-- FX_FROMF puts `from_float` of its operand into RES (R109). -/
theorem exec_fxFromf (s : State) : exec .fxFromf s = .next { s with
    res := resWord (fromFloat (readF32 s.arg0)).val
    sat := s.sat || (fromFloat (readF32 s.arg0)).clipped
    lastErr := .ok } :=
  succeed_eq _ _

/-- FX_FROMF of a finite value (R109). -/
theorem exec_fxFromf_of_value {s : State} {x : ℚ} (h : (readF32 s.arg0).value = some x) :
    exec .fxFromf s = .next { s with
      res := BitVec.ofInt 32 (clamp16 (roundHalfAway (x * 2 ^ 12)))
      sat := s.sat || outside16 (roundHalfAway (x * 2 ^ 12))
      lastErr := .ok } := by
  obtain ⟨lo, hi⟩ := clamp16_range (roundHalfAway (x * 2 ^ 12))
  rw [exec_fxFromf, fromFloat_of_value h, satN_w_val, satN_w_clipped, resWord_eq lo hi]

/-- FX_FROMF of a pattern that stands for no number: the value of `from_float` goes to RES, and SAT is set (R109). -/
theorem exec_fxFromf_flagged {s : State} {f : F32} (h : readF32 s.arg0 = f) (hf : (fromFloat f).clipped = true) :
    exec .fxFromf s = .next { s with res := resWord (fromFloat f).val, sat := true, lastErr := .ok } := by
  rw [exec_fxFromf, h, hf, Bool.or_true]

/-- Settles O10: the patterns that stand for no number by evaluation, a finite value by `roundMagnitude_eq_floor`. -/
theorem fromFloatRoundsAndSaturates : Obligations.FromFloatRoundsAndSaturates :=
  ⟨rfl, fun _ => ⟨fun h => exec_fxFromf_flagged h rfl, fun h => exec_fxFromf_flagged h rfl,
    fun h => exec_fxFromf_flagged h rfl, fun _ h => exec_fxFromf_of_value h⟩⟩

/-! From Q to binary32 -/

/-- The pattern of a sign, an exponent field and a fraction (30_encoding.md R81). -/
def binary32 (neg : Bool) (e f : Nat) : Word32 := BitVec.ofBool neg ++ BitVec.ofNat 8 e ++ BitVec.ofNat 23 f

theorem binary32_toNat (neg : Bool) {e f : Nat} (he : e < 256) (hf : f < 2 ^ 23) :
    (binary32 neg e f).toNat = neg.toNat * 2 ^ 31 + e * 2 ^ 23 + f := by
  simp only [binary32, toNat_append_add, BitVec.toNat_ofBool, BitVec.toNat_ofNat]
  omega

/-- The exponent field of a pattern put together from its fields. -/
theorem binary32_exponent (neg : Bool) {e f : Nat} (he : e < 256) (hf : f < 2 ^ 23) :
    (binary32 neg e f).toNat / 2 ^ 23 % 2 ^ 8 = e := by
  rw [binary32_toNat neg he hf]
  omega

/-- An exponent field that is neither 0 nor all ones makes a normal number (30_encoding.md R81). -/
theorem readF32_binary32 (neg : Bool) {e f : Nat} (h0 : 0 < e) (h255 : e < 255) (hf : f < 2 ^ 23) :
    readF32 (binary32 neg e f) = .finite neg (2 ^ 23 + f) ((e : Int) - 150) := by
  have hsign : decide (2 ^ 31 ≤ neg.toNat * 2 ^ 31 + e * 2 ^ 23 + f) = neg := by
    cases neg with
    | false => exact decide_eq_false (by simp; omega)
    | true => exact decide_eq_true (by simp; omega)
  have hfrac : (neg.toNat * 2 ^ 31 + e * 2 ^ 23 + f) % 2 ^ 23 = f := by omega
  rw [readF32_eq, binary32_exponent neg (by omega) hf, if_neg (by omega), if_neg (by omega),
    binary32_toNat neg (by omega) hf, hsign, hfrac]

/-- `to_float` of a value other than 0 puts the leading bit of the magnitude at bit 23 of the significand, and the
exponent field makes up for the move (R108). -/
theorem toFloat_eq_binary32 {q : Int} (h0 : q ≠ 0) (hq : q.natAbs ≤ 32768) :
    ∃ top f : Nat, top ≤ 15 ∧ f < 2 ^ 23 ∧ 2 ^ 23 + f = q.natAbs * 2 ^ (23 - top) ∧
      toFloat q = binary32 (decide (q < 0)) (top + 115) f := by
  have hmag : q.natAbs ≠ 0 := Int.natAbs_ne_zero.2 h0
  have htop : Nat.log2 q.natAbs < 16 := (Nat.log2_lt hmag).2 (by omega)
  have hlow : 2 ^ Nat.log2 q.natAbs ≤ q.natAbs := Nat.log2_self_le hmag
  have hhigh : q.natAbs < 2 ^ (Nat.log2 q.natAbs + 1) := Nat.lt_log2_self
  have hone : 2 ^ Nat.log2 q.natAbs * 2 ^ (23 - Nat.log2 q.natAbs) = 2 ^ 23 := by
    rw [← pow_add, Nat.add_sub_cancel' (by omega)]
  refine ⟨Nat.log2 q.natAbs, (q.natAbs - 2 ^ Nat.log2 q.natAbs) * 2 ^ (23 - Nat.log2 q.natAbs), by omega, ?_, ?_, ?_⟩
  · rw [← hone]
    exact Nat.mul_lt_mul_of_pos_right (by omega) (by positivity)
  · rw [← hone, ← Nat.add_mul, Nat.add_sub_cancel' hlow]
  · rw [toFloat, if_neg h0]
    rfl

/-- `to_float` of a value other than 0 is the pattern of a normal number of the exact value `q * 2^-12` (R108). -/
theorem toFloat_normal {q : Int} (h0 : q ≠ 0) (hq : q.natAbs ≤ 32768) :
    (readF32 (toFloat q)).value = some ((q : ℚ) / 4096) ∧
    0 < (toFloat q).toNat / 2 ^ 23 % 2 ^ 8 ∧ (toFloat q).toNat / 2 ^ 23 % 2 ^ 8 < 255 := by
  obtain ⟨top, f, htop, hf, hsig, hw⟩ := toFloat_eq_binary32 h0 hq
  rw [hw, binary32_exponent _ (by omega) hf]
  refine ⟨?_, by omega, by omega⟩
  have hscale : (2 : ℚ) ^ (23 - top) * 2 ^ (((top + 115 : Nat) : Int) - 150) = 1 / 4096 := by
    have hexp : ((23 - top : Nat) : Int) + (((top + 115 : Nat) : Int) - 150) = -12 := by omega
    rw [← zpow_natCast, ← zpow_add₀ two_ne_zero, hexp]
    norm_num
  have hsign : (if decide (q < 0) then -1 else 1) * (q.natAbs : ℚ) = q := by
    rw [Nat.cast_natAbs]
    rcases lt_or_ge q 0 with hneg | hpos
    · simp [hneg, abs_of_neg hneg]
    · simp [not_lt.2 hpos, abs_of_nonneg hpos]
  rw [readF32_binary32 _ (by omega) (by omega) hf, F32.value, hsig, Nat.cast_mul, Nat.cast_pow, Nat.cast_ofNat,
    ← mul_assoc, hsign, mul_assoc, hscale, mul_one_div]

theorem toFloat_zero : toFloat 0 = 0 := rfl

/-- `to_float` is exact on every W-bit value (R108). -/
theorem toFloat_value {q : Int} (hq : q.natAbs ≤ 32768) : (readF32 (toFloat q)).value = some ((q : ℚ) / 4096) := by
  by_cases h0 : q = 0
  · have hread : readF32 0 = .finite false 0 (-149) := rfl
    rw [h0, toFloat_zero, hread]
    simp [F32.value]
  · exact (toFloat_normal h0 hq).1

/-- FX_TOF puts `to_float` of its operand into RES (R110). -/
theorem exec_fxTof (s : State) : exec .fxTof s = .next { s with res := toFloat (low16 s.arg0), lastErr := .ok } :=
  succeed_false _

theorem low16_range (v : Word32) : -32768 ≤ low16 v ∧ low16 v ≤ 32767 := sample_range _

/-- Settles O11: `to_float` is exact on the operand, which it takes to 0 or to a normal number. -/
theorem toFloatIsExact : Obligations.ToFloatIsExact := by
  refine ⟨rfl, fun s => ⟨_, exec_fxTof s, ?_⟩⟩
  have hq : (low16 s.arg0).natAbs ≤ 32768 := by
    have hrange := low16_range s.arg0
    omega
  exact ⟨toFloat_value hq, fun h => by rw [h, toFloat_zero], fun h => (toFloat_normal h hq).2⟩

/-! The round trip -/

/-- `from_float` of every value, NaN and the infinities too, is a W-bit value (R101, R107). -/
theorem fromFloat_range (f : F32) : -32768 ≤ (fromFloat f).val ∧ (fromFloat f).val ≤ 32767 := by
  cases f with
  | nan => decide
  | inf neg => exact (satN_w_val _).symm ▸ clamp16_range _
  | finite neg mant exp => exact (satN_w_val _).symm ▸ clamp16_range _

/-- FX_FROMF leaves a W-bit value in RES (10_state.md R22). -/
theorem exec_fxFromf_res {s t : State} (h : exec .fxFromf s = .next t) :
    ∃ n : Int, -32768 ≤ n ∧ n ≤ 32767 ∧ t.res = resWord n := by
  obtain ⟨lo, hi⟩ := fromFloat_range (readF32 s.arg0)
  rw [exec_fxFromf] at h
  cases h
  exact ⟨_, lo, hi, rfl⟩

/-- The word in RES reads back as the W-bit value that was put there (10_state.md R22; 30_encoding.md R77). -/
theorem low16_resWord {n : Int} (lo : -32768 ≤ n) (hi : n ≤ 32767) : low16 (resWord n) = n := by
  rw [resWord_eq lo hi, low16, BitVec.toInt_ofNat', BitVec.toNat_ofInt]
  simp only [Int.bmod]
  omega

/-- Rounding an integer leaves it. -/
theorem roundHalfAway_intCast (n : Int) : roundHalfAway n = n := by
  have hfloor : ⌊|(n : ℚ)| + 1 / 2⌋ = |n| := by
    rw [← Int.cast_abs, Int.floor_intCast_add, Int.floor_eq_zero_iff.2 (by norm_num), add_zero]
  rw [roundHalfAway, hfloor]
  rcases lt_or_ge n 0 with hneg | hpos
  · rw [if_pos (by exact_mod_cast hneg), abs_of_neg hneg, neg_neg]
  · rw [if_neg (by exact_mod_cast not_lt.2 hpos), abs_of_nonneg hpos]

/-- FX_FROMF takes `to_float` of a W-bit value back to that value and sets no flag (R111). -/
theorem exec_fxFromf_toFloat {s : State} {n : Int} (lo : -32768 ≤ n) (hi : n ≤ 32767) (h : s.arg0 = toFloat n) :
    exec .fxFromf s = .next { s with res := resWord n, lastErr := .ok } := by
  have hval : (readF32 s.arg0).value = some ((n : ℚ) / 4096) := by rw [h, toFloat_value (by omega)]
  have hround : roundHalfAway ((n : ℚ) / 4096 * 2 ^ 12) = n := by
    rw [show (n : ℚ) / 4096 * 2 ^ 12 = n by ring, roundHalfAway_intCast]
  obtain ⟨hclamp, hin⟩ := clamp16_of_range lo hi
  rw [exec_fxFromf_of_value hval, hround, hclamp, hin, Bool.or_false, resWord_eq lo hi]

/-- Settles O12: RES holds a W-bit value, FX_TOF is exact on it, and FX_FROMF takes it back. -/
theorem fixedFloatRoundTrip : Obligations.FixedFloatRoundTrip := by
  intro s t1 t2 t3 h1 h2 h3
  obtain ⟨n, lo, hi, hres⟩ := exec_fxFromf_res h1
  rw [exec_fxTof, hres, low16_resWord lo hi] at h2
  obtain ⟨htof, hsat⟩ : t2.res = toFloat n ∧ t2.sat = t1.sat := by
    cases h2
    exact ⟨rfl, rfl⟩
  rw [exec_fxFromf_toFloat lo hi htof] at h3
  cases h3
  exact ⟨hres.symm, hsat⟩

end Sys2Proof.Machine

/-! The dot-product kernel: both paths are one left-to-right accumulation, and for at most L_MAX terms that
accumulation is the exact sum (41_dotprod.md R130 to R136). -/

namespace Sys2Proof.Machine

/-- The unrolled rounds and the tail accumulate the same terms in the same order as the straight line (R133). -/
theorem loop4_eq_sumRef {k : Nat} {ps : List Int} (h : 4 * k ≤ ps.length) (s : Clamped) :
    loop4 k s ps = sumRef s ps := by
  induction k generalizing s ps with
  | zero => exact loop4_zero s ps
  | succ k ih =>
    match ps, h with
    | p0 :: p1 :: p2 :: p3 :: ps, h =>
      simp only [List.length_cons] at h
      rw [loop4_succ, ih (by omega)]
      simp only [sumRef_cons]

theorem sumRun4_eq_sumRef (s : Clamped) (ps : List Int) : sumRun4 s ps = sumRef s ps :=
  loop4_eq_sumRef (Nat.mul_div_le ps.length 4) s

theorem dotRun4_eq_dotRef (h x : List Sample) : dotRun4 h x = dotRef h x := by
  rw [dotRun4, dotRef, sumRun4_eq_sumRef]

/-- The U bit selects between equal results (R134). -/
theorem execDpExec_path (u : Bool) (k : BitVec 2) (s : State) : execDpExec u k s = execDpExec false k s := by
  simp only [execDpExec, dotRun4_eq_dotRef, ite_self]

/-- Settles O29: the four-way loop is the straight line, so DP_EXEC does not depend on U. -/
theorem unrolledPathEqualsReference : Obligations.UnrolledPathEqualsReference :=
  ⟨dotRun4_eq_dotRef, fun k s => execDpExec_path true k s⟩

/-- Products of data words, as many as the accumulator has room for, sum exactly and flag nothing (R136): each step
adds at most 2^30 to the magnitude. -/
theorem sumRef_fits {ps : List Int} {s : Clamped} (hp : ∀ p ∈ ps, -1073741824 ≤ p ∧ p ≤ 1073741824)
    (lo : -549755813887 ≤ s.val - 1073741824 * ps.length) (hi : s.val + 1073741824 * ps.length ≤ 549755813887) :
    sumRef s ps = ⟨s.val + ps.sum, s.clipped⟩ := by
  induction ps generalizing s with
  | nil => simp
  | cons p ps ih =>
    obtain ⟨⟨hlo, hhi⟩, hps⟩ := List.forall_mem_cons.1 hp
    rw [List.length_cons, Nat.cast_succ] at lo hi
    rw [sumRef_cons, accumulate_fits (by omega) (by omega), ih hps (by dsimp only; omega) (by dsimp only; omega),
      List.sum_cons, Int.add_assoc]

/-- Every exact product is at most 2^30 in magnitude (40_fixedpoint.md R101). -/
theorem products_range {h x : List Sample} {p : Int} (hp : p ∈ products h x) :
    -1073741824 ≤ p ∧ p ≤ 1073741824 := by
  rw [products, ← List.map_uncurry_zip_eq_zipWith, List.mem_map] at hp
  obtain ⟨⟨a, b⟩, -, rfl⟩ := hp
  exact product_range a b

/-- For at most L_MAX coefficients only the final narrowing can clamp (R136; 00_scope.md R7). -/
theorem dotRef_eq_narrow {h : List Sample} (hn : h.length ≤ 256) (x : List Sample) :
    dotRef h x = narrow (dotSum h x) := by
  have hlen : (products h x).length ≤ 256 := by rw [products_length]; omega
  have hsum : sumRef ⟨0, false⟩ (products h x) = ⟨dotSum h x, false⟩ := by
    rw [sumRef_fits (fun _ => products_range) (by dsimp only; omega) (by dsimp only; omega), Int.zero_add]
    rfl
  rw [dotRef, hsum]
  rfl

end Sys2Proof.Machine

/-! The slot commands DP_LOAD, DP_EXEC and DP_FREE (41_dotprod.md R140 to R142). -/

namespace Sys2Proof.Machine

/-- With every check passed and every word of the range written, a command goes on with the words (20_memory.md
R56). -/
theorem guarded_readMany_ok {cs : List (Bool × ErrCode)} {s : State} {a : Nat} {v : List Sample}
    (hcs : ∀ c ∈ cs, c.1 = false) (hv : ∀ j < v.length, s.mem.read (a + j) = v[j]?) (k : List Sample → Result) :
    guarded cs s (orFault (s.mem.readMany a v.length) k) = k v := by
  rw [guarded_pass hcs, (Memory.readMany_ok_iff _ _ _ _).2 ⟨rfl, hv⟩, orFault_ok]

/-- Settles O26: the checks pass and the MemRead gives the words. -/
theorem dpLoadCopiesTaps : Obligations.DpLoadCopiesTaps := by
  intro s k v hk hn h1 h256 hr hv
  obtain ⟨x, hx⟩ := withSlot_of_lt hk s _
  change execDpLoad k s = _
  rw [execDpLoad, hx]
  simp only [uint, hn]
  exact (guarded_readMany_ok (dpLoadChecks_pass h1 h256 hr) hv _).trans (succeed_false _)

/-- DP_LOAD ends with the code of its first failing check and no other effect (R140; 60_exceptions.md R253, R254). -/
theorem execDpLoad_error {s : State} {k : BitVec 2} {code : ErrCode} (hk : k.toNat < 2) (hc : code ≠ .ok)
    (h : firstError (dpLoadChecks s.arg0.toNat s.arg1.toNat) = some code) :
    execDpLoad k s = .next { s with lastErr := code, err := true } := by
  obtain ⟨x, hx⟩ := withSlot_of_lt hk s _
  rw [execDpLoad, hx]
  exact (guarded_stop h s _).trans (fail_eq hc s)

/-- Settles O27: in each clause the checks before the named one pass and that one fails. -/
theorem dpLoadErrorOrder : Obligations.DpLoadErrorOrder := by
  refine fun s k hk => ⟨fun h0 => ?config, fun h256 => ?resource, fun h1 h256 hr => ?bounds⟩
  case config => exact execDpLoad_error hk (by decide) (by simp [dpLoadChecks, firstError, h0])
  case resource =>
    have h0 : s.arg1.toNat ≠ 0 := by omega
    exact execDpLoad_error hk (by decide) (by simp [dpLoadChecks, firstError, h0, h256])
  case bounds =>
    have h0 : s.arg1.toNat ≠ 0 := by omega
    exact execDpLoad_error hk (by decide)
      (by simp [dpLoadChecks, firstError, h0, Nat.not_lt.2 h256, inRange_eq_false h1 hr])

/-- Settles O28: U does not matter, the accumulation is exact, and its narrowing is the clamp of RES. -/
theorem dpExecGivesExactSum : Obligations.DpExecGivesExactSum := by
  intro s u k d x hd hw hx hr hv
  simp only [DotProduct.wf, Bool.and_eq_true, decide_eq_true_eq, beq_iff_eq] at hw
  obtain ⟨⟨-, h256⟩, hlen⟩ := hw
  have hpass : ∀ c ∈ [(!inRange (uint s.arg0) d.n, ErrCode.bounds)], c.1 = false := by simp [uint, inRange_of_le hr]
  have hdot : dotRef d.h x = narrow (dotSum d.h x) := dotRef_eq_narrow (hlen.trans_le h256) x
  change execDpExec u k s = _
  rw [execDpExec_path, execDpExec, withReadySlot_ready hd]
  rw [← hx] at hpass hv ⊢
  refine (guarded_readMany_ok hpass hv _).trans ?_
  simp only [Bool.false_eq_true, if_false, hdot]
  exact succeed_satN_w _ s

/-- A command that needs a vector finds none in an EMPTY slot (60_exceptions.md R251). -/
theorem withReadySlot_empty {i : BitVec 2} {s : State} (h : s.slots.get? i.toNat = some .empty)
    (k : DotProduct → Result) : withReadySlot i s k = .next { s with lastErr := .misuse, err := true } := by
  simp only [withReadySlot, withSlot, h]
  exact fail_eq (by decide) s

/-- DP_FREE is a success that empties a READY slot (R142). -/
theorem execDpFree_ready {s : State} {k : BitVec 2} {d : DotProduct} (hd : s.slots.get? k.toNat = some (.ready d)) :
    execDpFree k s = .next { s with slots := s.slots.set k.toNat .empty, lastErr := .ok } :=
  (withReadySlot_ready hd _).trans (succeed_false _)

/-- The word of DP_FREE (30_encoding.md R73). -/
theorem decode_dpFree {k : BitVec 2} (hk : k.toNat < 2) :
    decode (BitVec.ofNat 32 (0x12000000 + k.toNat)) = .ok (.dpFree k) := by
  revert k
  decide

/-- Settles O30: the slot is EMPTY after DP_FREE, so DP_INFO reads 0 and DP_EXEC finds no vector. -/
theorem dpFreeEmptiesSlot : Obligations.DpFreeEmptiesSlot := by
  intro s k hk
  have hempty := Bank.get?_set_same s.slots Slot.empty hk
  refine ⟨decode_dpFree hk, fun d hd => ⟨_, execDpFree_ready hd, rfl, ?info, fun u => withReadySlot_empty hempty _⟩,
    fun he => withReadySlot_empty he _⟩
  case info => simp [readPort, readSlot, hempty, dpInfoWord]

end Sys2Proof.Machine

/-! The designer: the shape of KAISER_FN, and INT_KAISER's checks and the object it builds (42_designer.md R160 to
R163, R166; 43_interp.md R190). -/

namespace Sys2Proof.Machine

/-! KAISER_FN -/

@[simp] theorem kaiserFn_length (M m : Nat) (as : Word32) : (kaiserFn M m as).length = 2 * m * M + 1 := by
  simp [kaiserFn]

/-- Tap `i` of KAISER_FN is the free value at the distance of `i` from the nearer end (R163). -/
theorem kaiserFn_getElem? {M m i : Nat} (as : Word32) (hi : i ≤ 2 * m * M) :
    (kaiserFn M m as)[i]? = some (Config.kaiserTap M m as (min i (2 * m * M - i))) := by
  simp [kaiserFn, List.getElem?_range (Nat.lt_succ_of_le hi)]

/-- Settles O31: mirroring `i` exchanges its distances from the two ends. -/
theorem kaiserTapsAreSymmetric : Obligations.KaiserTapsAreSymmetric := by
  refine fun M m as => ⟨kaiserFn_length M m as, fun i hi => ?_⟩
  rw [kaiserFn_getElem? as hi, kaiserFn_getElem? as (Nat.sub_le _ i), Nat.sub_sub_self hi, min_comm]

/-! The checks -/

/-- What R161 asks of As: a binary32 number greater than 0. NaN and the infinities have no value. -/
theorem F32.isFinitePositive_iff (f : F32) : f.isFinitePositive = true ↔ ∃ x : ℚ, f.value = some x ∧ 0 < x := by
  cases f with
  | nan => simp [F32.isFinitePositive, F32.value]
  | inf neg => simp [F32.isFinitePositive, F32.value]
  | finite neg mant exp =>
    have hexp : (0 : ℚ) < 2 ^ exp := by positivity
    cases neg <;> simp [F32.isFinitePositive, F32.value, hexp]

theorem F32.isFinitePositive_eq_false {f : F32} (h : ∀ x : ℚ, f.value = some x → x ≤ 0) :
    f.isFinitePositive = false := by
  rw [← Bool.not_eq_true, F32.isFinitePositive_iff]
  exact fun ⟨x, hx, hpos⟩ => (h x hx).not_gt hpos

theorem intKaiserChecks_pass {M m : Nat} {as : Word32} (hM : 1 ≤ M) (hM' : M ≤ 16) (hm : 1 ≤ m) (hm' : 2 * m ≤ 256)
    (ht : 2 * m * M ≤ 1024) (ha : (readF32 as).isFinitePositive = true) : ∀ c ∈ intKaiserChecks M m as, c.1 = false := by
  simp [intKaiserChecks, Nat.ne_of_gt hM, Nat.ne_of_gt hm, ha, hM', hm', ht]

theorem intKaiserChecks_config {M m : Nat} {as : Word32}
    (h : M = 0 ∨ m = 0 ∨ (readF32 as).isFinitePositive = false) :
    firstError (intKaiserChecks M m as) = some .config := by
  rcases h with h | h | h <;> simp [intKaiserChecks, firstError, h]

theorem intKaiserChecks_resource {M m : Nat} {as : Word32} (hM : 1 ≤ M) (hm : 1 ≤ m)
    (ha : (readF32 as).isFinitePositive = true) (h : 16 < M ∨ 256 < 2 * m ∨ 1024 < 2 * m * M) :
    firstError (intKaiserChecks M m as) = some .resource := by
  have hM0 : M ≠ 0 := by omega
  have hm0 : m ≠ 0 := by omega
  rcases h with h | h | h <;> simp [intKaiserChecks, firstError, hM0, hm0, ha, h]

/-- INT_KAISER ends with the code of its first failing check and no other effect (R166; 60_exceptions.md R253, R254). -/
theorem execIntKaiser_error {s : State} {c : BitVec 2} {code : ErrCode} (hc : c.toNat < 2) (hcode : code ≠ .ok)
    (h : firstError (intKaiserChecks s.arg0.toNat s.arg1.toNat s.arg2) = some code) :
    execIntKaiser c s = .next { s with lastErr := code, err := true } := by
  obtain ⟨x, hx⟩ := withCtx_of_lt hc s _
  rw [execIntKaiser, hx]
  exact (guarded_stop h s _).trans (fail_eq hcode s)

/-- Settles O33: a CONFIG check fails in the first clause; in the second they pass and a RESOURCE check fails. -/
theorem intKaiserErrorOrder : Obligations.IntKaiserErrorOrder := by
  refine fun s c hc => ⟨fun h => ?config, fun hM hm ha h => ?resource⟩
  case config =>
    exact execIntKaiser_error hc (by decide)
      (intKaiserChecks_config (h.imp_right (Or.imp_right F32.isFinitePositive_eq_false)))
  case resource =>
    exact execIntKaiser_error hc (by decide)
      (intKaiserChecks_resource hM hm ((F32.isFinitePositive_iff _).2 ha) h)

/-! The object -/

/-- Tap `k` of phase `p` stands inside a master vector of `M*L` taps (43_interp.md R190). -/
theorem polyphase_index_lt {M L p k : Nat} (hp : p < M) (hk : k < L) : p + k * M < M * L :=
  calc p + k * M < M + k * M := Nat.add_lt_add_right hp _
    _ = M * (k + 1) := by ring
    _ ≤ M * L := Nat.mul_le_mul_left M hk

/-- BuildContext splits a master vector of `M*L` taps into M phases of L taps (43_interp.md R190, R192). -/
theorem buildInterp_phase {M L p : Nat} {taps : List Sample} (kind : Kind) (h : taps.length = M * L) (hp : p < M) :
    ∃ row, (buildInterp M taps kind).sub[p]? = some row ∧ row.length = L ∧
      ∀ k < L, row[k]? = taps[p + k * M]? := by
  have hL : taps.length / M = L := by rw [h, Nat.mul_div_cancel_left L (by omega)]
  refine ⟨_, buildInterp_sub M taps kind hp, by rw [phaseTaps_length, hL], fun k hk => ?_⟩
  exact phaseTaps_getElem? M _ taps p (hL.symm ▸ hk) (h ▸ polyphase_index_lt hp hk)

theorem buildInterp_sub_length (M : Nat) (taps : List Sample) (kind : Kind) :
    (buildInterp M taps kind).sub.length = M := by
  simp [buildInterp]

/-- INT_KAISER on an accepted design is a success that builds the context (R162, R166). -/
theorem execIntKaiser_accepted {s : State} {c : BitVec 2} {M m : Nat} (hc : c.toNat < 2) (h0 : s.arg0.toNat = M)
    (h1 : s.arg1.toNat = m) (hpass : ∀ k ∈ intKaiserChecks M m s.arg2, k.1 = false) :
    execIntKaiser c s = .next { s with
      ctx := s.ctx.set c.toNat (.ready (buildInterp M ((kaiserFn M m s.arg2).take (2 * m * M)) .kaiser))
      sat := s.sat || Config.kaiserClamps M m s.arg2
      lastErr := .ok } := by
  subst h0 h1
  obtain ⟨x, hx⟩ := withCtx_of_lt hc s _
  rw [execIntKaiser, hx]
  exact (guarded_pass hpass s _).trans (succeed_eq _ _)

/-- Settles O32: the stored `2*m*M` taps are M phases of `2*m` taps, each a tap of KAISER_FN below the dropped one. -/
theorem intKaiserBuildsContext : Obligations.IntKaiserBuildsContext := by
  intro s c M m hc h0 h1 hM hM' hm hm' ht ha
  have hpass := intKaiserChecks_pass hM hM' hm hm' ht ((F32.isFinitePositive_iff _).2 ha)
  refine ⟨_, execIntKaiser_accepted hc h0 h1 hpass, ?_⟩
  have hcomm : M * (2 * m) = 2 * m * M := Nat.mul_comm _ _
  have hlen : ((kaiserFn M m s.arg2).take (2 * m * M)).length = M * (2 * m) := by simp [hcomm]
  have hL : ((kaiserFn M m s.arg2).take (2 * m * M)).length / M = 2 * m := by rw [hlen, Nat.mul_div_cancel_left _ hM]
  refine ⟨rfl, hL, rfl, unitGain_toInt, congrArg zeroHist hL, buildInterp_sub_length M _ _, fun p hp => ?_⟩
  obtain ⟨row, hrow, hrowL, htaps⟩ := buildInterp_phase .kaiser hlen hp
  refine ⟨row, hrow, hrowL, fun k hk => (htaps k hk).trans ?_⟩
  exact List.getElem?_take_of_lt (hcomm ▸ polyphase_index_lt hp hk)

end Sys2Proof.Machine

/-! The reference Kaiser design in real arithmetic: its window lies between 0 and 1, and its sinc is 1 at the centre, 0
at the other integers and even (42_designer.md R164, R165, R167). -/

namespace Sys2Proof.Machine.Reference

/-! The Bessel function I0 -/

/-- The series of I0 converges: its terms are below those of `exp ((z/2)^2)`. -/
theorem summable_besselI0 (z : ℝ) : Summable fun k : ℕ => ((z / 2) ^ k / (k.factorial : ℝ)) ^ 2 := by
  refine (Real.summable_pow_div_factorial ((z / 2) ^ 2)).of_nonneg_of_le (fun k => sq_nonneg _) fun k => ?_
  have hfact : (1 : ℝ) ≤ k.factorial := by exact_mod_cast k.factorial_pos
  rw [div_pow, ← pow_mul, ← pow_mul, Nat.mul_comm k 2]
  exact div_le_div_of_nonneg_left (by rw [pow_mul]; positivity) (by positivity) (le_self_pow₀ hfact two_ne_zero)

/-- I0 grows with a nonnegative argument, term by term. -/
theorem besselI0_mono {y z : ℝ} (hy : 0 ≤ y) (h : y ≤ z) : besselI0 y ≤ besselI0 z := by
  refine (summable_besselI0 y).tsum_le_tsum (fun k => ?_) (summable_besselI0 z)
  gcongr

/-- The term of I0 at `k = 0` is 1, and no term is negative. -/
theorem one_le_besselI0 (z : ℝ) : 1 ≤ besselI0 z := by
  simpa [besselI0] using (summable_besselI0 z).le_tsum 0 fun k _ => sq_nonneg _

/-! The window -/

theorem beta_nonneg (as : ℝ) : 0 ≤ beta as := by
  unfold beta
  split
  · linarith
  · split
    · have : 0 ≤ as - 21 := by linarith
      positivity
    · exact le_rfl

/-- The window's argument is at most `beta`, so I0 of it is at most the divisor. -/
theorem window_range (M m : ℕ) (as : ℝ) (i : ℕ) : 0 ≤ window M m as i ∧ window M m as i ≤ 1 := by
  have hbeta := beta_nonneg as
  have hsqrt : √(1 - (offset M m i / ((m : ℝ) * (M : ℝ))) ^ 2) ≤ 1 :=
    Real.sqrt_le_one.2 (sub_le_self 1 (sq_nonneg _))
  have hpos : 0 < besselI0 (beta as) := one_pos.trans_le (one_le_besselI0 _)
  refine ⟨div_nonneg (zero_le_one.trans (one_le_besselI0 _)) hpos.le, ?_⟩
  exact (div_le_one hpos).2 (besselI0_mono (by positivity) (mul_le_of_le_one_right hbeta hsqrt))

/-! The sinc -/

/-- R164's sinc is Mathlib's at `π * u`. -/
theorem sinc_eq (u : ℝ) : sinc u = Real.sinc (Real.pi * u) := by
  rw [sinc, Real.sinc_apply]
  simp [Real.pi_ne_zero]

theorem sinc_neg (u : ℝ) : sinc (-u) = sinc u := by
  rw [sinc_eq, mul_neg, Real.sinc_neg, ← sinc_eq]

theorem abs_sinc_le_one (u : ℝ) : |sinc u| ≤ 1 := sinc_eq u ▸ Real.abs_sinc_le_one _

theorem sinc_int {n : ℤ} (hn : n ≠ 0) : sinc n = 0 := by
  rw [sinc, if_neg (Int.cast_ne_zero.2 hn), mul_comm, Real.sin_int_mul_pi, zero_div]

/-! The taps -/

theorem offset_centre (M m : ℕ) : offset M m (m * M) = 0 := by simp [offset]

/-- Multiples of M are whole numbers of periods away from the centre. -/
theorem offset_mul_div {M : ℕ} (hM : 1 ≤ M) (m k : ℕ) : offset M m (k * M) / M = ((k - m : ℤ) : ℝ) := by
  have hM0 : (M : ℝ) ≠ 0 := by positivity
  simp only [offset]
  push_cast
  field_simp

theorem offset_mirror {M m i : ℕ} (hi : i ≤ 2 * m * M) : offset M m (2 * m * M - i) = -offset M m i := by
  simp only [offset, Nat.cast_sub hi]
  push_cast
  ring

theorem tap_centre (M m : ℕ) (as : ℝ) : tap M m as (m * M) = 1 := by
  have hne : besselI0 (beta as) ≠ 0 := (one_pos.trans_le (one_le_besselI0 _)).ne'
  simp [tap, window, sinc, offset_centre, hne]

theorem tap_zero_crossing {M m k : ℕ} (as : ℝ) (hM : 1 ≤ M) (hk : k ≠ m) : tap M m as (k * M) = 0 := by
  rw [tap, offset_mul_div hM, sinc_int (by omega), zero_mul]

theorem tap_mirror {M m i : ℕ} (as : ℝ) (hi : i ≤ 2 * m * M) : tap M m as i = tap M m as (2 * m * M - i) := by
  simp only [tap, window, offset_mirror hi, neg_div, sinc_neg, neg_sq]

theorem abs_tap_le_one (M m : ℕ) (as : ℝ) (i : ℕ) : |tap M m as i| ≤ 1 := by
  obtain ⟨h0, h1⟩ := window_range M m as i
  rw [tap, abs_mul, abs_of_nonneg h0]
  exact mul_le_one₀ (abs_sinc_le_one _) h0 h1

/-! The quantization -/

theorem quantizeInt_one : quantizeInt 1 = 4096 := by
  have hround : |(1 : ℝ) * 2 ^ Config.F| + 1 / 2 = ((4096 : ℤ) : ℝ) + 1 / 2 := by norm_num
  rw [quantizeInt, if_neg (by norm_num), hround, Int.floor_intCast_add, Int.floor_eq_zero_iff.2 (by norm_num), add_zero]

/-- A tap of magnitude at most 1 quantizes to at most `2^F` in magnitude (R167). -/
theorem abs_quantizeInt_le {x : ℝ} (hx : |x| ≤ 1) : |quantizeInt x| ≤ 4096 := by
  have hscaled : |x * 2 ^ Config.F| ≤ 4096 :=
    calc |x * 2 ^ Config.F| = |x| * 4096 := by rw [abs_mul]; norm_num
      _ ≤ 4096 := mul_le_of_le_one_left (by norm_num) hx
  have hlo : 0 ≤ ⌊|x * 2 ^ Config.F| + 1 / 2⌋ := Int.floor_nonneg.2 (by positivity)
  have hhi : ⌊|x * 2 ^ Config.F| + 1 / 2⌋ < 4097 := Int.floor_lt.2 ((add_le_add_left hscaled _).trans_lt (by norm_num))
  rw [quantizeInt]
  split <;> rw [abs_le] <;> omega

/-- A tap of magnitude at most 1 is not clamped: `1 < 2^(W-1-F)` (R167). -/
theorem quantize_of_abs_le_one {x : ℝ} (hx : |x| ≤ 1) : quantize x = ⟨quantizeInt x, false⟩ := by
  obtain ⟨lo, hi⟩ := abs_le.1 (abs_quantizeInt_le hx)
  exact satN_in_range (by rw [satMin_w]; omega) (by rw [satMax_w]; omega)

/-- Settles O34: R167's four properties, each from the window's range and the sinc. -/
theorem referenceDesignProperties : Obligations.ReferenceDesignProperties := by
  refine fun M m as hM _ => ⟨tap_centre M m as, ?centre, fun k _ hk => tap_zero_crossing as hM hk, fun i hi => ?mirror⟩
  case centre => rw [tap_centre, quantize_of_abs_le_one (by simp), quantizeInt_one]
  case mirror =>
    have hrange := abs_tap_le_one M m as i
    exact ⟨tap_mirror as hi, hrange, by rw [quantize_of_abs_le_one hrange]⟩

end Sys2Proof.Machine.Reference

/-! The interpolator's commands that make, clear, copy and end an object: INT_CREATE's checks and the bank it builds,
INT_RESET, INT_COPY and INT_DESTROY (43_interp.md R190, R192, R200, R201, R204, R205, R207). -/

namespace Sys2Proof.Machine

/-! INT_CREATE -/

theorem intCreateChecks_config {M n : Nat} (ha : Nat) (h : M = 0 ∨ n = 0 ∨ n % M ≠ 0) :
    firstError (intCreateChecks M ha n) = some .config := by
  rcases h with h | h | h <;> simp [intCreateChecks, firstError, h]

theorem intCreateChecks_resource {M n : Nat} (ha : Nat) (hM : 1 ≤ M) (hn : 1 ≤ n) (hd : n % M = 0)
    (h : 16 < M ∨ 256 < n / M ∨ 1024 < n) : firstError (intCreateChecks M ha n) = some .resource := by
  have hM0 : M ≠ 0 := by omega
  have hn0 : n ≠ 0 := by omega
  rcases h with h | h | h <;> simp [intCreateChecks, firstError, hM0, hn0, hd, h]

theorem intCreateChecks_bounds {M ha n : Nat} (hM : 1 ≤ M) (hn : 1 ≤ n) (hd : n % M = 0) (hM' : M ≤ 16)
    (hL : n / M ≤ 256) (hn' : n ≤ 1024) (hr : 4096 < ha + n) :
    firstError (intCreateChecks M ha n) = some .bounds := by
  have hM0 : M ≠ 0 := by omega
  have hn0 : n ≠ 0 := by omega
  simp [intCreateChecks, firstError, hM0, hn0, hd, Nat.not_lt.2 hM', Nat.not_lt.2 hL, Nat.not_lt.2 hn',
    inRange_eq_false hn hr]

/-- INT_CREATE ends with the code of its first failing check and no other effect (R200; 60_exceptions.md R253, R254). -/
theorem execIntCreate_error {s : State} {c : BitVec 2} {code : ErrCode} (hc : c.toNat < 2) (hcode : code ≠ .ok)
    (h : firstError (intCreateChecks s.arg0.toNat s.arg1.toNat s.arg2.toNat) = some code) :
    execIntCreate c s = .next { s with lastErr := code, err := true } := by
  obtain ⟨x, hx⟩ := withCtx_of_lt hc s _
  rw [execIntCreate, hx]
  exact (guarded_stop h s _).trans (fail_eq hcode s)

/-- Settles O36: in each clause the checks before the named code pass and one with that code fails. -/
theorem intCreateErrorOrder : Obligations.IntCreateErrorOrder := by
  rintro s c _ _ hc rfl rfl
  refine ⟨fun h => ?config, fun hM hn hd h => ?resource, fun hM hn hd hM' hL hn' hr => ?bounds⟩
  case config => exact execIntCreate_error hc (by decide) (intCreateChecks_config _ h)
  case resource => exact execIntCreate_error hc (by decide) (intCreateChecks_resource _ hM hn hd h)
  case bounds => exact execIntCreate_error hc (by decide) (intCreateChecks_bounds hM hn hd hM' hL hn' hr)

/-- INT_CREATE on accepted operands and a written range is a success that builds the context (R192, R200). -/
theorem execIntCreate_accepted {s : State} {c : BitVec 2} {taps : List Sample} (hc : c.toNat < 2)
    (hn : s.arg2.toNat = taps.length)
    (hpass : ∀ k ∈ intCreateChecks s.arg0.toNat s.arg1.toNat taps.length, k.1 = false)
    (hread : ∀ j < taps.length, s.mem.read (s.arg1.toNat + j) = taps[j]?) :
    execIntCreate c s = .next { s with
      ctx := s.ctx.set c.toNat (.ready (buildInterp s.arg0.toNat taps .taps)), lastErr := .ok } := by
  obtain ⟨x, hx⟩ := withCtx_of_lt hc s _
  rw [execIntCreate, hx]
  simp only [uint, hn]
  exact (guarded_readMany_ok hpass hread _).trans (succeed_false _)

/-- Interleaving the phases gives the master vector back: tap `j` is tap `j / M` of phase `j % M` (R190). -/
theorem buildInterp_interleave {M L j : Nat} {taps : List Sample} (kind : Kind) (h : taps.length = M * L) (hM : 1 ≤ M)
    (hj : j < taps.length) :
    ∃ row, (buildInterp M taps kind).sub[j % M]? = some row ∧ row[j / M]? = taps[j]? := by
  obtain ⟨row, hrow, -, htaps⟩ := buildInterp_phase kind h (Nat.mod_lt j hM)
  have hk : j / M < L := Nat.div_lt_of_lt_mul (h ▸ hj)
  exact ⟨row, hrow, by rw [htaps _ hk, Nat.mod_add_div']⟩

/-- Settles O35: the checks pass, the MemRead gives the taps, and BuildContext splits them into phases. -/
theorem intCreateBuildsPolyphaseBank : Obligations.IntCreateBuildsPolyphaseBank := by
  rintro s c _ L taps hc rfl hn hlen hM hM' hL hL' ht hr hread
  have hdiv : taps.length / s.arg0.toNat = L := by rw [hlen, Nat.mul_div_cancel_left L hM]
  have hpass := intCreateChecks_pass hM hM' (hlen ▸ Nat.mul_pos hM hL) (by rw [hlen, Nat.mul_mod_right])
    (hdiv.trans_le hL') (hlen.trans_le ht) hr
  refine ⟨_, execIntCreate_accepted hc hn hpass hread, rfl, hdiv, rfl, unitGain_toInt, congrArg zeroHist hdiv,
    buildInterp_sub_length _ _ _, fun p hp => buildInterp_phase .taps hlen hp,
    fun j hj => buildInterp_interleave .taps hlen hM hj⟩

/-! INT_RESET -/

/-- A command that needs an object finds none in a context that is not READY (60_exceptions.md R251). -/
theorem withReadyCtx_not_ready {c : BitVec 2} {s : State} (hc : c.toNat < 2)
    (h : ∀ o, s.ctx.get? c.toNat ≠ some (.ready o)) (k : Interp → Result) :
    withReadyCtx c s k = .next { s with lastErr := .misuse, err := true } := by
  rcases withReadyCtx_cases c s k with ⟨hge, -⟩ | ⟨-, -, hk⟩ | ⟨o, ho, -⟩
  · omega
  · rw [hk, fail_eq (by decide)]
  · exact absurd ho (h o)

/-- INT_RESET on a READY context is a success that zeroes its history (R201). -/
theorem execIntReset_ready {s : State} {c : BitVec 2} {o : Interp} (ho : s.ctx.get? c.toNat = some (.ready o)) :
    execIntReset c s = .next { s with
      ctx := s.ctx.set c.toNat (.ready { o with hist := zeroHist o.L }), lastErr := .ok } :=
  (withReadyCtx_ready ho _).trans (succeed_false _)

/-- The word of INT_RESET (30_encoding.md R73). -/
theorem decode_intReset {c : BitVec 2} (hc : c.toNat < 2) :
    decode (BitVec.ofNat 32 (0x23000000 + c.toNat)) = .ok (.intReset c) := by
  revert c
  decide

/-- Settles O37: the word decodes, and the command finds an object or does not. -/
theorem intResetClearsHistory : Obligations.IntResetClearsHistory :=
  fun _ _ hc => ⟨decode_intReset hc, fun _ ho => execIntReset_ready ho, fun h => withReadyCtx_not_ready hc h _⟩

/-- Settles O38: BuildContext's history is the zero history of its length, and only the gain differs otherwise. -/
theorem resetEqualsFreshObject : Obligations.ResetEqualsFreshObject := by
  intro s c M taps kind hist g ho
  refine ⟨_, execIntReset_ready ho, ?_⟩
  exact Bank.get?_set_same s.ctx _ (Bank.get?_eq_some_lt ho)

/-! INT_COPY and INT_DESTROY -/

/-- INT_COPY to a destination that exists is a success; onto itself it writes nothing (R204). -/
theorem execIntCopy_to {s : State} {c : BitVec 2} {o : Interp} (ho : s.ctx.get? c.toNat = some (.ready o))
    (hd : s.arg0.toNat < 2) :
    execIntCopy c s =
      succeed false (if s.arg0.toNat = c.toNat then s else s.setCtx s.arg0.toNat (.ready o)) := by
  have hpass : decide (Config.nCtx ≤ s.arg0.toNat) = false := decide_eq_false (Nat.not_le.2 hd)
  rw [execIntCopy, withReadyCtx_ready ho]
  exact guarded_pass (List.forall_mem_singleton.2 hpass) s _

/-- INT_COPY to a destination that does not exist ends with CONFIG (R204). -/
theorem execIntCopy_absent {s : State} {c : BitVec 2} {o : Interp} (ho : s.ctx.get? c.toNat = some (.ready o))
    (hd : 2 ≤ s.arg0.toNat) : execIntCopy c s = .next { s with lastErr := .config, err := true } := by
  have hfail : firstError [(decide (Config.nCtx ≤ uint s.arg0), .config)] = some .config := if_pos (decide_eq_true hd)
  rw [execIntCopy, withReadyCtx_ready ho]
  exact (guarded_stop hfail s _).trans (fail_eq (by decide) s)

/-- Settles O43: the other context, the context itself, or no context as destination. -/
theorem intCopyClones : Obligations.IntCopyClones := by
  refine fun s c o ho => ⟨fun hlt hne => ?other, fun heq => ?itself, execIntCopy_absent ho⟩
  case other =>
    refine (execIntCopy_to ho hlt).trans ?_
    rw [if_neg hne]
    exact succeed_false _
  case itself =>
    refine (execIntCopy_to ho (heq ▸ Bank.get?_eq_some_lt ho)).trans ?_
    rw [if_pos heq, succeed_false]

/-- INT_DESTROY on a READY context is a success that leaves it DESTROYED (R205). -/
theorem execIntDestroy_ready {s : State} {c : BitVec 2} {o : Interp} (ho : s.ctx.get? c.toNat = some (.ready o)) :
    execIntDestroy c s = .next { s with ctx := s.ctx.set c.toNat .destroyed, lastErr := .ok } :=
  (withReadyCtx_ready ho _).trans (succeed_false _)

/-- Settles O44: the context is DESTROYED after the command, and its windows read what R31 and R32 give it. -/
theorem intDestroyEndsObject : Obligations.IntDestroyEndsObject := by
  intro s c o ho
  have hget := Bank.get?_set_same s.ctx Context.destroyed (Bank.get?_eq_some_lt ho)
  refine ⟨_, execIntDestroy_ready ho, rfl, ?info, ?gain⟩
  case info => simp [readPort, readCtx, hget, ctxInfoWord]
  case gain => simp [readPort, readCtx, hget, ctxGainWord]

end Sys2Proof.Machine

/-! INT_EXEC: one Step's outputs row by row, each the scaled dot product of a sub-filter with the new history
(43_interp.md R191 to R196, R202; 44_scaler.md R232). -/

namespace Sys2Proof.Machine

/-! The outputs of a Step -/

/-- A narrowing in plain integers: the shift by F, the clamp, and whether it changes the value (R104). -/
theorem narrow_eq (v : Int) : narrow v = ⟨clamp16 (v / 4096), outside16 (v / 4096)⟩ := by
  have hval : (narrow v).val = clamp16 (v / 4096) := satN_w_val _
  have hclip : (narrow v).clipped = outside16 (v / 4096) := satN_w_clipped _
  rw [← hval, ← hclip]

/-- The output of a sub-filter against one part, I or Q, of an object's history (43_interp.md R194; 44_scaler.md
R232). -/
def rowOutput (o : Interp) (row : List Sample) (part : IQ → Sample) : Clamped where
  val := outputValue o.gain.toInt row (o.hist.map part)
  clipped := outputClips o.gain.toInt row (o.hist.map part)

/-- For at most L_MAX taps the model's dot product, scaled, is that output: only the two narrowings can clamp. -/
theorem dotRef_scale_eq_rowOutput (o : Interp) {row : List Sample} (h : row.length ≤ 256) (part : IQ → Sample) :
    (dotRef row (o.hist.map part)).andThen (scale o.gain.toInt) = rowOutput o row part := by
  rw [dotRef_eq_narrow h, narrow_eq, Clamped.andThen, scale, narrow_eq]
  rfl

/-- A list is its elements in index order. -/
theorem map_getD_range {α : Type} (l : List α) (d : α) : (List.range l.length).map (fun p => l.getD p d) = l := by
  refine List.ext_getElem (by simp) fun p _ hp => ?_
  rw [List.getElem_map, List.getElem_range, List.getD_eq_getElem _ _ hp]

/-- The outputs of a Step are the I and the Q output of each sub-filter, in order (R194, R196). -/
theorem phaseOutputs_eq {o : Interp} (h : o.wf = true) :
    phaseOutputs o = o.sub.flatMap fun row => [rowOutput o row IQ.i, rowOutput o row IQ.q] := by
  obtain ⟨-, -, -, hL, -, hsub, hrows, -⟩ := (Interp.wf_iff o).1 h
  rw [← map_getD_range o.sub [], List.flatMap_map, hsub]
  refine List.flatMap_congr fun p hp => ?_
  have hlt : p < o.sub.length := by rw [hsub]; exact List.mem_range.1 hp
  have hrow : (o.sub.getD p []).length ≤ 256 := by
    rw [List.getD_eq_getElem _ _ hlt, hrows _ (List.getElem_mem hlt)]
    exact hL
  rw [phaseOutput, dotRef_scale_eq_rowOutput o hrow, dotRef_scale_eq_rowOutput o hrow]

/-- Pairs put in a row stand at the even places and the odd ones. -/
theorem getElem?_flatMap_pair {α β : Type} (f g : α → β) (l : List α) (p : Nat) :
    (l.flatMap fun a => [f a, g a])[2 * p]? = l[p]?.map f ∧
      (l.flatMap fun a => [f a, g a])[2 * p + 1]? = l[p]?.map g := by
  induction l generalizing p with
  | nil => simp
  | cons a l ih =>
    cases p with
    | zero => simp
    | succ p => simpa [Nat.mul_add] using ih p

/-- Outputs `2p` and `2p + 1` of a Step are those of sub-filter p (R196). -/
theorem phaseOutputs_getElem? {o : Interp} (h : o.wf = true) {p : Nat} (hp : p < o.M) :
    ∃ row, o.sub[p]? = some row ∧ row ∈ o.sub ∧ (phaseOutputs o)[2 * p]? = some (rowOutput o row IQ.i) ∧
      (phaseOutputs o)[2 * p + 1]? = some (rowOutput o row IQ.q) := by
  obtain ⟨-, -, -, -, -, hsub, -⟩ := (Interp.wf_iff o).1 h
  have hlt : p < o.sub.length := hsub ▸ hp
  have hrow : o.sub[p]? = some o.sub[p] := List.getElem?_eq_getElem hlt
  obtain ⟨hI, hQ⟩ := getElem?_flatMap_pair (rowOutput o · IQ.i) (rowOutput o · IQ.q) o.sub p
  rw [hrow] at hI hQ
  rw [phaseOutputs_eq h]
  exact ⟨_, hrow, List.getElem_mem hlt, hI, hQ⟩

/-- A Step clamps exactly when some sub-filter's output does (R194). -/
theorem phaseOutputs_any_clipped {o : Interp} (h : o.wf = true) :
    (phaseOutputs o).any Clamped.clipped = true ↔
      ∃ row ∈ o.sub, (rowOutput o row IQ.i).clipped = true ∨ (rowOutput o row IQ.q).clipped = true := by
  simp [phaseOutputs_eq h]

/-! The command -/

/-- A sample whose two words are written is pushed, and its outputs are written (R194, R202). -/
theorem runSample_of_readIQ {xa ya : Nat} {r : SampleRun} {x : IQ} (h : r.mem.readIQ xa = .ok x) :
    runSample xa ya r = .ok
      { obj := push r.obj x
        mem := r.mem.writeMany ya ((phaseOutputs (push r.obj x)).map fun y => toSample y.val)
        clipped := r.clipped || (phaseOutputs (push r.obj x)).any Clamped.clipped } := by
  simp only [runSample, h]

/-- The word at place `i` of a Step's output range (R196). -/
theorem read_phaseOutputs {o : Interp} {i : Nat} (m : Memory) (ya : Nat) (hi : i < 2 * o.M) :
    (m.writeMany ya ((phaseOutputs o).map fun y => toSample y.val)).read (ya + i) =
      (phaseOutputs o)[i]?.map fun y => toSample y.val := by
  rw [Memory.read_writeMany_inside _ _ (by rwa [List.length_map, phaseOutputs_length]), List.getElem?_map]

/-- The state that a run of samples leaves: the context, DMEM and SAT of the run, and success (R202, R203). -/
def afterRun (c : BitVec 2) (s : State) (r : SampleRun) : State :=
  { s with ctx := s.ctx.set c.toNat (.ready r.obj), mem := r.mem, sat := s.sat || r.clipped, lastErr := .ok }

theorem finishRun_eq (c : BitVec 2) (s : State) : finishRun c s = fun r => .next (afterRun c s r) :=
  funext fun _ => succeed_eq _ _

/-- INT_EXEC on a READY context with both ranges in DMEM is one sample (R202). -/
theorem execIntExec_inRange {s : State} {c : BitVec 2} {o : Interp} (ho : s.ctx.get? c.toNat = some (.ready o))
    (hx : s.arg0.toNat + 2 ≤ 4096) (hy : s.arg1.toNat + 2 * o.M ≤ 4096) :
    execIntExec c s =
      orFault (runSample s.arg0.toNat s.arg1.toNat ⟨o, s.mem, false⟩) fun r => .next (afterRun c s r) := by
  rw [execIntExec, withReadyCtx_ready ho, ← finishRun_eq]
  exact guarded_pass (by simp [uint, inRange_of_le hx, inRange_of_le hy]) s _

/-- Settles O39: the sample is read and pushed, and each output word and flag is its sub-filter's. -/
theorem intExecComputesPhases : Obligations.IntExecComputesPhases := by
  intro s c o x ho hw hx hy hi hq
  have hread : s.mem.readIQ s.arg0.toNat = .ok x := (Memory.readIQ_ok_iff _ _ _).2 ⟨hi, hq⟩
  obtain ⟨-, -, hL, -, -, -, -, hlen⟩ := (Interp.wf_iff o).1 hw
  have hhist : (push o x).hist = x :: o.hist.dropLast := push_hist x hlen hL
  have hw' : (push o x).wf = true := push_wf x hw
  have hexec := execIntExec_inRange ho hx hy
  rw [runSample_of_readIQ (r := ⟨o, s.mem, false⟩) hread, orFault_ok] at hexec
  refine ⟨_, (push o x).hist, hhist, hexec, rfl, fun p hp => ?outputs, fun a ha => ?frame, ?flag⟩
  case outputs =>
    obtain ⟨row, hrow, -, hI, hQ⟩ := phaseOutputs_getElem? hw' hp
    refine ⟨row, hrow, ?_, ?_⟩
    · exact (read_phaseOutputs (o := push o x) s.mem _ (by rw [push_M]; omega)).trans (congrArg _ hI)
    · exact (read_phaseOutputs (o := push o x) s.mem _ (by rw [push_M]; omega)).trans (congrArg _ hQ)
  case frame =>
    refine Memory.read_writeMany_outside _ _ ?_
    rwa [List.length_map, phaseOutputs_length]
  case flag =>
    simp only [afterRun, Bool.false_or, Bool.or_eq_true, phaseOutputs_any_clipped hw']
    rfl

end Sys2Proof.Machine

/-! INT_EXEC_BLOCK: a run of samples is the sequence of INT_EXEC commands, completes when its input is written, and
changes only its outputs and the history (43_interp.md R203, R206; 60_exceptions.md R255). -/

namespace Sys2Proof.Machine

/-- INT_EXEC_BLOCK on a READY context with both ranges in DMEM is a run of its samples (R203). -/
theorem execIntExecBlock_inRange {s : State} {c : BitVec 2} {o : Interp} (ho : s.ctx.get? c.toNat = some (.ready o))
    (hx : inRange s.arg0.toNat (2 * s.arg2.toNat) = true) (hy : inRange s.arg1.toNat (2 * o.M * s.arg2.toNat) = true) :
    execIntExecBlock c s =
      orFault (runSamples s.arg0.toNat s.arg1.toNat s.arg2.toNat ⟨o, s.mem, false⟩) fun r => .next (afterRun c s r) := by
  rw [execIntExecBlock, withReadyCtx_ready ho, ← finishRun_eq]
  exact guarded_pass (by simp [uint, hx, hy]) s _

/-! A block and its samples one by one -/

/-- Two runs in a row, the second begun without a flag: a clamp in either is a clamp of both. -/
def SampleRun.followedBy (r r' : SampleRun) : SampleRun := { r' with clipped := r.clipped || r'.clipped }

/-- A sample does the same whatever clamped before it. -/
theorem runSample_followedBy (xa ya : Nat) (r : SampleRun) :
    runSample xa ya r = (runSample xa ya ⟨r.obj, r.mem, false⟩).map r.followedBy := by
  unfold runSample
  cases r.mem.readIQ xa <;> rfl

/-- The operands that the sequence of R206 writes before an INT_EXEC. -/
def withOperands (xa ya : Nat) (s : State) : State := (s.setArg0 (BitVec.ofNat 32 xa)).setArg1 (BitVec.ofNat 32 ya)

theorem execEach_of_next {c : BitVec 2} {M xa ya : Nat} {s t : State} (k : Nat)
    (h : exec (.intExec c) (withOperands xa ya s) = .next t) :
    execEach c M xa ya (k + 1) s = execEach c M (xa + 2) (ya + 2 * M) k t := by
  rw [withOperands] at h
  simp only [execEach, h]

theorem execEach_of_fault {c : BitVec 2} {M xa ya : Nat} {s : State} {e : Fault} (k : Nat)
    (h : exec (.intExec c) (withOperands xa ya s) = .fault e) : execEach c M xa ya (k + 1) s = .fault e := by
  rw [withOperands] at h
  simp only [execEach, h]

/-- INT_EXEC with the operands of one round is one sample (R202, R206). -/
theorem exec_intExec_withOperands {s : State} {c : BitVec 2} {o : Interp} {xa ya : Nat}
    (ho : s.ctx.get? c.toNat = some (.ready o)) (hx : xa + 2 ≤ 4096) (hy : ya + 2 * o.M ≤ 4096) :
    exec (.intExec c) (withOperands xa ya s) =
      orFault (runSample xa ya ⟨o, s.mem, false⟩) fun r => .next (withOperands xa ya (afterRun c s r)) := by
  have hxa : (withOperands xa ya s).arg0.toNat = xa :=
    (BitVec.toNat_ofNat ..).trans (Nat.mod_eq_of_lt (by omega))
  have hya : (withOperands xa ya s).arg1.toNat = ya :=
    (BitVec.toNat_ofNat ..).trans (Nat.mod_eq_of_lt (by omega))
  have hexec := execIntExec_inRange (s := withOperands xa ya s) ho (by omega) (by omega)
  rwa [hxa, hya] at hexec

/-- One round of the sequence of R206 is one sample. -/
theorem execEach_succ {s : State} {c : BitVec 2} {o : Interp} {xa ya : Nat} (k : Nat)
    (ho : s.ctx.get? c.toNat = some (.ready o)) (hx : xa + 2 ≤ 4096) (hy : ya + 2 * o.M ≤ 4096) :
    execEach c o.M xa ya (k + 1) s =
      orFault (runSample xa ya ⟨o, s.mem, false⟩) fun r =>
        execEach c o.M (xa + 2) (ya + 2 * o.M) k (withOperands xa ya (afterRun c s r)) := by
  have hexec := exec_intExec_withOperands ho hx hy
  cases hr : runSample xa ya ⟨o, s.mem, false⟩ with
  | error i =>
    rw [hr] at hexec
    exact execEach_of_fault k hexec
  | ok r =>
    rw [hr] at hexec
    exact execEach_of_next k hexec

/-- A sample after a run leaves what the two together leave. -/
theorem afterRun_withOperands (c : BitVec 2) (s : State) (xa ya xa' ya' : Nat) (r r' : SampleRun) :
    withOperands xa' ya' (afterRun c (withOperands xa ya (afterRun c s r)) r') =
      withOperands xa' ya' (afterRun c s (r.followedBy r')) := by
  simp [afterRun, withOperands, State.setArg0, State.setArg1, SampleRun.followedBy, Bank.set_set, Bool.or_assoc]

/-- The rest of the sequence of R206 after a run is the rest of the block (R203). -/
theorem execEach_afterRun {s : State} {c : BitVec 2} (hc : c.toNat < 2) {k xa ya xa0 ya0 : Nat} {r : SampleRun}
    (hx : xa + 2 * k ≤ 4096) (hy : ya + 2 * r.obj.M * k ≤ 4096) :
    mapNext (fun t => { t with arg0 := s.arg0, arg1 := s.arg1 })
        (execEach c r.obj.M xa ya k (withOperands xa0 ya0 (afterRun c s r))) =
      orFault (runSamples xa ya k r) fun r' => .next (afterRun c s r') := by
  induction k generalizing xa ya xa0 ya0 r with
  | zero => rfl
  | succ k ih =>
    rw [Nat.mul_succ] at hy
    have ho : (withOperands xa0 ya0 (afterRun c s r)).ctx.get? c.toNat = some (.ready r.obj) :=
      Bank.get?_set_same s.ctx _ hc
    rw [execEach_succ k ho (by omega) (by omega), runSamples, runSample_followedBy xa ya r]
    change mapNext _ (orFault (runSample xa ya ⟨r.obj, r.mem, false⟩) _) = _
    cases hr : runSample xa ya ⟨r.obj, r.mem, false⟩ with
    | error i => rfl
    | ok r' =>
      obtain ⟨x, -, hobj, -, -⟩ := runSample_ok hr
      have hM : (r.followedBy r').obj.M = r.obj.M := by simp [SampleRun.followedBy, hobj]
      have hrest := ih (xa := xa + 2) (ya := ya + 2 * r.obj.M) (xa0 := xa) (ya0 := ya) (r := r.followedBy r')
        (by omega) (by rw [hM]; omega)
      rw [hM] at hrest
      rw [orFault_ok, afterRun_withOperands]
      exact hrest

/-- Settles O40: the first INT_EXEC is the block's first sample, and the rest follows it. -/
theorem blockEqualsRepeatedExec : Obligations.BlockEqualsRepeatedExec := by
  intro s c o ho hk hx hy
  refine (execIntExecBlock_inRange ho (inRange_of_le hx) (inRange_of_le hy)).trans ?_
  obtain ⟨k, hk'⟩ := Nat.exists_eq_succ_of_ne_zero (Nat.ne_of_gt hk)
  rw [hk', Nat.succ_eq_add_one] at hx hy ⊢
  rw [Nat.mul_succ] at hy
  rw [execEach_succ k ho (by omega) (by omega), runSamples]
  cases hr : runSample s.arg0.toNat s.arg1.toNat ⟨o, s.mem, false⟩ with
  | error i => rfl
  | ok r =>
    obtain ⟨x, -, hobj, -, -⟩ := runSample_ok hr
    have hM : r.obj.M = o.M := by simp [hobj]
    have hrest := execEach_afterRun (s := s) (Bank.get?_eq_some_lt ho) (k := k) (xa := s.arg0.toNat + 2)
      (ya := s.arg1.toNat + 2 * o.M) (xa0 := s.arg0.toNat) (ya0 := s.arg1.toNat) (r := r)
      (by omega) (by rw [hM]; omega)
    rw [hM] at hrest
    exact hrest.symm

/-! Completion and frame -/

/-- Writing back what an element holds changes nothing. -/
theorem Bank.set_of_get? {α : Type} {b : Bank α} {i : Nat} {x : α} (h : b.get? i = some x) : b.set i x = b := by
  match i with
  | 0 => cases h; rfl
  | 1 => cases h; rfl
  | _ + 2 => cases h

/-- A run whose input words are all written completes (20_memory.md R56; 43_interp.md R203). -/
theorem runSamples_completes {k xa ya : Nat} {r : SampleRun}
    (h : ∀ a, xa ≤ a → a < xa + 2 * k → r.mem.read a ≠ none) : ∃ r', runSamples xa ya k r = .ok r' := by
  cases hr : runSamples xa ya k r with
  | ok r' => exact ⟨r', rfl⟩
  | error i =>
    obtain ⟨hlo, hhi, hnone⟩ := runSamples_error hr
    exact absurd hnone (h i hlo hhi)

/-- An empty run leaves everything, and its command changes LAST_ERR only. -/
theorem afterRun_empty {s : State} {c : BitVec 2} {o : Interp} {xa ya : Nat} {r : SampleRun}
    (ho : s.ctx.get? c.toNat = some (.ready o)) (hr : runSamples xa ya 0 ⟨o, s.mem, false⟩ = .ok r) :
    afterRun c s r = { s with lastErr := .ok } := by
  cases hr
  simp [afterRun, Bank.set_of_get? ho]

/-- Settles O41: the run completes, and what it keeps of the object and of DMEM is what the command keeps. -/
theorem blockCompletesAndFrames : Obligations.BlockCompletesAndFrames := by
  intro s c o ho hx hy hread
  have hexec := execIntExecBlock_inRange ho ((inRange_iff _ _).2 (hx.imp_left (by omega))) ((inRange_iff _ _).2 hy)
  obtain ⟨r, hr⟩ := runSamples_completes (ya := s.arg1.toNat) (r := ⟨o, s.mem, false⟩) hread
  rw [hr, orFault_ok] at hexec
  obtain ⟨hist, hobj⟩ := runSamples_obj hr
  refine ⟨afterRun c s r, hist, hexec, ?state, fun a ha => runSamples_frame hr ha, fun h0 => ?empty⟩
  case state => simp [afterRun, hobj]
  case empty =>
    rw [h0] at hr
    exact afterRun_empty ho hr

end Sys2Proof.Machine

/-! The impulse response: what a block writes when its input and output lie apart, and its outputs for the input 1.0
followed by zeros (43_interp.md R190, R203, R208; 44_scaler.md R235). -/

namespace Sys2Proof.Machine

/-! A block with its input and output apart -/

theorem Memory.readIQ_congr {m m' : Memory} {a : Nat} (hI : m'.read a = m.read a)
    (hQ : m'.read (a + 1) = m.read (a + 1)) : m'.readIQ a = m.readIQ a := by
  simp only [Memory.readIQ, hI, hQ]

/-- One sample leaves the samples that lie outside its outputs. -/
theorem runSample_keeps_readIQ {xa ya a : Nat} {r r' : SampleRun} (h : runSample xa ya r = .ok r')
    (ha : a + 2 ≤ ya ∨ ya + 2 * r.obj.M ≤ a) : r'.mem.readIQ a = r.mem.readIQ a :=
  Memory.readIQ_congr (runSample_frame h (by omega)) (runSample_frame h (by omega))

/-- The object after the samples `xs` are pushed, the first of them first (R193, R203). -/
def pushAll (o : Interp) (xs : List IQ) : Interp := xs.foldl push o

@[simp] theorem pushAll_nil (o : Interp) : pushAll o [] = o := rfl

@[simp] theorem pushAll_cons (o : Interp) (x : IQ) (xs : List IQ) : pushAll o (x :: xs) = pushAll (push o x) xs := rfl

theorem pushAll_concat (o : Interp) (xs : List IQ) (x : IQ) : pushAll o (xs ++ [x]) = push (pushAll o xs) x :=
  List.foldl_concat ..

/-- A block whose outputs lie apart from its input reads the samples `xs` that stand in DMEM at its start. Sample j's
outputs are those of the history after the first `j + 1` samples, and without a clamp among them no flag is set
(R203). -/
theorem runSamples_apart {xs : List IQ} {xa ya : Nat} {r : SampleRun}
    (hread : ∀ j x, xs[j]? = some x → r.mem.readIQ (xa + 2 * j) = .ok x)
    (hapart : xa + 2 * xs.length ≤ ya ∨ ya + 2 * r.obj.M * xs.length ≤ xa) :
    ∃ r', runSamples xa ya xs.length r = .ok r' ∧
      (∀ j < xs.length, ∀ i < 2 * r.obj.M, r'.mem.read (ya + 2 * r.obj.M * j + i) =
        (phaseOutputs (pushAll r.obj (xs.take (j + 1))))[i]?.map fun y => toSample y.val) ∧
      ((∀ j < xs.length, (phaseOutputs (pushAll r.obj (xs.take (j + 1)))).any Clamped.clipped = false) →
        r'.clipped = r.clipped) := by
  induction xs generalizing xa ya r with
  | nil => exact ⟨r, rfl, by simp, fun _ => rfl⟩
  | cons x xs ih =>
    rw [List.length_cons, Nat.mul_succ, Nat.mul_succ] at hapart
    have hstep := runSample_of_readIQ (xa := xa) (ya := ya) (hread 0 x rfl)
    set r1 : SampleRun := ⟨push r.obj x, _, _⟩ with hr1
    obtain ⟨r', hrun, hout, hclip⟩ := ih (xa := xa + 2) (ya := ya + 2 * r.obj.M) (r := r1)
      (fun j y hy => by
        have hj : j < xs.length := (List.getElem?_eq_some_iff.1 hy).1
        have hpos : xa + 2 + 2 * j = xa + 2 * (j + 1) := by omega
        rw [hpos, runSample_keeps_readIQ hstep (by omega)]
        exact hread (j + 1) y hy)
      (by rw [hr1, push_M]; omega)
    refine ⟨r', ?run, fun j hj i hi => ?outputs, fun hnone => ?flag⟩
    case run =>
      rw [List.length_cons, runSamples, hstep]
      exact hrun
    case outputs =>
      cases j with
      | zero =>
        rw [Nat.mul_zero, Nat.add_zero, runSamples_frame hrun (by omega)]
        exact read_phaseOutputs (o := push r.obj x) r.mem ya hi
      | succ j =>
        have hpos : ya + 2 * r.obj.M * (j + 1) + i = ya + 2 * r.obj.M + 2 * r.obj.M * j + i := by
          rw [Nat.mul_succ]; omega
        rw [hpos]
        exact hout j (Nat.lt_of_succ_lt_succ hj) i hi
    case flag =>
      have hfirst := hnone 0 (Nat.succ_pos _)
      rw [hclip fun j hj => hnone (j + 1) (Nat.succ_lt_succ hj)]
      exact (congrArg (r.clipped || ·) hfirst).trans (Bool.or_false _)

theorem pushAll_wf {o : Interp} (xs : List IQ) (h : o.wf = true) : (pushAll o xs).wf = true := by
  induction xs generalizing o with
  | nil => exact h
  | cons x xs ih => exact ih (push_wf x h)

/-! The impulse in the history -/

/-- The sample 1.0. -/
def impulse : IQ := ⟨0x1000, 0⟩

/-- The zero sample. -/
def silence : IQ := ⟨0, 0⟩

/-- The history of L samples with the impulse `j` samples back, and zeros around it. -/
def impulseHist (L j : Nat) : List IQ := (List.replicate j silence ++ impulse :: List.replicate L silence).take L

/-- A sample in front of the newest L samples pushes the same out as in front of all of them. -/
theorem take_cons_take {α : Type} (L : Nat) (x : α) (xs : List α) : (x :: xs.take L).take L = (x :: xs).take L := by
  cases L with
  | zero => rfl
  | succ L => rw [List.take_succ_cons, List.take_succ_cons, List.take_take, Nat.min_eq_left (Nat.le_succ L)]

/-- Into a zero history, the impulse and `j` zero samples (R193). -/
theorem pushAll_impulse {o : Interp} (h : o.hist = List.replicate o.L silence) (j : Nat) :
    pushAll o (impulse :: List.replicate j silence) = { o with hist := impulseHist o.L j } := by
  induction j with
  | zero => simp [push, impulseHist, h]
  | succ j ih =>
    rw [List.replicate_succ', ← List.cons_append, pushAll_concat, ih, push, impulseHist, take_cons_take]
    rfl

/-! The dot product with an impulse -/

theorem dotSum_cons (a x : Sample) (h xs : List Sample) :
    dotSum (a :: h) (x :: xs) = a.toInt * x.toInt + dotSum h xs := rfl

theorem dotSum_cons_zero (a : Sample) (h xs : List Sample) : dotSum (a :: h) ((0 : Sample) :: xs) = dotSum h xs := by
  rw [dotSum_cons, show (0 : Sample).toInt = 0 from rfl, Int.mul_zero, Int.zero_add]

/-- Only as many samples as there are taps count. -/
theorem dotSum_take {h : List Sample} {L : Nat} (hL : h.length = L) (xs : List Sample) :
    dotSum h (xs.take L) = dotSum h xs := by
  subst hL
  induction h generalizing xs with
  | nil => rfl
  | cons a h ih =>
    cases xs with
    | nil => rfl
    | cons x xs => rw [List.length_cons, List.take_succ_cons, dotSum_cons, ih, dotSum_cons]

theorem dotSum_zeros (h : List Sample) (n : Nat) : dotSum h (List.replicate n (0 : Sample)) = 0 := by
  induction h generalizing n with
  | nil => rfl
  | cons a h ih =>
    cases n with
    | zero => rfl
    | succ n => rw [List.replicate_succ, dotSum_cons_zero, ih]

/-- One nonzero sample picks the tap it stands against. -/
theorem dotSum_impulse (h : List Sample) (j n : Nat) (x : Sample) :
    dotSum h (List.replicate j (0 : Sample) ++ x :: List.replicate n (0 : Sample)) =
      (h[j]?.getD 0).toInt * x.toInt := by
  induction h generalizing j with
  | nil => simp [dotSum]
  | cons a h ih =>
    cases j with
    | zero =>
      rw [List.replicate_zero, List.nil_append, dotSum_cons, dotSum_zeros, Int.add_zero]
      rfl
    | succ j =>
      rw [List.replicate_succ, List.cons_append, dotSum_cons_zero, ih]
      rfl

theorem dotSum_impulseHist {row : List Sample} {L : Nat} (hL : row.length = L) (j : Nat) {part : IQ → Sample}
    (h0 : part silence = 0) :
    dotSum row ((impulseHist L j).map part) = (row[j]?.getD 0).toInt * (part impulse).toInt := by
  rw [impulseHist, List.map_take, dotSum_take hL, List.map_append, List.map_cons, List.map_replicate,
    List.map_replicate, h0, dotSum_impulse]

/-- With the gain 1.0 a dot product that is a W-bit value times 1.0 comes out as that value (44_scaler.md R235). -/
theorem rowOutput_unitGain {o : Interp} {row : List Sample} {part : IQ → Sample} {v : Int} (hg : o.gain = 0x1000)
    (hv : dotSum row (o.hist.map part) = v * 4096) (lo : -32768 ≤ v) (hi : v ≤ 32767) :
    rowOutput o row part = ⟨v, false⟩ := by
  obtain ⟨hclamp, hin⟩ := clamp16_of_range lo hi
  have hgain : o.gain.toInt = 4096 := by rw [hg]; rfl
  have hshift : v * 4096 / 4096 = v := Int.mul_ediv_cancel v (by decide)
  have hscale : 4096 * v / 4096 = v := Int.mul_ediv_cancel_left v (by decide)
  simp only [rowOutput, outputValue, outputClips, hgain, hv, hshift, hclamp, hscale, hin, Bool.or_self]

/-! The impulse response -/

/-- Against the impulse `j` samples back, the I output is tap `j`, or 0 past the last tap (R208). -/
theorem rowOutput_impulse_i {o : Interp} {row : List Sample} (hg : o.gain = 0x1000) (hL : row.length = o.L)
    (j : Nat) :
    rowOutput { o with hist := impulseHist o.L j } row IQ.i = ⟨(row[j]?.getD 0).toInt, false⟩ := by
  obtain ⟨lo, hi⟩ := sample_range (row[j]?.getD 0)
  exact rowOutput_unitGain hg (dotSum_impulseHist hL j rfl) lo hi

/-- Against the impulse the Q output is 0 (R208). -/
theorem rowOutput_impulse_q {o : Interp} {row : List Sample} (hg : o.gain = 0x1000) (hL : row.length = o.L)
    (j : Nat) : rowOutput { o with hist := impulseHist o.L j } row IQ.q = ⟨0, false⟩ :=
  rowOutput_unitGain hg ((dotSum_impulseHist hL j rfl).trans (Int.mul_zero _)) (by decide) (by decide)

/-- A Step of a unit-gain bank against the impulse puts tap `j` of each phase out, and clamps nothing (R208). -/
theorem phaseOutputs_impulse {o : Interp} {j : Nat} (hg : o.gain = 0x1000)
    (hw : ({ o with hist := impulseHist o.L j } : Interp).wf = true) :
    (phaseOutputs { o with hist := impulseHist o.L j }).any Clamped.clipped = false ∧
    ∀ p < o.M, ∃ row, o.sub[p]? = some row ∧
      (phaseOutputs { o with hist := impulseHist o.L j })[2 * p]? = some ⟨(row[j]?.getD 0).toInt, false⟩ ∧
      (phaseOutputs { o with hist := impulseHist o.L j })[2 * p + 1]? = some ⟨0, false⟩ := by
  obtain ⟨-, -, -, -, -, -, hrows, -⟩ := (Interp.wf_iff _).1 hw
  refine ⟨?flag, fun p hp => ?outputs⟩
  case flag =>
    rw [Bool.eq_false_iff, ne_eq, phaseOutputs_any_clipped hw]
    rintro ⟨row, hrow, hclip | hclip⟩
    · rw [rowOutput_impulse_i hg (hrows row hrow)] at hclip
      cases hclip
    · rw [rowOutput_impulse_q hg (hrows row hrow)] at hclip
      cases hclip
  case outputs =>
    obtain ⟨row, hget, hrow, hI, hQ⟩ := phaseOutputs_getElem? hw hp
    rw [rowOutput_impulse_i hg (hrows row hrow)] at hI
    rw [rowOutput_impulse_q hg (hrows row hrow)] at hQ
    exact ⟨row, hget, hI, hQ⟩

/-- The input of R208: the impulse, then zeros. -/
def impulseInput (k : Nat) : List IQ := impulse :: List.replicate (k - 1) silence

theorem impulseInput_length {k : Nat} (hk : 1 ≤ k) : (impulseInput k).length = k := by
  rw [impulseInput, List.length_cons, List.length_replicate, Nat.sub_add_cancel hk]

theorem impulseInput_take {k j : Nat} (hj : j < k) :
    (impulseInput k).take (j + 1) = impulse :: List.replicate j silence := by
  rw [impulseInput, List.take_succ_cons, List.take_replicate, Nat.min_eq_left (by omega)]

/-- The samples of R208 as they stand in DMEM. -/
theorem readIQ_impulseInput {m : Memory} {xa k j : Nat} {x : IQ} (hk : 1 ≤ k) (h0 : m.read xa = some 0x1000)
    (hzero : ∀ a, xa < a → a < xa + 2 * k → m.read a = some 0) (hx : (impulseInput k)[j]? = some x) :
    m.readIQ (xa + 2 * j) = .ok x := by
  rw [Memory.readIQ_ok_iff]
  cases j with
  | zero =>
    cases hx
    exact ⟨h0, hzero _ (by omega) (by omega)⟩
  | succ j =>
    rw [impulseInput, List.getElem?_cons_succ, List.getElem?_replicate, Option.ite_none_right_eq_some] at hx
    obtain ⟨hj, hx⟩ := hx
    cases hx
    exact ⟨hzero _ (by omega) (by omega), hzero _ (by omega) (by omega)⟩

/-- Settles O42: sample j's outputs are those of the history with the impulse `j` samples back. -/
theorem impulseResponseIsTheTaps : Obligations.ImpulseResponseIsTheTaps := by
  intro s c o ho hw hhist hg hk hx hy hapart h0 hzero
  have hlen := impulseInput_length hk
  obtain ⟨r, hrun, hout, hclip⟩ := runSamples_apart (xs := impulseInput s.arg2.toNat) (xa := s.arg0.toNat)
    (ya := s.arg1.toNat) (r := ⟨o, s.mem, false⟩) (fun j x hxj => readIQ_impulseInput hk h0 hzero hxj)
    (by rwa [hlen])
  rw [hlen] at hrun hout hclip
  have hexec := execIntExecBlock_inRange ho (inRange_of_le hx) (inRange_of_le hy)
  rw [hrun, orFault_ok] at hexec
  have hpushed (j : Nat) (hj : j < s.arg2.toNat) :
      pushAll o ((impulseInput s.arg2.toNat).take (j + 1)) = { o with hist := impulseHist o.L j } := by
    rw [impulseInput_take hj, pushAll_impulse hhist]
  have hstep (j : Nat) (hj : j < s.arg2.toNat) :=
    phaseOutputs_impulse (j := j) hg (hpushed j hj ▸ pushAll_wf _ hw)
  refine ⟨_, hexec, rfl, ?flag, fun j hj p hp => ?outputs⟩
  case flag =>
    have hnone := hclip fun j hj => by rw [hpushed j hj]; exact (hstep j hj).1
    exact (congrArg (s.sat || ·) hnone).trans (Bool.or_false _)
  case outputs =>
    obtain ⟨row, hrow, hI, hQ⟩ := (hstep j hj).2 p hp
    refine ⟨row, hrow, (hout j hj (2 * p) (by dsimp only; omega)).trans ?_,
      (hout j hj (2 * p + 1) (by dsimp only; omega)).trans ?_⟩
    · rw [hpushed j hj, hI, Option.map_some, toSample_of_toInt]
    · rw [hpushed j hj, hQ]
      rfl

end Sys2Proof.Machine

/-! The output scaler: INT_SET_SCALE and its read-back (44_scaler.md R233, R237). -/

namespace Sys2Proof.Machine

/-- INT_SET_SCALE on a READY context is a success that stores `Q(ARG0)` as its gain (R233). -/
theorem execIntSetScale_ready {s : State} {c : BitVec 2} {o : Interp} (ho : s.ctx.get? c.toNat = some (.ready o)) :
    execIntSetScale c s = .next { s with
      ctx := s.ctx.set c.toNat (.ready { o with gain := qWord s.arg0 }), lastErr := .ok } :=
  (withReadyCtx_ready ho _).trans (succeed_false _)

/-- The word of INT_SET_SCALE (30_encoding.md R73). -/
theorem decode_intSetScale {c : BitVec 2} (hc : c.toNat < 2) :
    decode (BitVec.ofNat 32 (0x26000000 + c.toNat)) = .ok (.intSetScale c) := by
  revert c
  decide

/-- Settles O45: the word decodes, and the command finds an object whose gain it sets or finds none. -/
theorem setScaleStoresGain : Obligations.SetScaleStoresGain := by
  refine fun s c hc => ⟨decode_intSetScale hc, fun o ho => ?ready, fun h => withReadyCtx_not_ready hc h _⟩
  case ready =>
    rw [ofInt_low16]
    exact execIntSetScale_ready ho

/-- CTX_GAIN stands at a multiple of 4 (10_state.md R32). -/
theorem ctxGainOffset_aligned (c : Nat) : (BitVec.ofNat 17 (0x104 + 0x10 * c)).toNat % 4 = 0 := by
  rw [BitVec.toNat_ofNat]
  omega

/-- A host read of CTX_GAIN of a READY context returns the gain's sign extension (R237). -/
theorem step_read_ctxGain {s : State} {c : Nat} {o : Interp} {es : List HostEvent}
    (ho : s.ctx.get? c = some (.ready o))
    (h : s.pending = .read (BitVec.ofNat 17 (0x104 + 0x10 * c)) 32 :: es) :
    step s = .next { s with pending := es, reads := BitVec.ofInt 32 o.gain.toInt :: s.reads } :=
  step_read_ok h (ctxGainOffset_aligned c) (readPort_ctxGain ho)

/-- A host write of INT_SET_SCALE to CMD stores the gain of a READY context (R233; 30_encoding.md R70). -/
theorem step_issue_intSetScale {s : State} {c : BitVec 2} {o : Interp} {es : List HostEvent}
    (ho : s.ctx.get? c.toNat = some (.ready o))
    (h : s.pending = .write 0x01C 32 (BitVec.ofNat 32 (0x26000000 + c.toNat)) :: es) :
    step s = .next { s with
      cmd := BitVec.ofNat 32 (0x26000000 + c.toNat), pending := es
      ctx := s.ctx.set c.toNat (.ready { o with gain := qWord s.arg0 }), lastErr := .ok } := by
  rw [step_issue h, issue_ok (decode_intSetScale (Bank.get?_eq_some_lt ho))]
  exact execIntSetScale_ready ho

/-- Settles O46: the write stores the gain, and the read finds the context READY with it. -/
theorem gainReadsBack : Obligations.GainReadsBack := by
  intro s c o es ho h
  have hget := Bank.get?_set_same s.ctx (.ready { o with gain := qWord s.arg0 }) (Bank.get?_eq_some_lt ho)
  exact ⟨_, (run_succ (step_issue_intSetScale ho h)).trans (run_succ (step_read_ctxGain hget rfl)), rfl, rfl⟩

end Sys2Proof.Machine

/-! The scaling function: gains 1.0 and 0, and how far scaling twice is from scaling by the product (44_scaler.md R232,
R234, R235, R238). -/

namespace Sys2Proof.Machine

/-- A scaling whose shifted product is in range is that value, without a clamp (R232). -/
theorem scale_of_range {g d v : Int} (h : g * d / 4096 = v) (lo : -32768 ≤ v) (hi : v ≤ 32767) :
    scale g d = ⟨v, false⟩ := by
  obtain ⟨hclamp, hin⟩ := clamp16_of_range lo hi
  rw [scale, narrow_eq, h, hclamp, hin]

/-- A scaling that does not clamp is the shifted product (R232). -/
theorem scale_val_of_not_clipped {g d : Int} (h : (scale g d).clipped = false) : (scale g d).val = g * d / 4096 := by
  rw [scale, narrow_clipped, decide_eq_false_iff_not] at h
  rw [scale, narrow_val]
  omega

/-- Settles O47: the shifted products are `d` and 0, which are W-bit values. -/
theorem unitAndZeroGain : Obligations.UnitAndZeroGain := by
  intro d
  obtain ⟨lo, hi⟩ := sample_range d
  have hunit : 4096 * d.toInt / 4096 = d.toInt := Int.mul_ediv_cancel_left _ (by decide)
  have hzero : 0 * d.toInt / 4096 = 0 := by rw [Int.zero_mul, Int.zero_ediv]
  exact ⟨scale_of_range hunit lo hi, scale_of_range hzero (by decide) (by decide)⟩

/-- What the inner truncation loses, `g1 * d mod 4096`, reaches the outer product as at most `|g2|` (R238). -/
theorem abs_product_truncation_le {g1 g2 g12 d : Int} (h : g12 * 4096 = g1 * g2) :
    |g12 * d - g2 * (g1 * d / 4096)| ≤ |g2| := by
  have hlost : g1 * d = 4096 * (g1 * d / 4096) + g1 * d % 4096 := (Int.mul_ediv_add_emod _ _).symm
  have herr : (g12 * d - g2 * (g1 * d / 4096)) * 4096 = g2 * (g1 * d % 4096) := by
    linear_combination d * h + g2 * hlost
  have hmod : |g1 * d % 4096| ≤ 4096 := by
    rw [abs_le]
    omega
  refine le_of_mul_le_mul_right ?_ (show (0 : Int) < 4096 by decide)
  calc |g12 * d - g2 * (g1 * d / 4096)| * 4096
      = |g2| * |g1 * d % 4096| := by rw [← abs_mul, ← herr, abs_mul, Nat.abs_ofNat]
    _ ≤ |g2| * 4096 := mul_le_mul_of_nonneg_left hmod (abs_nonneg g2)

/-- Numbers at most `b` apart have floors by 4096 at most `ceil(b / 4096)` apart. -/
theorem abs_ediv_sub_ediv_le {p q b : Int} (h : |p - q| ≤ b) : |p / 4096 - q / 4096| ≤ ⌈(b : ℚ) / 4096⌉ := by
  have hceil : b ≤ ⌈(b : ℚ) / 4096⌉ * 4096 := by
    have hle := Int.le_ceil ((b : ℚ) / 4096)
    rw [div_le_iff₀ (by norm_num)] at hle
    exact_mod_cast hle
  rw [abs_le] at h ⊢
  omega

/-- Settles O48: without a clamp each scaling is a shifted product, and the two outer products are at most `|g2|`
apart; with g1 = 1.0 they are the same. -/
theorem scaleLinearityBound : Obligations.ScaleLinearityBound := by
  intro g1 g2 g12 d h h12 h1 h2
  rw [scale_val_of_not_clipped h12, scale_val_of_not_clipped h2, scale_val_of_not_clipped h1]
  refine ⟨?bound, fun hg1 => ?unit⟩
  case bound => exact_mod_cast abs_ediv_sub_ediv_le (abs_product_truncation_le h)
  case unit =>
    subst hg1
    have hg : g12 = g2 := by omega
    rw [hg, Int.mul_ediv_cancel_left d (by decide)]

end Sys2Proof.Machine

/-! Errors, the sticky flags and the interrupt: an error is all-or-nothing, no command clears ERR or SAT, a command
without its READY object ends with MISUSE, and irq follows the sticky bits and their enables (60_exceptions.md R251 to
R254, R260; 10_state.md R25 to R28, R40). -/

namespace Sys2Proof.Machine

/-! Errors are all-or-nothing -/

/-- Ending with an error sets LAST_ERR and ERR and nothing else (R252, R254). -/
theorem State.finish_of_error {code : ErrCode} (h : code ≠ .ok) (s : State) :
    s.finish code = { s with lastErr := code, err := true } :=
  Host.Outcome.next.inj (fail_eq h s)

/-- A command whose LAST_ERR is an error changed LAST_ERR and ERR only, since a success ends with OK (R254). -/
theorem exec_changes_of_error {i : Instr} {s t : State} (h : exec i s = .next t) (he : t.lastErr ≠ .ok) :
    t = { s with lastErr := t.lastErr, err := true } := by
  rcases exec_ends i s t h with ⟨code, hcode, rfl⟩ | ⟨u, b, -, rfl⟩
  · exact State.finish_of_error hcode s
  · exact absurd rfl he

/-- An issued word that ends with an error, decoded or not, changed CMD, LAST_ERR and ERR only (R254). -/
theorem issue_changes_of_error {v : Word32} {s t : State} (h : issue v s = .next t) (he : t.lastErr ≠ .ok) :
    t = { s with cmd := v, lastErr := t.lastErr, err := true } := by
  cases hd : decode v with
  | ok i =>
    rw [issue_ok hd] at h
    exact exec_changes_of_error h he
  | error e =>
    rw [issue_error hd] at h
    cases h
    exact State.finish_of_error (by decide) _

/-- Settles O20: the command alone, and the issued word on the state without the host's write. -/
theorem errorsAreAllOrNothing : Obligations.ErrorsAreAllOrNothing := by
  refine ⟨fun _ _ _ => exec_changes_of_error, fun s t v es hp h he => ?_⟩
  rw [step_issue hp] at h
  exact issue_changes_of_error h he

/-! Sticky flags -/

/-- No effect writes ERR or SAT; the end of the command does (R252). -/
theorem Effect.keeps_sticky_flags {s u : State} {i : Instr} (h : Effect s i u) : u.err = s.err ∧ u.sat = s.sat := by
  cases h <;> simp

/-- Settles O21: an error sets ERR and leaves SAT, and a success leaves ERR and can only set SAT. -/
theorem completionKeepsStickyFlags : Obligations.CompletionKeepsStickyFlags := by
  intro i s t h
  rcases exec_ends i s t h with ⟨code, hcode, rfl⟩ | ⟨u, b, heff, rfl⟩
  · exact ⟨by simp [hcode], id⟩
  · obtain ⟨herr, hsat⟩ := heff.keeps_sticky_flags
    exact ⟨by simp [herr], fun hs => by simp [hsat, hs]⟩

/-! MISUSE -/

/-- Settles O23: each of the commands looks its object up before anything else. -/
theorem misuseWhenNotReady : Obligations.MisuseWhenNotReady := by
  refine ⟨fun s c hc hready i hi => ?context, fun s k hempty i hi => ?slot⟩ <;>
    simp only [List.mem_cons, List.not_mem_nil, or_false] at hi
  case context =>
    rcases hi with rfl | rfl | rfl | rfl | rfl | rfl
    all_goals exact withReadyCtx_not_ready hc hready _
  case slot =>
    rcases hi with rfl | rfl | rfl
    all_goals exact withReadySlot_empty hempty _

/-! The interrupt -/

/-- irq is asserted when a sticky bit and its enable are 1 (R260; 10_state.md R40). -/
theorem irq_eq_true_iff (s : State) :
    irq s = true ↔ s.err = true ∧ s.errIe = true ∨ s.sat = true ∧ s.satIe = true := by
  simp [irq]

/-- irq is not asserted when of each sticky bit and its enable one is 0. -/
theorem irq_eq_false_iff (s : State) :
    irq s = false ↔ (s.err = false ∨ s.errIe = false) ∧ (s.sat = false ∨ s.satIe = false) := by
  simp only [irq, Bool.or_eq_false_iff, Bool.and_eq_false_iff]

/-- No command changes the interrupt enables (10_state.md R25). -/
theorem exec_keeps_enables {i : Instr} {s t : State} (h : exec i s = .next t) :
    t.errIe = s.errIe ∧ t.satIe = s.satIe := by
  obtain ⟨-, -, -, herrIe, hsatIe, -⟩ := commandsKeepHostRegisters i s t h
  exact ⟨herrIe, hsatIe⟩

/-- A command whose LAST_ERR is an error leaves ERR 1 (R252). -/
theorem exec_sets_err {i : Instr} {s t : State} (h : exec i s = .next t) (he : t.lastErr ≠ .ok) : t.err = true := by
  rw [exec_changes_of_error h he]

/-- A host write of STATUS clears the sticky bits whose data bit is 1 (10_state.md R27). -/
theorem step_write_status {s : State} {v : Word32} {es : List HostEvent} (h : s.pending = .write 0x018 32 v :: es) :
    step s = .next ((s.setPending es).writeStatus v) := by
  rw [step_write h (by decide)]
  rfl

/-- A host write of CTRL stores the two enables (10_state.md R25). -/
theorem step_write_ctrl {s : State} {v : Word32} {es : List HostEvent} (h : s.pending = .write 0x014 32 v :: es) :
    step s = .next ((s.setPending es).writeCtrl v) := by
  rw [step_write h (by decide)]
  rfl

/-- Settles O58: irq by its definition, after a command whose enables stay, and after the writes that clear a sticky bit
or its enable for each source. -/
theorem interruptFollowsStickyBits : Obligations.InterruptFollowsStickyBits := by
  refine ⟨irq_eq_true_iff, fun s herrIe hsatIe => (irq_eq_false_iff s).2 ⟨.inr herrIe, .inr hsatIe⟩,
    fun i s t h => ?command, fun s v es hp herr hsat => ?status, fun s v es hp herr hsat => ?ctrl⟩
  case command =>
    obtain ⟨herrIe, hsatIe⟩ := exec_keeps_enables h
    exact ⟨fun he hie => (irq_eq_true_iff t).2 (.inl ⟨exec_sets_err h he, herrIe.trans hie⟩),
      fun hsat hie => (irq_eq_true_iff t).2 (.inr ⟨hsat, hsatIe.trans hie⟩)⟩
  case status =>
    refine ⟨_, step_write_status hp, (irq_eq_false_iff _).2 ⟨?_, ?_⟩⟩
    · exact herr.imp_left fun hbit => by simp [hbit]
    · exact hsat.imp_left fun hbit => by simp [hbit]
  case ctrl => exact ⟨_, step_write_ctrl hp, (irq_eq_false_iff _).2 ⟨herr.symm, hsat.symm⟩⟩

end Sys2Proof.Machine

/-! Block reset and completion: the machine after reset (70_reset_and_hazards.md R280), and that every command comes to
an answer (R289; 20_memory.md R56; 60_exceptions.md R250). -/

namespace Sys2Proof.Machine

/-! Every command comes to an answer -/

/-- The command answers a next state, or faults at an unwritten DMEM word; it is not refused (R289). -/
def Answers (s : State) (r : Result) : Prop := (∃ t, r = .next t) ∨ FaultsUnwritten s r

theorem FailsWith.answers {s : State} {r : Result} (h : FailsWith s r) : Answers s r := by
  obtain ⟨code, -, hr⟩ := h.next
  exact .inl ⟨_, hr⟩

theorem FaultsUnwritten.answers {s : State} {r : Result} (h : FaultsUnwritten s r) : Answers s r := .inr h

theorem answers_of_succeed {s u : State} {b : Bool} {r : Result} (h : r = succeed b u) : Answers s r := .inl ⟨_, h⟩

theorem answers_of_finishRun {s : State} {c : BitVec 2} {x : SampleRun} {r : Result} (h : r = finishRun c s x) :
    Answers s r := answers_of_succeed h

/-- Every command answers: it fails with a code, succeeds, or stops in a MemRead inside DMEM. -/
theorem exec_answers (i : Instr) (s : State) : Answers s (exec i s) := by
  cases i with
  | nop | fxFromf | fxTof | fxMul | macClr | macAcc | macRd => exact answers_of_succeed rfl
  | dpLoad k =>
    rcases execDpLoad_cases k s with hf | hu | ⟨_, -, -, -, -, -, -, he⟩
    exacts [hf.answers, hu.answers, answers_of_succeed he]
  | dpExec u k =>
    rcases execDpExec_cases u k s with hf | hu | ⟨_, _, _, -, -, -, -, he⟩
    exacts [hf.answers, hu.answers, answers_of_succeed he]
  | dpFree k =>
    rcases execDpFree_cases k s with hf | ⟨_, -, he⟩
    exacts [hf.answers, answers_of_succeed he]
  | intCreate c =>
    rcases execIntCreate_cases c s with hf | hu | ⟨_, _, -, -, -, -, -, -, -, -, -, he⟩
    exacts [hf.answers, hu.answers, answers_of_succeed he]
  | intKaiser c =>
    rcases execIntKaiser_cases c s with hf | ⟨-, -, -, -, -, -, -, he⟩
    exacts [hf.answers, answers_of_succeed he]
  | intReset c =>
    rcases execIntReset_cases c s with hf | ⟨_, -, he⟩
    exacts [hf.answers, answers_of_succeed he]
  | intExec c =>
    rcases execIntExec_cases c s with hf | hu | ⟨_, _, -, -, -, he⟩
    exacts [hf.answers, hu.answers, answers_of_finishRun he]
  | intExecBlock c =>
    rcases execIntExecBlock_cases c s with hf | hu | ⟨_, _, -, -, -, he⟩
    exacts [hf.answers, hu.answers, answers_of_finishRun he]
  | intSetScale c =>
    rcases execIntSetScale_cases c s with hf | ⟨_, -, he⟩
    exacts [hf.answers, answers_of_succeed he]
  | intCopy c =>
    rcases execIntCopy_cases c s with hf | ⟨_, -, -, he⟩
    exacts [hf.answers, answers_of_succeed he]
  | intDestroy c =>
    rcases execIntDestroy_cases c s with hf | ⟨_, -, he⟩
    exacts [hf.answers, answers_of_succeed he]

/-- Settles O22: every command answers, by the list of its outcomes. -/
theorem commandsStopOnlyAtUnwrittenWords : Obligations.CommandsStopOnlyAtUnwrittenWords :=
  fun i s => exec_answers i s

/-! Block reset -/

/-- A step at the reset input resets the block (R280). -/
theorem step_reset {s : State} {es : List HostEvent} (h : s.pending = .reset :: es) :
    step s = .next (s.setPending es).blockReset := step_event h

/-- No interrupt after a block reset: both sticky bits are 0 (10_state.md R40). -/
@[simp] theorem irq_blockReset (s : State) : irq s.blockReset = false := rfl

/-- The offsets of the registers whose reset value is 0: the fixed ones, then the windows (R280; 10_state.md R41). -/
def zeroAtReset : List (BitVec 17) :=
  [0x014, 0x018, 0x01C, 0x020, 0x024, 0x028, 0x034, 0x038, 0x03C, 0x100, 0x104, 0x110, 0x114, 0x180, 0x190]

/-- The fixed registers hold their reset values; the windows show UNINIT contexts and EMPTY slots. -/
theorem readPort_reset_zero : ∀ off ∈ zeroAtReset, readPort State.reset (portOf off) = .ok 0 := by
  simp only [zeroAtReset, List.forall_mem_cons]
  exact ⟨rfl, rfl, rfl, rfl, rfl, rfl, rfl, rfl, rfl, readPort_ctxInfo (c := 0) rfl, readPort_ctxGain (c := 0) rfl,
    readPort_ctxInfo (c := 1) rfl, readPort_ctxGain (c := 1) rfl, readPort_dpInfo (k := 0) rfl,
    readPort_dpInfo (k := 1) rfl, nofun⟩

/-- After a block reset every port reads as it does in State.reset, whatever the block held before. -/
@[simp] theorem readPort_blockReset (s : State) (p : Port) : readPort s.blockReset p = readPort State.reset p := by
  cases p <;> rfl

/-- Settles O49: the registers that reset clears read 0, and ID and PARAM0 to PARAM3 read their constants in every
state. -/
theorem blockResetValues : Obligations.BlockResetValues := by
  intro s es h
  obtain ⟨-, hconstants, -⟩ := readOnlyWindowsShowState
  obtain ⟨hid, hparam0, hparam1, hparam2, hparam3⟩ := hconstants (s.setPending es).blockReset
  refine ⟨_, step_reset h, rfl, fun off hoff => ?_, hid, hparam0, hparam1, hparam2, hparam3, Memory.read_nil,
    irq_blockReset _⟩
  rw [readPort_blockReset]
  exact readPort_reset_zero off hoff

/-- Settles O60: State.reset is its own block reset, which meets the invariant. -/
theorem resetMeetsInvariant : Obligations.ResetMeetsInvariant := State.inv_blockReset State.reset

end Sys2Proof.Machine

/-! A command whose index names no slot or context, given directly to exec (30_encoding.md R75). -/

namespace Sys2Proof.Machine

/-- A context index not below N_CTX is ILLEGAL, whatever was to come next. -/
theorem withCtx_absent {c : BitVec 2} (h : ¬ c.toNat < Config.nCtx) (s : State) (k : Context → Result) :
    withCtx c s k = fail .illegal s := by
  rw [withCtx, (Bank.get?_eq_none s.ctx _).2 (Nat.not_lt.1 h)]

/-- The same before the READY check, which is of an existing context only. -/
theorem withReadyCtx_absent {c : BitVec 2} (h : ¬ c.toNat < Config.nCtx) (s : State) (k : Interp → Result) :
    withReadyCtx c s k = fail .illegal s :=
  withCtx_absent h s _

/-- A slot index not below N_DP is ILLEGAL, whatever was to come next. -/
theorem withSlot_absent {i : BitVec 2} (h : ¬ i.toNat < Config.nDp) (s : State) (k : Slot → Result) :
    withSlot i s k = fail .illegal s := by
  rw [withSlot, (Bank.get?_eq_none s.slots _).2 (Nat.not_lt.1 h)]

/-- The same before the EMPTY check, which is of an existing slot only. -/
theorem withReadySlot_absent {i : BitVec 2} (h : ¬ i.toNat < Config.nDp) (s : State) (k : DotProduct → Result) :
    withReadySlot i s k = fail .illegal s :=
  withSlot_absent h s _

/-- Every indexed command looks its index up before it does anything else; a command without an index is well
formed. -/
theorem exec_illFormed {i : Instr} (h : i.wellFormed = false) (s : State) : exec i s = fail .illegal s := by
  cases i with
  | nop | fxFromf | fxTof | fxMul | macClr | macAcc | macRd => exact absurd h (by decide)
  | dpLoad k | dpFree k => exact withSlot_absent (of_decide_eq_false h) s _
  | dpExec u k => exact withReadySlot_absent (of_decide_eq_false h) s _
  | intCreate c | intKaiser c => exact withCtx_absent (of_decide_eq_false h) s _
  | intReset c | intExec c | intExecBlock c | intSetScale c | intCopy c | intDestroy c =>
    exact withReadyCtx_absent (of_decide_eq_false h) s _

/-- Settles O7: the lookup of the absent index raises ILLEGAL before any effect. -/
theorem illFormedCommandsEndIllegal : Obligations.IllFormedCommandsEndIllegal := by
  intro i s h
  rw [exec_illFormed h, fail_eq (by decide)]

end Sys2Proof.Machine
